-- ==== Sys2Proof/Word.lean ====
section
/-!
DEFINITION. The words of the block and the closed vocabularies of its interfaces: bytes, cartridge addresses, handles,
ports, modes, control lines and levels (spec: 00_scope.md R10, 10_state.md R19, R20, R33, R36, 30_encoding.md R80).
-/

namespace Sys2Proof

/-- A byte is 8 bits, unsigned (00_scope.md R10). -/
abbrev Byte := BitVec 8

/-- A cartridge address: 16 bits, wrapping modulo 2^16 (00_scope.md R8 ADDR_WIDTH, 20_memory.md R50). -/
abbrev Addr := BitVec 16

/-- A chip address: 3 bits, 0 to 7 (00_scope.md R8 CHIP_ADDR_RANGE, 20_memory.md R49). -/
abbrev ChipAddr := BitVec 3

/-- A pin number of a port: 3 bits, 0 to 7 (41_port_pin.md R91). -/
abbrev Pin := BitVec 3

/-- A 32-bit size or bank count of the record (10_state.md R39). -/
abbrev Word32 := BitVec 32

/-- The two expander handles: `hA` drives the address bus, `hD` the data lines (10_state.md R20). -/
inductive Handle where
  | hA
  | hD
  deriving DecidableEq, Repr, Inhabited

/-- The two 8-bit ports of a chip (00_scope.md R8 PORT_WIDTH, 41_port_pin.md R91). -/
inductive Port where
  | A
  | B
  deriving DecidableEq, Repr, Inhabited

/-- The port modes (30_encoding.md R80). -/
inductive PortMode where
  | output
  | input
  | inputPullup
  deriving DecidableEq, Repr, Inhabited

/-- Whether a reference argument (transport, chip-select line, output pointer, buffer, record) is there (30_encoding.md R81). -/
inductive Presence where
  | present
  | absent
  deriving DecidableEq, Repr, Inhabited

/-- The cartridge control lines (10_state.md R33). -/
inductive Line where
  | RD
  | WR
  | CS
  deriving DecidableEq, Repr, Inhabited

/-- A level that is driven on a line (00_scope.md R12). -/
inductive Level where
  | low
  | high
  deriving DecidableEq, Repr, Inhabited

/-- The level last driven on a line, `unknown` where none is (10_state.md R19 `cslvl`, R33 `ctrl`). -/
inductive LineLevel where
  | unknown
  | low
  | high
  deriving DecidableEq, Repr, Inhabited

/-- How `CsConfig` configures a chip-select line (00_scope.md R12). -/
inductive CsCfg where
  | outputHigh
  | released
  deriving DecidableEq, Repr, Inhabited

/-- The configuration of a chip-select line (10_state.md R19 `cscfg`). -/
inductive CsState where
  | unconfigured
  | outputHigh
  | released
  deriving DecidableEq, Repr, Inhabited

/-- The bus-transfer phase (10_state.md R36). -/
inductive Phase where
  | idle
  | addressSet
  | readActive
  | writeActive
  deriving DecidableEq, Repr, Inhabited

/-- The register kinds the port/pin layer names (30_encoding.md R79). -/
inductive RegKind where
  | iodir
  | gppu
  | gpio
  | olat
  deriving DecidableEq, Repr, Inhabited

/-- What a soft verification compares: one pin or the whole port (41_port_pin.md R92). -/
inductive Scope where
  | pin (n : Pin)
  | port
  deriving DecidableEq, Repr, Inhabited

/-- The failure causes, a model annotation: the caller sees only Ok or Fail (60_exceptions.md R121). -/
inductive Cause where
  | argAbsent
  | notInitialized
  | txFail
  | txRxFail
  | verifyMismatch
  deriving DecidableEq, Repr, Inhabited

end Sys2Proof
end

