-- ==== Sys2Proof/Config.lean ====
section
/-!
DEFINITION. What an implementation fixes and what the spec leaves free: the session's parameters (00_scope.md R9), the
events of the trace that the environment may see (10_state.md R42), and the free values, constants without a body
(93_implementation_defined.md, treatment "any value"; log 6, 8, 9, 11, 13, 21).
-/

namespace Sys2Proof

/-- Whether a failed verification read fails the operation (00_scope.md R9 VERIFY_READ_FAIL, OPEN; 92_eei_decisions.md D12). -/
inductive VerifyReadFail where
  | fail
  | soft
  deriving DecidableEq, Repr, Inhabited

/-- Where one cartridge control line is driven (00_scope.md R9 CTRL_MAP, OPEN; 92_eei_decisions.md D16). -/
inductive CtrlRoute where
  | direct
  | expPin (h : Handle) (p : Port) (n : Pin)
  deriving DecidableEq, Repr, Inhabited

/-- CTRL_MAP, per line (42_bus_controller.md R100). -/
structure CtrlMap where
  rd : CtrlRoute
  wr : CtrlRoute
  cs : CtrlRoute
  deriving DecidableEq, Repr, Inhabited

/-- The test default of CTRL_MAP: every line `Direct` (00_scope.md R9). -/
def CtrlMap.direct : CtrlMap := ⟨.direct, .direct, .direct⟩

/-- The parameters the source leaves open, taken as an argument (00_scope.md R9). -/
structure Params where
  /-- CFG_REG: register index of the init device-configuration write (D4). -/
  cfgReg : Byte
  /-- CFG_INIT: value of that write (D4). -/
  cfgInit : Byte
  /-- VERIFY_REG: register read back at init (D6). -/
  verifyReg : Byte
  /-- PROBE_REG: register read by the liveness probe (D14). -/
  probeReg : Byte
  /-- VERIFY_READ_FAIL (D12). -/
  verifyReadFail : VerifyReadFail
  /-- CTRL_MAP (D16). -/
  ctrlMap : CtrlMap
  /-- DATA_PORT: the port of the data expander that carries D0 to D7 (D18). -/
  dataPort : Port
  /-- T_AS: settle delay from address-set to strobe (D19). -/
  tAS : Nat
  /-- T_SS: settle delay from strobe to sample (D19). -/
  tSS : Nat
  /-- ADDR_CHIP: chip address of `hA` (D21). -/
  addrChip : ChipAddr
  /-- DATA_CHIP: chip address of `hD` (D21). -/
  dataChip : ChipAddr
  /-- CS_LINE(hA): the physical chip-select line of `hA` (D21). -/
  csLineA : Nat
  /-- CS_LINE(hD): the physical chip-select line of `hD` (D21). -/
  csLineD : Nat
  /-- LEN_WIDTH: width in bits of the READ_BYTES length (D22). -/
  lenWidth : Nat
  /-- TITLE_CAP: title buffer capacity in bytes (D23). -/
  titleCap : Nat
  deriving DecidableEq, Repr, Inhabited

/-- A diagnostic event (10_state.md R43); a pin's bit is written as 0x00 or 0x01. -/
inductive Diagnostic where
  | mismatch (h : Handle) (p : Port) (scope : Scope) (expected observed : Byte)
  | headerReadFailed (cause : Cause)
  deriving DecidableEq, Repr, Inhabited

/-- The events of the trace (10_state.md R42, 00_scope.md R12); an answer is recorded with its event, `none` is `Fail`. -/
inductive Event where
  | acquire
  | release
  | csDrive (h : Handle) (lvl : Level)
  | csConfig (h : Handle) (cfg : CsCfg)
  | tx (h : Handle) (bytes : List Byte) (ok : Bool)
  | txRx (h : Handle) (bytes : List Byte) (m : Nat) (answer : Option (List Byte))
  | ctrl (line : Line) (lvl : Level)
  | delay (p : Nat)
  | diag (e : Diagnostic)
  deriving DecidableEq, Repr, Inhabited

/-- FREE. The oracle's answer to `Tx(h, bytes)`; it may see the whole trace (20_memory.md R52; log 6). The number is how
many free values were drawn before. -/
opaque Config.oracleTx : Nat → List Event → Handle → List Byte → Bool

/-- FREE. The oracle's answer to `TxRx(h, bytes, 1)`, `none` for `Fail` (20_memory.md R52; log 6). -/
opaque Config.oracleTxRx : Nat → List Event → Handle → List Byte → Option Byte

/-- FREE. Any byte: the READ_BYTES buffer from the failing byte on, the reserved serial code (U5, U6; log 13). -/
opaque Config.freeByte : Nat → Byte

/-- FREE. Any Bool: whether a chip took a failed write, the reserved color flag (U7, U6; log 8, 13). -/
opaque Config.freeBool : Nat → Bool

/-- FREE. Any 32-bit value: `rom_size` for the codes 17 to 255 (U3; log 13). -/
opaque Config.freeWord32 : Nat → Word32

/-- FREE. The shadow cache of `hA` at construction: any value (10_state.md R45, U1; log 9). -/
opaque Config.resetCacheA : Vector Byte 22

/-- FREE. The shadow cache of `hD` at construction: any value (10_state.md R45, U1; log 9). -/
opaque Config.resetCacheD : Vector Byte 22

/-- FREE. VERIFY_READ_FAIL, which the spec leaves OPEN without a default (00_scope.md R9, D12; log 11). -/
opaque Config.verifyReadFail : VerifyReadFail

/-- FREE. CTRL_MAP, which the spec leaves OPEN (00_scope.md R9, D16; log 11). -/
opaque Config.ctrlMap : CtrlMap

/-- FREE. TYPE_NAME for every code but 0x13 (43_header_parser.md R114, D27; log 21). -/
opaque Config.typeNameOther : Byte → String

/-- The parameters at their defaults, the two OPEN ones given (00_scope.md R9). -/
def Params.standard (v : VerifyReadFail) (m : CtrlMap) : Params where
  cfgReg := 0x0A#8
  cfgInit := 0x08#8
  verifyReg := 0x00#8
  probeReg := 0x00#8
  verifyReadFail := v
  ctrlMap := m
  dataPort := .A
  tAS := 0
  tSS := 0
  addrChip := 0#3
  dataChip := 1#3
  csLineA := 0
  csLineD := 1
  lenWidth := 32
  titleCap := 17

end Sys2Proof
end

