-- ==== Sys2Proof/Syntax.lean ====
section
/-!
DEFINITION. The syntax: the two SPI frames (30_encoding.md R74) and the fourteen caller operations (30_encoding.md R81),
one constructor per row of spec/opcode_table.json.
-/

namespace Sys2Proof

/-- The instructions. A chip address of `init`, a pin number, a pin value and a length are held as the caller passes
them, so that a value outside its type is a term that `WellFormed` and `exec` refuse (60_exceptions.md R128). The
handle of a frame is the one whose chip-select line is asserted around it (20_memory.md R49; log 4). -/
inductive Instr where
  /-- WR_FRAME: a format-W frame `[0x40 | (a << 1), r, v]` on the line of `h` (R74, R85; log 4). -/
  | wrFrame (h : Handle) (a : ChipAddr) (r v : Byte)
  /-- RD_FRAME: a format-R frame `[0x41 | (a << 1), r]` on the line of `h`, one byte received (R74, R85; log 4). -/
  | rdFrame (h : Handle) (a : ChipAddr) (r : Byte)
  /-- INIT h, chip_addr, transport, cs (R89). -/
  | init (h : Handle) (chip : Byte) (tp cs : Presence)
  /-- DESTROY h (R90). -/
  | destroy (h : Handle)
  /-- WRITE_REG h, reg_index, value (R87). -/
  | writeReg (h : Handle) (i v : Byte)
  /-- READ_REG h, reg_index, out (R88). -/
  | readReg (h : Handle) (i : Byte) (out : Presence)
  /-- SET_PORT_MODE h, port, mode (R93). -/
  | setPortMode (h : Handle) (p : Port) (m : PortMode)
  /-- WRITE_PIN h, pin, port, value (R94). -/
  | writePin (h : Handle) (pin : Byte) (p : Port) (value : Byte)
  /-- WRITE_PORT h, port, value (R95). -/
  | writePort (h : Handle) (p : Port) (v : Byte)
  /-- READ_PIN h, pin, port (R96). -/
  | readPin (h : Handle) (pin : Byte) (p : Port)
  /-- READ_PORT h, port (R97). -/
  | readPort (h : Handle) (p : Port)
  /-- IS_CONNECTED h (R98). -/
  | isConnected (h : Handle)
  /-- READ_BYTE addr (R103). -/
  | readByte (a : Addr)
  /-- WRITE_BYTE addr, value (R104). -/
  | writeByte (a : Addr) (v : Byte)
  /-- READ_BYTES start, length, buf (R105). -/
  | readBytes (start : Addr) (len : Nat) (buf : Presence)
  /-- READ_INFO info (R109). -/
  | readInfo (info : Presence)
  deriving DecidableEq, Repr, Inhabited

/-- The block's two encoded interfaces (30_encoding.md, opening): the operations the caller offers, and the SPI frames on
the wire. A selector code and a frame's first byte are never read by the same decoder (log 5). -/
inductive Interface where
  /-- The caller interface: selectors and their operands (R81). -/
  | caller
  /-- The SPI wire: frames (R74). -/
  | wire
  deriving DecidableEq, Repr, Inhabited

/-- One pending request: the interface it arrives on and its bytes (log 1). -/
structure Call where
  via : Interface
  bytes : List Byte
  deriving DecidableEq, Repr, Inhabited

end Sys2Proof
end

