-- ==== Sys2Proof/WellFormed.lean ====
section
/-!
DEFINITION. Well-formed instructions: the argument ranges of 60_exceptions.md R128 that do not depend on the session's
state or parameters.
-/

namespace Sys2Proof

/-- A chip address is 0 to 7 (60_exceptions.md R128, 90_conflicts.md C8). -/
abbrev chipInRange (a : Byte) : Prop := a.toNat < 8

/-- A pin is 0 to 7 (41_port_pin.md R91, 60_exceptions.md R128). -/
abbrev pinInRange (n : Byte) : Prop := n.toNat < 8

/-- A `write_pin` value is one bit, 0 or 1 (41_port_pin.md R91, 60_exceptions.md R128). -/
abbrev pinValueInRange (v : Byte) : Prop := v.toNat < 2

/-- The instruction's arguments lie in their types. Whether a length fits LEN_WIDTH is a parameter's matter, and `exec`
checks it (60_exceptions.md R128). -/
def wellFormed : Instr → Bool
  | .wrFrame _ _ _ _ => true
  | .rdFrame _ _ _ => true
  | .init _ chip _ _ => decide (chipInRange chip)
  | .destroy _ => true
  | .writeReg _ _ _ => true
  | .readReg _ _ _ => true
  | .setPortMode _ _ _ => true
  | .writePin _ pin _ value => decide (pinInRange pin) && decide (pinValueInRange value)
  | .writePort _ _ _ => true
  | .readPin _ pin _ => decide (pinInRange pin)
  | .readPort _ _ => true
  | .isConnected _ => true
  | .readByte _ => true
  | .writeByte _ _ => true
  | .readBytes _ _ _ => true
  | .readInfo _ => true

/-- The check as a proposition. -/
abbrev WellFormed (i : Instr) : Prop := wellFormed i = true

end Sys2Proof
end

