-- ==== Sys2Proof/Decode.lean ====
section
/-!
DEFINITION. The decoders of the two interfaces, total on any bytes and rejecting by name, and the encoder. The frames'
bits are the spec's (30_encoding.md R74, R75), the selectors are the spec's (R81); the operand bytes behind a selector or
a frame are the model's own encoding, DESIGN CHOICE (log 3, log 4).
-/

namespace Sys2Proof

/-- Why bytes are no encoded instruction. All are safe: the model stops where it gives the bytes no meaning. -/
inductive DecodeError where
  /-- The call holds no byte, or fewer operand bytes than its selector asks for. Raised by the decoder; safe. -/
  | truncated
  /-- On the caller interface the first byte is no selector of R81 (30_encoding.md R83). Safe. -/
  | unknownSelector (b : Byte)
  /-- On the wire the first byte's bits 7:4 are not 0b0100: no frame begins so (30_encoding.md R83). Safe. -/
  | notAFrame (b : Byte)
  /-- The handle byte names neither `hA` nor `hD` (log 3). Safe. -/
  | badHandle (b : Byte)
  /-- A port other than A or B (60_exceptions.md R128). Safe. -/
  | badPort (b : Byte)
  /-- A mode byte that names no mode of R80 (log 3). Safe. -/
  | badMode (b : Byte)
  /-- A presence byte that is neither present nor absent (log 3). Safe. -/
  | badPresence (b : Byte)
  /-- A length whose first group of seven bits is zero and not its last: no length is encoded so (log 3). Safe. -/
  | paddedLength
  /-- A chip address above 7 (60_exceptions.md R128). Safe. -/
  | chipAbove7 (b : Byte)
  /-- A pin above 7 (60_exceptions.md R128). Safe. -/
  | pinAbove7 (b : Byte)
  /-- A `write_pin` value other than 0 or 1 (60_exceptions.md R128). Safe. -/
  | pinValueNotBit (b : Byte)
  deriving DecidableEq, Repr, Inhabited

/-- A reader of operand bytes: what it read and the bytes left, or why it cannot. -/
abbrev Parser := StateT (List Byte) (Except DecodeError)

/-- Reject with a reason. -/
def reject {α : Type} (e : DecodeError) : Parser α := fun _ => .error e

/-- The next byte. -/
def nextByte : Parser Byte
  | [] => .error .truncated
  | b :: rest => .ok (b, rest)

/-- Handle byte: 0 is `hA`, 1 is `hD` (log 3). -/
def nextHandle : Parser Handle := do
  let b ← nextByte
  if b = 0#8 then pure .hA else if b = 1#8 then pure .hD else reject (.badHandle b)

/-- Port byte: 0 is A, 1 is B (log 3). -/
def nextPort : Parser Port := do
  let b ← nextByte
  if b = 0#8 then pure .A else if b = 1#8 then pure .B else reject (.badPort b)

/-- Mode byte: 0 Output, 1 Input, 2 InputPullup (log 3). -/
def nextMode : Parser PortMode := do
  let b ← nextByte
  if b = 0#8 then pure .output else if b = 1#8 then pure .input else if b = 2#8 then pure .inputPullup
  else reject (.badMode b)

/-- Presence byte: 0 present, 1 absent (log 3). -/
def nextPresence : Parser Presence := do
  let b ← nextByte
  if b = 0#8 then pure .present else if b = 1#8 then pure .absent else reject (.badPresence b)

/-- Chip-address byte, refused above 7 (30_encoding.md R83). -/
def nextChip : Parser Byte := do
  let b ← nextByte
  if chipInRange b then pure b else reject (.chipAbove7 b)

/-- Pin byte, refused above 7 (30_encoding.md R83). -/
def nextPin : Parser Byte := do
  let b ← nextByte
  if pinInRange b then pure b else reject (.pinAbove7 b)

/-- Pin-value byte, refused unless 0 or 1 (60_exceptions.md R128). -/
def nextPinValue : Parser Byte := do
  let b ← nextByte
  if pinValueInRange b then pure b else reject (.pinValueNotBit b)

/-- A number of `k` bytes, most significant byte first, behind `acc` (log 3). -/
def nextNat : Nat → Nat → Parser Nat
  | 0, acc => pure acc
  | k + 1, acc => do
    let b ← nextByte
    nextNat k (acc * 256 + b.toNat)

/-- A length behind the groups read so far, of value `acc`: a byte from 0x80 on holds seven bits and another byte follows,
a byte below 0x80 holds the last seven bits. So a length of any width has bytes, and only its shortest ones are taken
(log 3). -/
def nextLength : Nat → Parser Nat
  | _, [] => .error .truncated
  | acc, b :: rest =>
    if acc = 0 ∧ b = 0x80#8 then .error .paddedLength
    else if b.toNat < 128 then .ok (acc * 128 + b.toNat, rest)
    else nextLength (acc * 128 + (b.toNat - 128)) rest

/-- A 16-bit address, two bytes. -/
def nextAddr : Parser Addr := do
  let n ← nextNat 2 0
  pure (BitVec.ofNat 16 n)

/-- A byte is the first byte of a frame when its bits 7:4 are 0b0100 (30_encoding.md R74, R75). -/
def isFrameByte (b : Byte) : Bool := b.extractLsb' 4 4 == 0b0100#4

/-- The chip-address field of a frame's first byte: its bits 3:1 (30_encoding.md R75). -/
def frameChip (b : Byte) : ChipAddr := b.extractLsb' 1 3

/-- The RW bit of a frame's first byte: bit 0, set for a read (30_encoding.md R75, R77). -/
def frameIsRead (b : Byte) : Bool := b.getLsbD 0

/-- The rest of a frame whose first byte is `b`: R (and V), then the handle byte (log 4). -/
def decodeFrame (b : Byte) : Parser Instr := do
  if frameIsRead b then
    let r ← nextByte
    let h ← nextHandle
    pure (.rdFrame h (frameChip b) r)
  else
    let r ← nextByte
    let v ← nextByte
    let h ← nextHandle
    pure (.wrFrame h (frameChip b) r v)

/-- The operands of the caller operation of selector `b`, in the order of the table of R81. -/
def decodeOperation (b : Byte) : Parser Instr :=
  match b.toNat with
  | 0x01 => do
    let h ← nextHandle
    let a ← nextChip
    let tp ← nextPresence
    let cs ← nextPresence
    pure (.init h a tp cs)
  | 0x02 => do
    let h ← nextHandle
    pure (.destroy h)
  | 0x03 => do
    let h ← nextHandle
    let i ← nextByte
    let v ← nextByte
    pure (.writeReg h i v)
  | 0x04 => do
    let h ← nextHandle
    let i ← nextByte
    let out ← nextPresence
    pure (.readReg h i out)
  | 0x05 => do
    let h ← nextHandle
    let p ← nextPort
    let m ← nextMode
    pure (.setPortMode h p m)
  | 0x06 => do
    let h ← nextHandle
    let n ← nextPin
    let p ← nextPort
    let v ← nextPinValue
    pure (.writePin h n p v)
  | 0x07 => do
    let h ← nextHandle
    let p ← nextPort
    let v ← nextByte
    pure (.writePort h p v)
  | 0x08 => do
    let h ← nextHandle
    let n ← nextPin
    let p ← nextPort
    pure (.readPin h n p)
  | 0x09 => do
    let h ← nextHandle
    let p ← nextPort
    pure (.readPort h p)
  | 0x0A => do
    let h ← nextHandle
    pure (.isConnected h)
  | 0x0B => do
    let a ← nextAddr
    pure (.readByte a)
  | 0x0C => do
    let a ← nextAddr
    let v ← nextByte
    pure (.writeByte a v)
  | 0x0D => do
    let a ← nextAddr
    let n ← nextLength 0
    let buf ← nextPresence
    pure (.readBytes a n buf)
  | 0x0E => do
    let info ← nextPresence
    pure (.readInfo info)
  | _ => reject (.unknownSelector b)

/-- The decoder of one interface: the instruction at the head of the bytes and the bytes behind it, or why there is
none. The caller interface takes the selectors of R81 and no other byte, 0x40 to 0x4F included (R83); the wire takes
frames and nothing else (R74; log 5). -/
def decode (via : Interface) : Parser Instr := do
  let b ← nextByte
  match via with
  | .caller => decodeOperation b
  | .wire => if isFrameByte b then decodeFrame b else reject (.notAFrame b)

/-- The interface an instruction arrives on: frames on the wire (R74), operations from the caller (R81). -/
def interfaceOf : Instr → Interface
  | .wrFrame _ _ _ _ | .rdFrame _ _ _ => .wire
  | .init _ _ _ _ | .destroy _ | .writeReg _ _ _ | .readReg _ _ _ | .setPortMode _ _ _ | .writePin _ _ _ _
  | .writePort _ _ _ | .readPin _ _ _ | .readPort _ _ | .isConnected _ | .readByte _ | .writeByte _ _
  | .readBytes _ _ _ | .readInfo _ => .caller

/-- The first byte of a format-W frame: `0x40 | (a << 1)` (30_encoding.md R75). -/
def opW (a : ChipAddr) : Byte := 0x40#8 ||| (a.setWidth 8 <<< 1)

/-- The first byte of a format-R frame: `0x41 | (a << 1)` (30_encoding.md R75). -/
def opR (a : ChipAddr) : Byte := 0x41#8 ||| (a.setWidth 8 <<< 1)

/-- The three bytes of a format-W frame, in wire order (30_encoding.md R74, 20_memory.md R55). -/
def frameW (a : ChipAddr) (r v : Byte) : List Byte := [opW a, r, v]

/-- The two transmitted bytes of a format-R frame, in wire order (30_encoding.md R74, 20_memory.md R55). -/
def frameR (a : ChipAddr) (r : Byte) : List Byte := [opR a, r]

/-- The handle byte (log 3). -/
def handleByte : Handle → Byte
  | .hA => 0#8
  | .hD => 1#8

/-- The port byte (log 3). -/
def portByte : Port → Byte
  | .A => 0#8
  | .B => 1#8

/-- The mode byte (log 3). -/
def modeByte : PortMode → Byte
  | .output => 0#8
  | .input => 1#8
  | .inputPullup => 2#8

/-- The presence byte (log 3). -/
def presenceByte : Presence → Byte
  | .present => 0#8
  | .absent => 1#8

/-- The `k` low bytes of a number, most significant byte first (log 3). -/
def natBytes : Nat → Nat → List Byte
  | 0, _ => []
  | k + 1, n => natBytes k (n / 256) ++ [BitVec.ofNat 8 n]

/-- The bytes from 0x80 on of a length: the groups of seven bits of `n`, most significant first, none if `n` is 0. The
first argument bounds their number (log 3). -/
def leadingGroups : Nat → Nat → List Byte
  | 0, _ => []
  | k + 1, n => if n = 0 then [] else leadingGroups k (n / 128) ++ [BitVec.ofNat 8 (128 + n % 128)]

/-- The bytes of a length, of any width (log 3). -/
def lengthBytes (n : Nat) : List Byte := leadingGroups n (n / 128) ++ [BitVec.ofNat 8 (n % 128)]

/-- The encoder: the bytes of an instruction. -/
def encode : Instr → List Byte
  | .wrFrame h a r v => frameW a r v ++ [handleByte h]
  | .rdFrame h a r => frameR a r ++ [handleByte h]
  | .init h chip tp cs => [0x01#8, handleByte h, chip, presenceByte tp, presenceByte cs]
  | .destroy h => [0x02#8, handleByte h]
  | .writeReg h i v => [0x03#8, handleByte h, i, v]
  | .readReg h i out => [0x04#8, handleByte h, i, presenceByte out]
  | .setPortMode h p m => [0x05#8, handleByte h, portByte p, modeByte m]
  | .writePin h pin p value => [0x06#8, handleByte h, pin, portByte p, value]
  | .writePort h p v => [0x07#8, handleByte h, portByte p, v]
  | .readPin h pin p => [0x08#8, handleByte h, pin, portByte p]
  | .readPort h p => [0x09#8, handleByte h, portByte p]
  | .isConnected h => [0x0A#8, handleByte h]
  | .readByte a => [0x0B#8] ++ natBytes 2 a.toNat
  | .writeByte a v => [0x0C#8] ++ natBytes 2 a.toNat ++ [v]
  | .readBytes start len buf => [0x0D#8] ++ natBytes 2 start.toNat ++ lengthBytes len ++ [presenceByte buf]
  | .readInfo info => [0x0E#8, presenceByte info]

/-- An instruction as a request on its interface. -/
def requestOf (i : Instr) : Call := ⟨interfaceOf i, encode i⟩

/-- The length in bytes of the longest instruction whose operand bytes are zeros: INIT, WRITE_PIN, and READ_BYTES, whose
length 0 is one byte. -/
def maxInstrBytes : Nat := 5

/-- The bytes of a word as spec/opcode_table.json numbers its bits: the first byte on the wire is the most significant
of the `nbits` bits (30_encoding.md R74: "the highest bit the first bit on the wire"), operand bytes of zeros behind
it, up to the longest instruction with such operands. -/
def tableWordBytes (nbits w : Nat) : List Byte :=
  natBytes (nbits / 8) w ++ List.replicate (maxInstrBytes - nbits / 8) 0#8

/-- The interface of a table row: the table gives a caller operation its 8 selector bits (30_encoding.md R81) and a frame
24 or 16 bits (R74), which tells the rows of the two interfaces apart (log 19). -/
def tableInterface (nbits : Nat) : Interface := if nbits ≤ 8 then .caller else .wire

/-- A word of the opcode table as a request. -/
def tableCall (nbits w : Nat) : Call := ⟨tableInterface nbits, tableWordBytes nbits w⟩

/-- The instruction the decoder reads from a word of the opcode table, if any. -/
def decodeTableWord (nbits w : Nat) : Option Instr :=
  match decode (tableInterface nbits) (tableWordBytes nbits w) with
  | .ok (i, _) => some i
  | .error _ => none

end Sys2Proof
end

