-- ==== Sys2Proof/Machine/State.lean ====
section
/-!
DEFINITION. The state of the machine as plain data, its faults and refusals, and the state at construction
(10_state.md; 60_exceptions.md R128; the environment of 20_memory.md R52 to R54).
-/

namespace Sys2Proof.Machine

/-- Bytes by address, in one canonical form: addresses strictly rising, no entry 0x00 (what an unlisted address reads
as; log 12). -/
abbrev Memory := List Host.Cell

/-- An ExpanderHandle (10_state.md R19). -/
structure HandleState where
  /-- `chip_addr[h]`. -/
  chipAddr : ChipAddr
  /-- `transport[h]`: the handle to the shared transport is there. -/
  transport : Presence
  /-- `cs[h]`: the chip-select line it refers to, `none` when absent (CS_LINE of 00_scope.md R9). -/
  cs : Option Nat
  /-- `cache[h][0..21]`, the shadow cache (10_state.md R21). -/
  cache : Vector Byte 22
  /-- `init[h]` (10_state.md R24). -/
  init : Bool
  /-- `cscfg[h]`. -/
  cscfg : CsState
  /-- `cslvl[h]`. -/
  cslvl : LineLevel
  deriving DecidableEq, Repr

/-- The levels last driven on the cartridge control lines (10_state.md R33). -/
structure CtrlLines where
  rd : LineLevel
  wr : LineLevel
  cs : LineLevel
  deriving DecidableEq, Repr

/-- The CartridgeInfo record (10_state.md R39). -/
structure CartInfo where
  title : List Byte
  checksum : Byte
  isSuper : Bool
  isColor : Bool
  serial : Vector Byte 3
  ramBanks : Word32
  romBanks : Word32
  cartType : Byte
  hasBattery : Bool
  romSize : Word32
  ramSize : Word32
  deriving DecidableEq, Repr

/-- The result of a caller operation (30_encoding.md R81, 10_state.md R44); the cause is a model annotation
(60_exceptions.md R121). -/
inductive OpResult where
  | ok
  | okByte (b : Byte)
  | okBit (b : Bool)
  | answer (b : Bool)
  | noResult
  | fail (c : Cause)
  deriving DecidableEq, Repr

/-- The ideal environment, the spec's reference oracle (20_memory.md R54; log 7). -/
structure IdealEnv where
  /-- `reg[hA][0..21]`. -/
  regsA : Vector Byte 22
  /-- `reg[hD][0..21]`. -/
  regsD : Vector Byte 22
  /-- `ROM[0..65535]`. -/
  rom : Memory
  /-- The writes the cartridge has recorded, oldest first. -/
  writes : List (Addr × Byte)
  deriving DecidableEq, Repr

/-- What stands behind the transport: an oracle of which nothing is known (20_memory.md R52), or the ideal environment
(R54). -/
inductive EnvModel where
  | free
  | ideal (e : IdealEnv)
  deriving DecidableEq, Repr

/-- An answer fixed in advance for one transport call (95_test_vectors.md, "failing environment"; log 6). -/
inductive Reply where
  /-- The environment answers as it would. -/
  | byEnv
  /-- The call fails. -/
  | fail
  /-- The call succeeds; a `TxRx` receives the byte. -/
  | ok (b : Byte)
  deriving DecidableEq, Repr

/-- The environment: the answers fixed for the coming transport calls, oldest first, then its model. -/
structure Env where
  script : List Reply
  model : EnvModel
  deriving DecidableEq, Repr

/-- The state. -/
structure State where
  /-- The session's parameters (00_scope.md R9). -/
  params : Params
  /-- The address expander's handle (10_state.md R20). -/
  hA : HandleState
  /-- The data expander's handle (10_state.md R20). -/
  hD : HandleState
  /-- `ctrl[RD]`, `ctrl[WR]`, `ctrl[CS]` (10_state.md R33). -/
  ctrl : CtrlLines
  /-- `phase` (10_state.md R36). -/
  phase : Phase
  /-- The trace, oldest event first (10_state.md R42). -/
  trace : List Event
  /-- The last operation's result, `none` before the first (10_state.md R42, R44). -/
  result : Option OpResult
  /-- A caller operation is in progress (20_memory.md R73; log 14). -/
  busy : Bool
  /-- The caller's output cell, `*out` of READ_REG (40_register_driver.md R88). -/
  out : Byte
  /-- The caller's READ_BYTES buffer, by index (10_state.md R37). -/
  buf : Memory
  /-- The caller's CartridgeInfo record (10_state.md R39). -/
  info : CartInfo
  /-- The model's own: the pending requests, each with its interface and bytes, oldest first (log 1). -/
  calls : List Call
  /-- The environment; no part of the block (10_state.md R32; log 6). -/
  env : Env
  /-- The model's own: how many free values were drawn (log 13). -/
  draws : Nat
  deriving DecidableEq, Repr

/-- Why the machine stops with a fault. It never does: "`fault` or `stuck`: not used by this block"
(93_implementation_defined.md, Part 1; log 16). -/
inductive Fault where
  deriving DecidableEq, Repr

/-- Why the model gives an input no meaning (60_exceptions.md R128). A refusal is no chip outcome and "errs toward
unprovable": every one is safe. -/
inductive Refusal where
  /-- An instruction the model has no meaning for yet. Raised by `exec`'s arms alone; safe. -/
  | notModelled (mnemonic : String)
  /-- A caller operation issued while another is in progress (R128, 20_memory.md R73). Raised by every meaning; safe. -/
  | overlappingCall
  /-- A chip address above 7 (R128). Raised by INIT; safe. -/
  | chipAbove7
  /-- A pin above 7 (R128). Raised by WRITE_PIN and READ_PIN; safe. -/
  | pinAbove7
  /-- A `write_pin` value other than 0 or 1 (R128). Raised by WRITE_PIN; safe. -/
  | pinValueNotBit
  /-- INIT on a handle with `init[h]` true (R128, 92_eei_decisions.md D7). Raised by INIT; safe. -/
  | alreadyInitialized
  /-- A VERIFY_REG that INIT does not write (R128). Raised by INIT; safe. -/
  | verifyRegNotWritten
  /-- A READ_BYTES length that does not fit LEN_WIDTH (R128). Raised by READ_BYTES; safe. -/
  | lengthTooWide
  /-- The pending request's bytes are no instruction of its interface: an unknown selector, no frame, an argument outside
  its type (30_encoding.md R83). Raised by `step`; safe. -/
  | undecodable (e : DecodeError)
  deriving DecidableEq, Repr

/-- A handle at construction (10_state.md R45; log 9, log 10). -/
def HandleState.construct (chip : ChipAddr) (line : Nat) (cache : Vector Byte 22) : HandleState where
  chipAddr := chip
  transport := .present
  cs := some line
  cache := cache
  init := false
  cscfg := .unconfigured
  cslvl := .unknown

/-- A record that no read has written (log 12). -/
def CartInfo.blank (titleCap : Nat) : CartInfo where
  title := List.replicate titleCap 0#8
  checksum := 0#8
  isSuper := false
  isColor := false
  serial := Vector.replicate 3 0#8
  ramBanks := 0#32
  romBanks := 0#32
  cartType := 0#8
  hasBattery := false
  romSize := 0#32
  ramSize := 0#32

/-- The state at construction of a session with parameters `p` (10_state.md R45, 70_reset_and_hazards.md R137). -/
def State.construct (p : Params) : State where
  params := p
  hA := HandleState.construct p.addrChip p.csLineA Config.resetCacheA
  hD := HandleState.construct p.dataChip p.csLineD Config.resetCacheD
  ctrl := ⟨.unknown, .unknown, .unknown⟩
  phase := .idle
  trace := []
  result := none
  busy := false
  out := 0#8
  buf := []
  info := CartInfo.blank p.titleCap
  calls := []
  env := ⟨[], .free⟩
  draws := 0

/-- The machine right after reset, which is construction (70_reset_and_hazards.md R137); the parameters are the spec's
defaults, the two OPEN ones free (log 11). -/
def State.reset : State := State.construct (Params.standard Config.verifyReadFail Config.ctrlMap)

end Sys2Proof.Machine
end

