-- ==== Sys2Proof/Machine/Flags.lean ====
section
/-!
DEFINITION. The block's Boolean results (10_state.md R44; it has no condition codes) and the numbers of the failure
causes (60_exceptions.md R121).
-/

namespace Sys2Proof.Machine

/-- The cause codes, the spec's annotation (60_exceptions.md R121). -/
def causeCode : Cause → Nat
  | .argAbsent => 1
  | .notInitialized => 2
  | .txFail => 3
  | .txRxFail => 4
  | .verifyMismatch => 5

/-- What the caller sees of a result: Ok is true, Fail is false (00_scope.md R13); IS_CONNECTED's result is its Bool,
DESTROY has none (30_encoding.md R81). -/
def callerVisible : OpResult → Option Bool
  | .ok => some true
  | .okByte _ => some true
  | .okBit _ => some true
  | .answer b => some b
  | .noResult => none
  | .fail _ => some false

/-- The type codes with a battery (43_header_parser.md R113). -/
def batteryCodes : List Byte :=
  [0x03#8, 0x06#8, 0x09#8, 0x0D#8, 0x0F#8, 0x10#8, 0x13#8, 0x17#8, 0x1B#8, 0x1E#8, 0xFF#8]

/-- `HasBattery(t)`: membership in the set of R113. -/
def hasBattery (t : Byte) : Bool := batteryCodes.contains t

/-- The Super flag: the byte at 0x146 equals 0x03 (43_header_parser.md R115). -/
def isSuperByte (b : Byte) : Bool := b == 0x03#8

end Sys2Proof.Machine
end

