-- ==== Sys2Proof/Machine/Operands.lean ====
section
/-!
DEFINITION. How operands reach the bits: register indices, mode bytes, pin masks and address bytes (30_encoding.md R78
to R80, 20_memory.md R57). The frames' first bytes `opW` and `opR` stand in Sys2Proof/Decode.lean (R75).
-/

namespace Sys2Proof.Machine

/-- `base(kind)` (30_encoding.md R79). -/
def RegKind.base : RegKind → Byte
  | .iodir => 0x00#8
  | .gppu => 0x0C#8
  | .gpio => 0x12#8
  | .olat => 0x14#8

/-- `regIndex(kind, port) = base(kind) + (port == B ? 1 : 0)` (30_encoding.md R79). -/
def regIndex (kind : RegKind) (p : Port) : Byte :=
  match p with
  | .A => RegKind.base kind
  | .B => RegKind.base kind + 1#8

/-- The byte a mode writes to IODIR (30_encoding.md R80). -/
def modeDirection : PortMode → Byte
  | .output => 0x00#8
  | .input => 0xFF#8
  | .inputPullup => 0xFF#8

/-- The byte a mode writes to GPPU (30_encoding.md R80). -/
def modePullup : PortMode → Byte
  | .output => 0x00#8
  | .input => 0x00#8
  | .inputPullup => 0xFF#8

/-- The pin mask `1 << n` (30_encoding.md R78). -/
def pinMask (n : Pin) : Byte := 1#8 <<< n.toNat

/-- The latch with pin `n` set or cleared (41_port_pin.md R94). -/
def withPin (cur : Byte) (n : Pin) (b : Bool) : Byte :=
  if b then cur ||| pinMask n else cur &&& ~~~ pinMask n

/-- Bit `n` of a port's byte (41_port_pin.md R96). -/
def pinBit (g : Byte) (n : Pin) : Bool := g.getLsbD n.toNat

/-- A bit as a byte, 0x00 or 0x01. -/
def bitByte (b : Bool) : Byte := if b then 1#8 else 0#8

/-- `a[7:0]` (20_memory.md R57). -/
def addrLow (a : Addr) : Byte := a.extractLsb' 0 8

/-- `a[15:8]` (20_memory.md R57). -/
def addrHigh (a : Addr) : Byte := a.extractLsb' 8 8

/-- The address two latches name, port B's byte the more significant (20_memory.md R54, R57). -/
def joinAddr (hi lo : Byte) : Addr := hi ++ lo

/-- The port that is not DATA_PORT (42_bus_controller.md R99). -/
def otherPort : Port → Port
  | .A => .B
  | .B => .A

/-- The register `written(VERIFY_REG)`: what the five init writes leave in register `r`, the last of them that names it
(40_register_driver.md R89). DESIGN CHOICE: where CFG_REG is one of the four other registers, the loop writes two values to
it, and the spec does not say which one `written` is if VERIFY_REG names it (log 26). -/
def lastWritten : List (Byte × Byte) → Byte → Option Byte
  | [], _ => none
  | (r, v) :: rest, q => (lastWritten rest q).or (if r = q then some v else none)

/-- The five register writes of INIT, in order (40_register_driver.md R89). -/
def initWrites (p : Params) : List (Byte × Byte) :=
  [(p.cfgReg, p.cfgInit),
   (regIndex .iodir .A, 0x00#8), (regIndex .iodir .B, 0x00#8),
   (regIndex .olat .A, 0x00#8), (regIndex .olat .B, 0x00#8)]

/-- CTRL_MAP of one line (42_bus_controller.md R100). -/
def routeOf (m : CtrlMap) : Line → CtrlRoute
  | .RD => m.rd
  | .WR => m.wr
  | .CS => m.cs

/-- CS_LINE(h) (00_scope.md R9). -/
def csLineOf (p : Params) : Handle → Nat
  | .hA => p.csLineA
  | .hD => p.csLineD

end Sys2Proof.Machine
end

