-- ==== Sys2Proof/Machine/Ops.lean ====
section
/-!
DEFINITION. The named operations over memory, handles, control lines and the environment; the transaction
(40_register_driver.md R85); failing, and the end of a caller operation (60_exceptions.md R122, R123).
-/

namespace Sys2Proof.Machine

/-! ### Memory -/

/-- What a byte of memory that nothing has written reads as (log 12). -/
def unlistedByte : Byte := 0#8

/-- One byte; an unlisted address reads `unlistedByte`. -/
def Memory.read : Memory → Nat → Byte
  | [], _ => unlistedByte
  | (b, w) :: m, a => if a = b then w else Memory.read m a

/-- Write one byte, keeping the canonical form. -/
def Memory.write : Memory → Nat → Byte → Memory
  | [], a, v => if v = unlistedByte then [] else [(a, v)]
  | (b, w) :: m, a, v =>
    if a < b then (if v = unlistedByte then (b, w) :: m else (a, v) :: (b, w) :: m)
    else if a = b then (if v = unlistedByte then m else (a, v) :: m)
    else (b, w) :: Memory.write m a v

/-- Write bytes at rising addresses from `a` (10_state.md R37). -/
def Memory.writeList : Memory → Nat → List Byte → Memory
  | m, _, [] => m
  | m, a, v :: vs => Memory.writeList (Memory.write m a v) (a + 1) vs

/-- The canonical form: addresses strictly rising, no entry that equals what an unlisted address reads as. -/
abbrev Memory.wf (m : Memory) : Prop :=
  m.Pairwise (fun x y => x.1 < y.1) ∧ ∀ c ∈ m, c.2 ≠ unlistedByte

/-- `k` free bytes, drawn from number `d` on (93_implementation_defined.md U5). -/
def freeBytes : Nat → Nat → List Byte
  | _, 0 => []
  | d, k + 1 => Config.freeByte d :: freeBytes (d + 1) k

/-! ### The trace, the handles and the control lines -/

/-- Append an event to the trace (00_scope.md R12, 10_state.md R42). -/
def State.emit (e : Event) (s : State) : State := { s with trace := s.trace ++ [e] }

/-- A handle's state (10_state.md R20). -/
def State.handle (s : State) : Handle → HandleState
  | .hA => s.hA
  | .hD => s.hD

/-- Replace a handle's state. -/
def State.setHandle (s : State) (h : Handle) (x : HandleState) : State :=
  match h with
  | .hA => { s with hA := x }
  | .hD => { s with hD := x }

/-- `cslvl[h] <- lvl`. -/
def State.setCslvl (s : State) (h : Handle) (lvl : LineLevel) : State :=
  s.setHandle h { s.handle h with cslvl := lvl }

/-- `vec[i] <- v` for an index within the 22 registers; any other index changes nothing (10_state.md R21, R48). -/
def setReg22 (regs : Vector Byte 22) (i v : Byte) : Vector Byte 22 :=
  if h : i.toNat < 22 then regs.set i.toNat v h else regs

/-- `vec[i]` for an index within the 22 registers, 0x00 for any other (20_memory.md R54). -/
def getReg22 (regs : Vector Byte 22) (i : Byte) : Byte :=
  if h : i.toNat < 22 then regs[i.toNat] else 0#8

/-- `if i < 22: cache[h][i] <- v` (40_register_driver.md R87). -/
def State.setCache (s : State) (h : Handle) (i v : Byte) : State :=
  s.setHandle h { s.handle h with cache := setReg22 (s.handle h).cache i v }

/-- `for i in [0, 22): cache[h][i] <- 0x00` (40_register_driver.md R89, R90). -/
def clearedCache : Vector Byte 22 := Vector.replicate 22 0#8

/-- A driven level as the level last driven. -/
def driven : Level → LineLevel
  | .low => .low
  | .high => .high

/-- `ctrl[line]`. -/
def CtrlLines.get (c : CtrlLines) : Line → LineLevel
  | .RD => c.rd
  | .WR => c.wr
  | .CS => c.cs

/-- `ctrl[line] <- lvl`. -/
def CtrlLines.set (c : CtrlLines) (line : Line) (lvl : LineLevel) : CtrlLines :=
  match line with
  | .RD => { c with rd := lvl }
  | .WR => { c with wr := lvl }
  | .CS => { c with cs := lvl }

/-! ### The ideal environment (20_memory.md R54) -/

/-- `reg[h]`. -/
def IdealEnv.regs (e : IdealEnv) : Handle → Vector Byte 22
  | .hA => e.regsA
  | .hD => e.regsD

/-- `reg[h][r] <- v` when r < 22, otherwise nothing. -/
def IdealEnv.setReg (e : IdealEnv) (h : Handle) (r v : Byte) : IdealEnv :=
  match h with
  | .hA => { e with regsA := setReg22 e.regsA r v }
  | .hD => { e with regsD := setReg22 e.regsD r v }

/-- The address on the bus: `(reg[hA][OLATB] << 8) | reg[hA][OLATA]`. -/
def IdealEnv.busAddr (e : IdealEnv) : Addr :=
  joinAddr (getReg22 e.regsA (regIndex .olat .B)) (getReg22 e.regsA (regIndex .olat .A))

/-- What drives the input pins of port `p` of `h`: the cartridge's byte on the data port while RD is low, else 0. -/
def IdealEnv.external (e : IdealEnv) (dataPort : Port) (rd : LineLevel) (h : Handle) (p : Port) : Byte :=
  if h = .hD ∧ p = dataPort ∧ rd = .low then e.rom.read e.busAddr.toNat else 0#8

/-- A GPIO read: an output pin (IODIR bit 0) reads its latch, an input pin what drives it from outside. -/
def IdealEnv.gpio (e : IdealEnv) (dataPort : Port) (rd : LineLevel) (h : Handle) (p : Port) : Byte :=
  let dir := getReg22 (e.regs h) (regIndex .iodir p)
  (~~~ dir &&& getReg22 (e.regs h) (regIndex .olat p)) ||| (dir &&& e.external dataPort rd h p)

/-- The answer to a read frame of register `r`. -/
def IdealEnv.readReg (e : IdealEnv) (dataPort : Port) (rd : LineLevel) (h : Handle) (r : Byte) : Byte :=
  if r = regIndex .gpio .A then e.gpio dataPort rd h .A
  else if r = regIndex .gpio .B then e.gpio dataPort rd h .B
  else getReg22 (e.regs h) r

/-- The cartridge's record of a write: `reg[hD][OLAT(DATA_PORT)]` to the address on the bus. -/
def IdealEnv.recordWrite (e : IdealEnv) (dataPort : Port) : IdealEnv :=
  { e with writes := e.writes ++ [(e.busAddr, getReg22 e.regsD (regIndex .olat dataPort))] }

/-- A chip takes a write frame: the ideal environment's register changes (R54); of any other environment nothing is
known. -/
def EnvModel.takeFrame (m : EnvModel) (h : Handle) (bytes : List Byte) : EnvModel :=
  match m, bytes with
  | .ideal e, [_, r, v] => .ideal (e.setReg h r v)
  | m, _ => m

/-- `ctrl[line] <- lvl`; when WR goes from high to low the ideal cartridge records a write (20_memory.md R54, log 7). The
ideal environment takes the levels of RD and WR from `ctrl`, wherever CTRL_MAP places the lines (log 25). -/
def State.setCtrl (line : Line) (lvl : LineLevel) (s : State) : State :=
  let s' := { s with ctrl := s.ctrl.set line lvl }
  match s.env.model with
  | .free => s'
  | .ideal e =>
    if s.ctrl.wr = .high ∧ s'.ctrl.wr = .low then
      { s' with env := { s.env with model := .ideal (e.recordWrite s.params.dataPort) } }
    else s'

/-! ### The transport -/

/-- The reply fixed for the next transport call, if any; without one the environment answers. -/
def nextReply (e : Env) : Reply := e.script.headD .byEnv

/-- The environment's answer to `Tx(h, bytes)` (20_memory.md R52, R54). -/
def txAnswer (h : Handle) (bytes : List Byte) (s : State) : Bool :=
  match nextReply s.env with
  | .fail => false
  | .ok _ => true
  | .byEnv =>
    match s.env.model with
    | .free => Config.oracleTx s.draws s.trace h bytes
    | .ideal _ => true

/-- Whether the chip takes the frame of a `Tx` that is answered `ok`: after a failure it may or may not have
(20_memory.md R53; log 8). -/
def chipTakes (ok : Bool) (s : State) : Bool := ok || Config.freeBool s.draws

/-- The environment after a transport call whose frame the chip took, or did not. -/
def Env.after (e : Env) (h : Handle) (bytes : List Byte) (took : Bool) : Env where
  script := e.script.tail
  model := if took then e.model.takeFrame h bytes else e.model

/-- `Tx(h, bytes) -> ok`, with its event (00_scope.md R12). -/
def State.transmit (h : Handle) (bytes : List Byte) (s : State) : State :=
  let ok := txAnswer h bytes s
  { s with
    env := s.env.after h bytes (chipTakes ok s)
    draws := s.draws + 1
    trace := s.trace ++ [.tx h bytes ok] }

/-- The environment's answer to `TxRx(h, bytes, 1)`, `none` for `Fail` (20_memory.md R52, R54). -/
def rxAnswer (h : Handle) (bytes : List Byte) (s : State) : Option Byte :=
  match nextReply s.env with
  | .fail => none
  | .ok b => some b
  | .byEnv =>
    match s.env.model with
    | .free => Config.oracleTxRx s.draws s.trace h bytes
    | .ideal e =>
      match bytes with
      | [_, r] => some (e.readReg s.params.dataPort s.ctrl.rd h r)
      | _ => none

/-- `TxRx(h, bytes, 1) -> Ok([b]) | Fail`, with its event (00_scope.md R12). -/
def State.transmitReceive (h : Handle) (bytes : List Byte) (s : State) : State :=
  { s with
    env := s.env.after h bytes false
    draws := s.draws + 1
    trace := s.trace ++ [.txRx h bytes 1 ((rxAnswer h bytes s).map fun b => [b])] }

/-- The opening of a transaction: acquire the transport, select the chip (40_register_driver.md R85). -/
def State.select (h : Handle) (s : State) : State :=
  ((s.emit .acquire).emit (.csDrive h .low)).setCslvl h .low

/-- The close of a transaction: deselect the chip, release the transport, also after a failure
(40_register_driver.md R85, R86). -/
def State.deselect (h : Handle) (s : State) : State :=
  ((s.emit (.csDrive h .high)).setCslvl h .high).emit .release

/-! ### Operations that may fail -/

/-- A step of an operation: it goes on with a value, or fails with a cause; a failure keeps the state it was reached in
(60_exceptions.md R122, R124). -/
abbrev Op := EStateM Cause State

/-- `raise Fail(cause)` (60_exceptions.md R122): the only failure entry. Nothing is saved and nothing is undone. -/
def raise {α : Type} (c : Cause) : Op α := fun s => .error c s

/-- Change the state. -/
def update (f : State → State) : Op Unit := fun s => .ok () (f s)

/-- The session's parameters. -/
def getParams : Op Params := fun s => .ok s.params s

/-- Whether an operation succeeds, every failure turned into false (60_exceptions.md R123, IS_CONNECTED). -/
def completes {α : Type} (op : Op α) : Op Bool := fun s =>
  match op s with
  | .ok _ s' => .ok true s'
  | .error _ s' => .ok false s'

/-- `Transact(h, tx, 0)` for a format-W frame (40_register_driver.md R85); a failed transmit raises `TxFail`
(60_exceptions.md R121). -/
def transactW (h : Handle) (bytes : List Byte) : Op Unit := fun s =>
  let s₁ := s.select h
  let s₂ := (s₁.transmit h bytes).deselect h
  if txAnswer h bytes s₁ then .ok () s₂ else .error .txFail s₂

/-- `Transact(h, tx, 1)` for a format-R frame (40_register_driver.md R85); a failed call raises `TxRxFail`
(60_exceptions.md R121). -/
def transactR (h : Handle) (bytes : List Byte) : Op Byte := fun s =>
  let s₁ := s.select h
  let s₂ := (s₁.transmitReceive h bytes).deselect h
  match rxAnswer h bytes s₁ with
  | some b => .ok b s₂
  | none => .error .txRxFail s₂

/-- The end of a caller operation: its result, and nothing in progress any more (60_exceptions.md R122, R123). -/
def finish : EStateM.Result Cause State OpResult → State
  | .ok r s => { s with result := some r, busy := false }
  | .error c s => { s with result := some (.fail c), busy := false }

/-- A caller operation as one step (00_scope.md R7): refused where R128 says so (60_exceptions.md R127: refusals come
first), else run to its end. -/
def call (refusal : Option Refusal) (body : Op OpResult) (s : State) : Host.Outcome State Fault Refusal :=
  if s.busy then .refused .overlappingCall
  else
    match refusal with
    | some r => .refused r
    | none => .next (finish (body { s with busy := true }))

end Sys2Proof.Machine
end

