-- ==== Sys2Proof/Machine/Driver.lean ====
section
/-!
DEFINITION. The expander register driver: the two frames as transactions (30_encoding.md R74, 40_register_driver.md
R85), WRITE_REG (R87), READ_REG (R88), INIT (R89) and DESTROY (R90).
-/

namespace Sys2Proof.Machine

/-- `WRITE_REG(h, i, v)` (40_register_driver.md R87). -/
def writeRegister (h : Handle) (i v : Byte) : Op Unit := fun s =>
  if (s.handle h).init then
    (do transactW h (frameW (s.handle h).chipAddr i v)
        update fun t => t.setCache h i v : Op Unit) s
  else raise .notInitialized s

/-- `READ_REG(h, i, out)` with `out` present, as the higher layers call it (40_register_driver.md R88). -/
def readRegister (h : Handle) (i : Byte) : Op Byte := fun s =>
  if (s.handle h).init then transactR h (frameR (s.handle h).chipAddr i) s
  else raise .notInitialized s

/-- `for (r, v) in ws: if Transact(h, [opW(a), r, v], 0) == Fail: raise Fail(TxFail)` (40_register_driver.md R89). -/
def sendWrites (h : Handle) (a : ChipAddr) : List (Byte × Byte) → Op Unit
  | [] => pure ()
  | (r, v) :: ws => do
    transactW h (frameW a r v)
    sendWrites h a ws

/-- The fields of a handle that INIT sets from its arguments, and its chip-select line's new configuration, an output
held high (40_register_driver.md R89). -/
def adoptArguments (h : Handle) (a : ChipAddr) (s : State) : State :=
  (s.setHandle h
    { s.handle h with
      chipAddr := a
      transport := .present
      cs := some (csLineOf s.params h)
      cscfg := .outputHigh
      cslvl := .high }).emit (.csConfig h .outputHigh)

/-- The handle is initialized: the cache all 0x00 and `init[h]` true (40_register_driver.md R89). -/
def markInitialized (h : Handle) (s : State) : State :=
  s.setHandle h { s.handle h with cache := clearedCache, init := true }

/-- `INIT(h, a, tp, cs)` behind its refusals; `expected` is `written(VERIFY_REG)` (40_register_driver.md R89). -/
def initHandle (h : Handle) (a : ChipAddr) (tp cs : Presence) (expected : Byte) : Op Unit :=
  if tp = .absent ∨ cs = .absent then raise .argAbsent
  else do
    update (adoptArguments h a)
    let p ← getParams
    sendWrites h a (initWrites p)
    let b ← transactR h (frameR a p.verifyReg)
    if b = expected then update (markInitialized h) else raise .verifyMismatch

/-- `DESTROY(h)` (40_register_driver.md R90). -/
def destroyHandle (h : Handle) (s : State) : State :=
  let s₁ := if (s.handle h).cs.isSome then s.emit (.csConfig h .released) else s
  s₁.setHandle h { s₁.handle h with cscfg := .released, cslvl := .unknown, cache := clearedCache, init := false }

/-- What INIT refuses (60_exceptions.md R128). -/
def initRefusal (h : Handle) (chip : Byte) (s : State) : Option Refusal :=
  if ¬ chipInRange chip then some .chipAbove7
  else if (s.handle h).init then some .alreadyInitialized
  else if (lastWritten (initWrites s.params) s.params.verifyReg).isNone then some .verifyRegNotWritten
  else none

/-- WR_FRAME: one format-W transaction on the line of `h` (R74, R85; log 4). DESIGN CHOICE: the frame carries its own A
field, also where it differs from `chip_addr[h]`, which R74 and R78 name as A (log 4). -/
def execWrFrame (h : Handle) (a : ChipAddr) (r v : Byte) (s : State) : Host.Outcome State Fault Refusal :=
  call none (do
    transactW h (frameW a r v)
    pure .ok) s

/-- RD_FRAME: one format-R transaction on the line of `h` (R74, R85; log 4). DESIGN CHOICE: the frame carries its own A
field, also where it differs from `chip_addr[h]`, which R74 and R78 name as A (log 4). -/
def execRdFrame (h : Handle) (a : ChipAddr) (r : Byte) (s : State) : Host.Outcome State Fault Refusal :=
  call none (do
    let b ← transactR h (frameR a r)
    pure (.okByte b)) s

/-- INIT (40_register_driver.md R89). -/
def execInit (h : Handle) (chip : Byte) (tp cs : Presence) (s : State) : Host.Outcome State Fault Refusal :=
  call (initRefusal h chip s) (do
    initHandle h (chip.setWidth 3) tp cs ((lastWritten (initWrites s.params) s.params.verifyReg).getD 0#8)
    pure .ok) s

/-- DESTROY (40_register_driver.md R90). -/
def execDestroy (h : Handle) (s : State) : Host.Outcome State Fault Refusal :=
  call none (do
    update (destroyHandle h)
    pure .noResult) s

/-- WRITE_REG (40_register_driver.md R87). -/
def execWriteReg (h : Handle) (i v : Byte) (s : State) : Host.Outcome State Fault Refusal :=
  call none (do
    writeRegister h i v
    pure .ok) s

/-- READ_REG: argument presence first, then the read into the caller's cell (40_register_driver.md R88). -/
def execReadReg (h : Handle) (i : Byte) (out : Presence) (s : State) : Host.Outcome State Fault Refusal :=
  call none (if out = .absent then raise .argAbsent else do
    let b ← readRegister h i
    update fun t => { t with out := b }
    pure (.okByte b)) s

end Sys2Proof.Machine
end

