-- ==== Sys2Proof/Machine/PortPin.lean ====
section
/-!
DEFINITION. The expander port/pin layer: the soft verification (41_port_pin.md R92), SET_PORT_MODE (R93), WRITE_PIN
(R94), WRITE_PORT (R95), READ_PIN (R96), READ_PORT (R97) and IS_CONNECTED (R98).
-/

namespace Sys2Proof.Machine

/-- What a scope sees of a port's byte: the pin's bit, or the byte (41_port_pin.md R92). -/
def observe (scope : Scope) (g : Byte) : Byte :=
  match scope with
  | .pin n => bitByte (pinBit g n)
  | .port => g

/-- `Diag(Mismatch(..))` when the observation differs from what was intended (41_port_pin.md R92). -/
def logMismatch (h : Handle) (p : Port) (scope : Scope) (expected observed : Byte) (s : State) : State :=
  if observed = expected then s else s.emit (.diag (.mismatch h p scope expected observed))

/-- `SoftVerify(h, p, scope, expected)` (41_port_pin.md R92): a mismatch is logged, a failed read follows
VERIFY_READ_FAIL. -/
def softVerify (h : Handle) (p : Port) (scope : Scope) (expected : Byte) : Op Unit := fun s =>
  match readRegister h (regIndex .gpio p) s with
  | .ok g s' => .ok () (logMismatch h p scope expected (observe scope g) s')
  | .error c s' =>
    match s'.params.verifyReadFail with
    | .fail => .error c s'
    | .soft => .ok () s'

/-- `SET_PORT_MODE(h, p, m)` (41_port_pin.md R93). -/
def setMode (h : Handle) (p : Port) (m : PortMode) : Op Unit := do
  writeRegister h (regIndex .iodir p) (modeDirection m)
  writeRegister h (regIndex .gppu p) (modePullup m)

/-- `WRITE_PIN(h, n, p, b)`: read-modify-write of the chip's latch, then the soft verification (41_port_pin.md R94). -/
def pinWrite (h : Handle) (n : Pin) (p : Port) (b : Bool) : Op Unit := do
  let cur ← readRegister h (regIndex .olat p)
  writeRegister h (regIndex .olat p) (withPin cur n b)
  softVerify h p (.pin n) (bitByte b)

/-- `WRITE_PORT(h, p, v)` (41_port_pin.md R95). -/
def portWrite (h : Handle) (p : Port) (v : Byte) : Op Unit := do
  writeRegister h (regIndex .olat p) v
  softVerify h p .port v

/-- `READ_PORT(h, p)`: the live GPIO-state register (41_port_pin.md R97). -/
def portRead (h : Handle) (p : Port) : Op Byte := readRegister h (regIndex .gpio p)

/-- What a pin argument refuses (41_port_pin.md R91, 60_exceptions.md R128). -/
def pinRefusal (pin : Byte) : Option Refusal := if pinInRange pin then none else some .pinAbove7

/-- What a pin value refuses (60_exceptions.md R128). -/
def pinValueRefusal (value : Byte) : Option Refusal := if pinValueInRange value then none else some .pinValueNotBit

/-- SET_PORT_MODE (41_port_pin.md R93). -/
def execSetPortMode (h : Handle) (p : Port) (m : PortMode) (s : State) : Host.Outcome State Fault Refusal :=
  call none (do
    setMode h p m
    pure .ok) s

/-- WRITE_PIN (41_port_pin.md R94). -/
def execWritePin (h : Handle) (pin : Byte) (p : Port) (value : Byte) (s : State) : Host.Outcome State Fault Refusal :=
  call ((pinRefusal pin).or (pinValueRefusal value)) (do
    pinWrite h (pin.setWidth 3) p (value == 1#8)
    pure .ok) s

/-- WRITE_PORT (41_port_pin.md R95). -/
def execWritePort (h : Handle) (p : Port) (v : Byte) (s : State) : Host.Outcome State Fault Refusal :=
  call none (do
    portWrite h p v
    pure .ok) s

/-- READ_PIN: `Ok((g >> n) & 1)` (41_port_pin.md R96). -/
def execReadPin (h : Handle) (pin : Byte) (p : Port) (s : State) : Host.Outcome State Fault Refusal :=
  call (pinRefusal pin) (do
    let g ← portRead h p
    pure (.okBit (pinBit g (pin.setWidth 3)))) s

/-- READ_PORT (41_port_pin.md R97). -/
def execReadPort (h : Handle) (p : Port) (s : State) : Host.Outcome State Fault Refusal :=
  call none (do
    let g ← portRead h p
    pure (.okByte g)) s

/-- IS_CONNECTED: whether the read of PROBE_REG completes, whatever byte it carries (41_port_pin.md R98). -/
def execIsConnected (h : Handle) (s : State) : Host.Outcome State Fault Refusal :=
  call none (do
    let p ← getParams
    let ok ← completes (readRegister h p.probeReg)
    pure (.answer ok)) s

end Sys2Proof.Machine
end

