-- ==== Sys2Proof/Machine/Bus.lean ====
section
/-!
DEFINITION. The cartridge bus controller: CtrlSet (42_bus_controller.md R100), the address-set phase (R101), READ_BYTE
(R103), WRITE_BYTE (R104) and READ_BYTES (R105, R106).
-/

namespace Sys2Proof.Machine

/-- `ctrl[line] <- lvl` after a WRITE_PIN on the line's pin, or `Unknown` and the failure (42_bus_controller.md R100,
the `ExpPin` branch). DESIGN CHOICE: `ctrl[line]` keeps this level when a later write that is not CtrlSet's own overwrites the
pin, although 10_state.md R33 calls it the level the block last drove and 70_reset_and_hazards.md R146 has a port write
drive the line (log 25). -/
def ctrlByPin (line : Line) (lvl : Level) (h : Handle) (p : Port) (n : Pin) : Op Unit := fun s =>
  match pinWrite h n p (lvl == .high) s with
  | .ok _ s' => .ok () (s'.setCtrl line (driven lvl))
  | .error c s' => .error c (s'.setCtrl line .unknown)

/-- `CtrlSet(line, lvl)` (42_bus_controller.md R100). -/
def ctrlSet (line : Line) (lvl : Level) : Op Unit := do
  update (State.emit (.ctrl line lvl))
  let p ← getParams
  match routeOf p.ctrlMap line with
  | .direct => update (State.setCtrl line (driven lvl))
  | .expPin h port n => ctrlByPin line lvl h port n

/-- `phase <- q` (10_state.md R36). -/
def setPhase (q : Phase) : Op Unit := update fun s => { s with phase := q }

/-- `Delay(p)` (00_scope.md R12, 42_bus_controller.md R102). -/
def delay (p : Nat) : Op Unit := update (State.emit (.delay p))

/-- `AddressSet(a)` (42_bus_controller.md R101): the address bytes, then RD high, WR low, CS low. -/
def addressSet (a : Addr) : Op Unit := do
  setPhase .addressSet
  portWrite .hA .A (addrLow a)
  portWrite .hA .B (addrHigh a)
  ctrlSet .RD .high
  ctrlSet .WR .low
  ctrlSet .CS .low

/-- A byte transfer: `phase` is `Idle` when it ends, also after a failure (10_state.md R36, 92_eei_decisions.md D34). -/
def transfer {α : Type} (body : Op α) : Op α := fun s =>
  match body s with
  | .ok x s' => .ok x { s' with phase := .idle }
  | .error c s' => .error c { s' with phase := .idle }

/-- `READ_BYTE(a)` (42_bus_controller.md R103). -/
def byteRead (a : Addr) : Op Byte := transfer do
  addressSet a
  let p ← getParams
  delay p.tAS
  setPhase .readActive
  ctrlSet .RD .low
  delay p.tSS
  let d ← portRead .hD p.dataPort
  ctrlSet .RD .high
  pure d

/-- `WRITE_BYTE(a, v)` (42_bus_controller.md R104). -/
def byteWrite (a : Addr) (v : Byte) : Op Unit := transfer do
  addressSet a
  setPhase .writeActive
  let p ← getParams
  portWrite .hD p.dataPort v
  portWrite .hD (otherPort p.dataPort) 0x00#8
  ctrlSet .WR .high
  ctrlSet .WR .low

/-- What a run of byte reads leaves: the bytes read, in order; the cause of the first failure, if one failed; the
state. -/
structure ReadRun where
  got : List Byte
  failed : Option Cause
  state : State

/-- Byte reads at `a`, `a + 1`, ... modulo 2^16, at most `n`, ended by the first failure (42_bus_controller.md R105,
R106). -/
def readRun : Addr → Nat → State → ReadRun
  | _, 0, s => ⟨[], none, s⟩
  | a, n + 1, s =>
    match byteRead a s with
    | .ok d s' =>
      let rest := readRun (a + 1#16) n s'
      { rest with got := d :: rest.got }
    | .error c s' => ⟨[], some c, s'⟩

/-- The buffer of a READ_BYTES of `n` bytes after a run: the bytes read stay, and from the failing byte on the buffer
holds free values, drawn from number `d` on (42_bus_controller.md R105; log 13). -/
def bufferAfter (m : Memory) (n : Nat) (got : List Byte) (d : Nat) : Memory :=
  (m.writeList 0 got).writeList got.length (freeBytes d (n - got.length))

/-- `READ_BYTES(s, n, buf)` with `buf` present (42_bus_controller.md R105). -/
def bytesRead (start : Addr) (n : Nat) : Op Unit := fun s =>
  let r := readRun start n s
  let t := { r.state with
    buf := bufferAfter r.state.buf n r.got r.state.draws
    draws := r.state.draws + (n - r.got.length) }
  match r.failed with
  | none => .ok () t
  | some c => .error c t

/-- READ_BYTE (42_bus_controller.md R103). -/
def execReadByte (a : Addr) (s : State) : Host.Outcome State Fault Refusal :=
  call none (do
    let d ← byteRead a
    pure (.okByte d)) s

/-- WRITE_BYTE (42_bus_controller.md R104). -/
def execWriteByte (a : Addr) (v : Byte) (s : State) : Host.Outcome State Fault Refusal :=
  call none (do
    byteWrite a v
    pure .ok) s

/-- What a length refuses (42_bus_controller.md R105, 60_exceptions.md R128). -/
def lengthRefusal (p : Params) (n : Nat) : Option Refusal := if n < 2 ^ p.lenWidth then none else some .lengthTooWide

/-- READ_BYTES (42_bus_controller.md R105). -/
def execReadBytes (start : Addr) (len : Nat) (buf : Presence) (s : State) : Host.Outcome State Fault Refusal :=
  call (lengthRefusal s.params len) (if buf = .absent then raise .argAbsent else do
    bytesRead start len
    pure .ok) s

end Sys2Proof.Machine
end

