-- ==== Sys2Proof/Machine/Header.lean ====
section
/-!
DEFINITION. The header parser: the field functions of 43_header_parser.md R110 to R118 over the header buffer, and
READ_INFO (R109).
-/

namespace Sys2Proof.Machine

/-- `H[o]`: the byte of the header buffer at offset `o` (10_state.md R38). -/
def headerByte (H : List Byte) (o : Nat) : Byte := H.getD o 0#8

/-- The number of bytes READ_INFO reads (00_scope.md R8 HEADER_BLOCK). -/
def headerBlock : Nat := 0x180

/-- A byte of a title that is copied verbatim: digits, letters, the seven symbols, `-`, `.`, `_` and space
(43_header_parser.md R110, 90_conflicts.md C2). -/
def copyClass (b : Byte) : Bool :=
  (0x30#8 ≤ b && b ≤ 0x39#8) || (0x41#8 ≤ b && b ≤ 0x5A#8) || (0x61#8 ≤ b && b ≤ 0x7A#8) ||
  (0x23#8 ≤ b && b ≤ 0x29#8) || b == 0x2D#8 || b == 0x2E#8 || b == 0x5F#8 || b == 0x20#8

/-- The character stored for a title byte: itself, `_` for a colon, or `none` where the scan ends
(43_header_parser.md R110). -/
def titleChar (b : Byte) : Option Byte :=
  if copyClass b then some b else if b = 0x3A#8 then some 0x5F#8 else none

/-- The characters up to the first terminating byte (43_header_parser.md R111). -/
def titleScan : List Byte → List Byte
  | [] => []
  | b :: bs =>
    match titleChar b with
    | some c => c :: titleScan bs
    | none => []

/-- The 16 title bytes, offsets 0x134 to 0x143 (00_scope.md R8 TITLE_RANGE). -/
def titleField (H : List Byte) : List Byte := (List.range 16).map fun i => headerByte H (0x134 + i)

/-- `TitleExtract(H)`: the scanned characters in a buffer of `cap` bytes that stays 0x00 behind them
(43_header_parser.md R111; log 15). -/
def titleExtract (cap : Nat) (H : List Byte) : List Byte :=
  let cs := titleScan (titleField H)
  (cs ++ List.replicate (cap - cs.length) 0#8).take cap

/-- `rom_size` of a ROM-size code: `32768 << c` for codes 0 to 16; for a code above 16 the given free value
(43_header_parser.md R116; log 13). -/
def romSize (c : Byte) (free : Word32) : Word32 := if c.toNat ≤ 16 then 32768#32 <<< c.toNat else free

/-- `rom_banks = rom_size / 32768` (43_header_parser.md R116). -/
def romBanks (size : Word32) : Word32 := size / 32768#32

/-- `ram_size` of a RAM-size code (43_header_parser.md R117). -/
def ramSize (c : Byte) : Word32 :=
  if c = 0x01#8 then 2048#32 else if c = 0x02#8 then 8192#32 else if c = 0x03#8 then 32768#32 else 0#32

/-- `ram_banks = ram_size / 8192` (43_header_parser.md R117). -/
def ramBanks (size : Word32) : Word32 := size / 8192#32

/-- `Checksum(H)`: the sum of the 25 bytes at 0x134 to 0x14C, modulo 256 (43_header_parser.md R118). -/
def checksum (H : List Byte) : Byte :=
  BitVec.ofNat 8 (((List.range 25).map fun i => (headerByte H (0x134 + i)).toNat).sum)

/-- `TYPE_NAME`: total, 0x13 named by the source, every other entry open (43_header_parser.md R114; log 21). -/
def typeName (t : Byte) : String := if t = 0x13#8 then "MBC3+RAM+BATTERY" else Config.typeNameOther t

/-- The record parsed from a header; the reserved fields and an overflowing ROM size are free values, drawn from number
`d` on (43_header_parser.md R109, R120; log 13). -/
def parseHeader (cap : Nat) (H : List Byte) (d : Nat) : CartInfo where
  title := titleExtract cap H
  checksum := checksum H
  isSuper := isSuperByte (headerByte H 0x146)
  isColor := Config.freeBool (d + 1)
  serial := #v[Config.freeByte (d + 2), Config.freeByte (d + 3), Config.freeByte (d + 4)]
  ramBanks := ramBanks (ramSize (headerByte H 0x149))
  romBanks := romBanks (romSize (headerByte H 0x148) (Config.freeWord32 d))
  cartType := headerByte H 0x147
  hasBattery := hasBattery (headerByte H 0x147)
  romSize := romSize (headerByte H 0x148) (Config.freeWord32 d)
  ramSize := ramSize (headerByte H 0x149)

/-- How many free values a parsed record takes. -/
def parseDraws : Nat := 5

/-- `READ_INFO(info)` with `info` present: the bulk read into the local header buffer, then the parsing, or the
diagnostic and the failure (43_header_parser.md R109, R119). -/
def infoRead : Op Unit := fun s =>
  let r := readRun 0x0000#16 headerBlock s
  match r.failed with
  | some c => raise c (r.state.emit (.diag (.headerReadFailed c)))
  | none => .ok () { r.state with
      info := parseHeader r.state.params.titleCap r.got r.state.draws
      draws := r.state.draws + parseDraws }

/-- READ_INFO (43_header_parser.md R109). DESIGN CHOICE: it runs whatever `lenWidth` is, also below 9, where its own
length 0x180 does not fit the length of a READ_BYTES (42_bus_controller.md R105, 60_exceptions.md R128) and the spec does
not say whether it is then refused (log 24). -/
def execReadInfo (info : Presence) (s : State) : Host.Outcome State Fault Refusal :=
  call none (if info = .absent then raise .argAbsent else do
    infoRead
    pure .ok) s

end Sys2Proof.Machine
end

