-- ==== Sys2Proof/Machine/Dispatch.lean ====
section
/-! DEFINITION. exec: one arm per instruction, each a direct call of the instruction's meaning. -/

namespace Sys2Proof.Machine

def exec (i : Instr) (s : State) : Host.Outcome State Fault Refusal :=
  match i with
  | .wrFrame h a r v => Sys2Proof.Machine.execWrFrame h a r v s
  | .rdFrame h a r => Sys2Proof.Machine.execRdFrame h a r s
  | .init h chip tp cs => Sys2Proof.Machine.execInit h chip tp cs s
  | .destroy h => Sys2Proof.Machine.execDestroy h s
  | .writeReg h i' v => Sys2Proof.Machine.execWriteReg h i' v s
  | .readReg h i' out => Sys2Proof.Machine.execReadReg h i' out s
  | .setPortMode h p m => Sys2Proof.Machine.execSetPortMode h p m s
  | .writePin h pin p value => Sys2Proof.Machine.execWritePin h pin p value s
  | .writePort h p v => Sys2Proof.Machine.execWritePort h p v s
  | .readPin h pin p => Sys2Proof.Machine.execReadPin h pin p s
  | .readPort h p => Sys2Proof.Machine.execReadPort h p s
  | .isConnected h => Sys2Proof.Machine.execIsConnected h s
  | .readByte a => Sys2Proof.Machine.execReadByte a s
  | .writeByte a v => Sys2Proof.Machine.execWriteByte a v s
  | .readBytes start len buf => Sys2Proof.Machine.execReadBytes start len buf s
  | .readInfo info => Sys2Proof.Machine.execReadInfo info s

end Sys2Proof.Machine
end

