-- ==== Sys2Proof/Machine/Step.lean ====
section
/-!
DEFINITION. One step: the oldest pending request is decoded and run to its end (00_scope.md R7, 10_state.md
R18; log 1, log 2).
-/

namespace Sys2Proof.Machine

/-- One step. Without a pending operation the block waits (log 2); otherwise the operation is taken from the queue and
run. Bytes behind the operation's own are no part of it (log 1). -/
def step (s : State) : Host.Outcome State Fault Refusal :=
  match s.calls with
  | [] => .next s
  | c :: rest =>
    match decode c.via c.bytes with
    | .ok (i, _) => exec i { s with calls := rest }
    | .error e => .refused (.undecodable e)

/-- The state with the instruction of an opcode-table word as the next request, on the interface of its row; this stands
for issuing it (log 1). -/
def State.withFetchWord (s : State) (nbits w : Nat) : State :=
  { s with calls := tableCall nbits w :: s.calls }

end Sys2Proof.Machine
end

