-- ==== Sys2Proof/Safety.lean ====
section
/-!
DEFINITION. What counts as a safe run, in the terms the statements use: the event lists of transactions
(40_register_driver.md R85), the expansions of the bus operations (30_encoding.md R82), the transaction discipline of a
trace (R86, 20_memory.md R61, R68), the form of frames (30_encoding.md R77, R83), and what an operation leaves alone.
-/

namespace Sys2Proof

open Sys2Proof.Machine

/-! ### Events of the rules' expansions (30_encoding.md R82) -/

/-- One format-W transaction (40_register_driver.md R85). -/
def wEvents (h : Handle) (bytes : List Byte) (ok : Bool) : List Event :=
  [.acquire, .csDrive h .low, .tx h bytes ok, .csDrive h .high, .release]

/-- One format-R transaction; the answer is `none` for `Fail` (40_register_driver.md R85). -/
def rEvents (h : Handle) (bytes : List Byte) (answer : Option Byte) : List Event :=
  [.acquire, .csDrive h .low, .txRx h bytes 1 (answer.map fun b => [b]), .csDrive h .high, .release]

/-- A soft verification: the GPIO read and, where the observation differs, the diagnostic (41_port_pin.md R92). -/
def verifyEvents (h : Handle) (chip : ChipAddr) (p : Port) (scope : Scope) (expected : Byte)
    (answer : Option Byte) : List Event :=
  rEvents h (frameR chip (regIndex .gpio p)) answer ++
    match answer with
    | some g => if observe scope g = expected then [] else [.diag (.mismatch h p scope expected (observe scope g))]
    | none => []

/-- A port write whose latch write succeeded (41_port_pin.md R95). -/
def portWriteEvents (h : Handle) (chip : ChipAddr) (p : Port) (v : Byte) (answer : Option Byte) : List Event :=
  wEvents h (frameW chip (regIndex .olat p) v) true ++ verifyEvents h chip p .port v answer

/-- The address-set phase with every line `Direct` (42_bus_controller.md R101); `g` and `g'` are the answers to the two
verification reads. -/
def addressSetEvents (chip : ChipAddr) (a : Addr) (g g' : Option Byte) : List Event :=
  portWriteEvents .hA chip .A (addrLow a) g ++ portWriteEvents .hA chip .B (addrHigh a) g' ++
    [.ctrl .RD .high, .ctrl .WR .low, .ctrl .CS .low]

/-- A pin write whose latch read answered `cur` and whose latch write succeeded (41_port_pin.md R94). -/
def pinWriteEvents (h : Handle) (chip : ChipAddr) (p : Port) (n : Pin) (b : Bool) (cur : Byte)
    (answer : Option Byte) : List Event :=
  rEvents h (frameR chip (regIndex .olat p)) (some cur) ++
    wEvents h (frameW chip (regIndex .olat p) (withPin cur n b)) true ++
    verifyEvents h chip p (.pin n) (bitByte b) answer

/-! ### Expansions of the bus operations, wherever CTRL_MAP places the lines (30_encoding.md R82) -/

/-- One row entry of an expansion; a port read carries the byte it received. -/
inductive Piece where
  | portWrite (h : Handle) (p : Port) (v : Byte)
  | portRead (h : Handle) (p : Port) (d : Byte)
  | ctrlSet (line : Line) (lvl : Level)
  | delay (p : Nat)
  deriving DecidableEq, Repr

/-- The events of a pin write that succeeds (41_port_pin.md R94). -/
def PinWriteDone (s : State) (h : Handle) (p : Port) (n : Pin) (b : Bool) (evs : List Event) : Prop :=
  (s.handle h).init = true ∧ ∃ cur g, (g = none → s.params.verifyReadFail = .soft) ∧
    evs = pinWriteEvents h (s.handle h).chipAddr p n b cur g

/-- The cause and the events of a pin write that fails: on an uninitialized handle, at the latch read, at the latch
write, or at the verification read where VERIFY_READ_FAIL is `Fail` (41_port_pin.md R94). -/
def PinWriteCut (s : State) (h : Handle) (p : Port) (n : Pin) (b : Bool) (c : Cause) (evs : List Event) : Prop :=
  let chip := (s.handle h).chipAddr
  ((s.handle h).init = false ∧ c = .notInitialized ∧ evs = []) ∨
  ((s.handle h).init = true ∧
    ((c = .txRxFail ∧ evs = rEvents h (frameR chip (regIndex .olat p)) none) ∨
     (∃ cur, c = .txFail ∧ evs = rEvents h (frameR chip (regIndex .olat p)) (some cur) ++
        wEvents h (frameW chip (regIndex .olat p) (withPin cur n b)) false) ∨
     (∃ cur, c = .txRxFail ∧ s.params.verifyReadFail = .fail ∧ evs = pinWriteEvents h chip p n b cur none)))

/-- The events of a piece that succeeds; a line on an expander pin is a pin write behind its event (R95, R97, R100,
R102). -/
def Piece.Done (s : State) : Piece → List Event → Prop
  | .portWrite h p v, evs => (s.handle h).init = true ∧ ∃ g, (g = none → s.params.verifyReadFail = .soft) ∧
      evs = portWriteEvents h (s.handle h).chipAddr p v g
  | .portRead h p d, evs => (s.handle h).init = true ∧
      evs = rEvents h (frameR (s.handle h).chipAddr (regIndex .gpio p)) (some d)
  | .ctrlSet line lvl, evs =>
    match routeOf s.params.ctrlMap line with
    | .direct => evs = [.ctrl line lvl]
    | .expPin h p n => ∃ rest, evs = .ctrl line lvl :: rest ∧ PinWriteDone s h p n (lvl == .high) rest
  | .delay k, evs => evs = [.delay k]

/-- The cause and the events of a piece that fails. A line that is `Direct` and a delay cannot (R100, R102). -/
def Piece.Cut (s : State) : Piece → Cause → List Event → Prop
  | .portWrite h p v, c, evs =>
    ((s.handle h).init = false ∧ c = .notInitialized ∧ evs = []) ∨
    ((s.handle h).init = true ∧
      ((c = .txFail ∧ evs = wEvents h (frameW (s.handle h).chipAddr (regIndex .olat p) v) false) ∨
       (c = .txRxFail ∧ s.params.verifyReadFail = .fail ∧
          evs = portWriteEvents h (s.handle h).chipAddr p v none)))
  | .portRead h p _, c, evs =>
    ((s.handle h).init = false ∧ c = .notInitialized ∧ evs = []) ∨
    ((s.handle h).init = true ∧ c = .txRxFail ∧
      evs = rEvents h (frameR (s.handle h).chipAddr (regIndex .gpio p)) none)
  | .ctrlSet line lvl, c, evs =>
    match routeOf s.params.ctrlMap line with
    | .direct => False
    | .expPin h p n => ∃ rest, evs = .ctrl line lvl :: rest ∧ PinWriteCut s h p n (lvl == .high) c rest
  | .delay _, _, _ => False

/-- The control lines a piece that succeeds leaves (42_bus_controller.md R100). -/
def Piece.linesDone : Piece → CtrlLines → CtrlLines
  | .ctrlSet line lvl, c => c.set line (driven lvl)
  | .portWrite _ _ _, c | .portRead _ _ _, c | .delay _, c => c

/-- The control lines a piece that fails leaves: its line `Unknown` (42_bus_controller.md R100). -/
def Piece.linesCut : Piece → CtrlLines → CtrlLines
  | .ctrlSet line _, c => c.set line .unknown
  | .portWrite _ _ _, c | .portRead _ _ _, c | .delay _, c => c

/-- The control lines pieces leave that all succeed. -/
def linesThrough (ps : List Piece) (c : CtrlLines) : CtrlLines := ps.foldl (fun c p => p.linesDone c) c

/-- The events of pieces that all succeed, in their order. -/
def Expands (s : State) : List Piece → List Event → Prop
  | [], evs => evs = []
  | p :: ps, evs => ∃ x y, evs = x ++ y ∧ p.Done s x ∧ Expands s ps y

/-- Pieces succeed up to one that fails with cause `c`, and none follows it (60_exceptions.md R122, R123); the lines go
from `l` to `l'`. -/
def CutShort (s : State) : List Piece → Cause → List Event → CtrlLines → CtrlLines → Prop
  | [], _, _, _, _ => False
  | p :: ps, c, evs, l, l' =>
    (p.Cut s c evs ∧ l' = p.linesCut l) ∨
      ∃ x y, evs = x ++ y ∧ p.Done s x ∧ CutShort s ps c y (p.linesDone l) l'

/-- The address set (42_bus_controller.md R101). -/
def addressPieces (a : Addr) : List Piece :=
  [.portWrite .hA .A (addrLow a), .portWrite .hA .B (addrHigh a), .ctrlSet .RD .high, .ctrlSet .WR .low,
    .ctrlSet .CS .low]

/-- READ_BYTE that samples `d` (42_bus_controller.md R103). -/
def readPieces (p : Params) (a : Addr) (d : Byte) : List Piece :=
  addressPieces a ++
    [.delay p.tAS, .ctrlSet .RD .low, .delay p.tSS, .portRead .hD p.dataPort d, .ctrlSet .RD .high]

/-- WRITE_BYTE (42_bus_controller.md R104). -/
def writePieces (p : Params) (a : Addr) (v : Byte) : List Piece :=
  addressPieces a ++
    [.portWrite .hD p.dataPort v, .portWrite .hD (otherPort p.dataPort) 0x00#8, .ctrlSet .WR .high, .ctrlSet .WR .low]

/-- Byte reads at `a`, `a + 1`, ... modulo 2^16 that sample the bytes `ds` (42_bus_controller.md R105, R106). -/
def runPieces (p : Params) : Addr → List Byte → List Piece
  | _, [] => []
  | a, d :: ds => readPieces p a d ++ runPieces p (a + 1#16) ds

/-! ### The record of a header (43_header_parser.md R109) -/

/-- The record's title, type, flags, sizes, banks and checksum are those of the header bytes `H` (R110 to R118); the
reserved fields and the size of a ROM code above 16 are not named (R116, R120; log 13). -/
def ParsedFrom (titleCap : Nat) (H : List Byte) (info : CartInfo) : Prop :=
  info.title = titleExtract titleCap H ∧
  info.cartType = headerByte H 0x147 ∧
  info.hasBattery = hasBattery (headerByte H 0x147) ∧
  info.isSuper = (headerByte H 0x146 == 0x03#8) ∧
  ((headerByte H 0x148).toNat ≤ 16 → info.romSize = 32768#32 <<< (headerByte H 0x148).toNat) ∧
  info.romBanks = info.romSize / 32768#32 ∧
  info.ramSize = ramSize (headerByte H 0x149) ∧
  info.ramBanks = info.ramSize / 8192#32 ∧
  info.checksum = checksum H

/-! ### The transaction discipline -/

/-- Where a trace stands in a transaction. -/
inductive BusState where
  | free
  | held
  | selected (h : Handle)
  | sent (h : Handle)
  | deselected
  deriving DecidableEq, Repr

/-- What may follow: acquire, select one chip, one transport call to it, deselect it, release; every other event only
while the transport is free (20_memory.md R68, 40_register_driver.md R85). -/
def busStep : BusState → Event → Option BusState
  | .free, .acquire => some .held
  | .free, .csConfig _ _ => some .free
  | .free, .ctrl _ _ => some .free
  | .free, .delay _ => some .free
  | .free, .diag _ => some .free
  | .held, .csDrive h .low => some (.selected h)
  | .selected h, .tx h' _ _ => if h = h' then some (.sent h) else none
  | .selected h, .txRx h' _ _ _ => if h = h' then some (.sent h) else none
  | .sent h, .csDrive h' .high => if h = h' then some .deselected else none
  | .deselected, .release => some .free
  | _, _ => none

/-- The discipline over a list of events. -/
def busRun : BusState → List Event → Option BusState
  | b, [] => some b
  | b, e :: es => (busStep b e).bind fun b' => busRun b' es

/-- The trace is a sequence of whole transactions with the other events between them. -/
abbrev Disciplined (trace : List Event) : Prop := busRun .free trace = some .free

/-! ### Predicates on single events -/

/-- A transmitted frame has one of the two forms, and the RW bit of its first byte tells its length and what is
received (30_encoding.md R74, R77, R83). -/
def frameFormed : Event → Bool
  | .tx _ [b, _, _] _ => isFrameByte b && !frameIsRead b
  | .tx _ _ _ => false
  | .txRx _ [b, _] m answer => isFrameByte b && frameIsRead b && m == 1 && (answer.map List.length).getD 1 == 1
  | .txRx _ _ _ _ => false
  | _ => true

/-- The cartridge chip-select line is not driven to its active level (10_state.md R34). -/
def csInactive : Event → Bool
  | .ctrl .CS .high => false
  | _ => true

/-- A call of the transport. -/
def isTransport : Event → Bool
  | .tx _ _ _ => true
  | .txRx _ _ _ _ => true
  | _ => false

/-- A call of the transport that failed. -/
def isFailedTransport : Event → Bool
  | .tx _ _ ok => !ok
  | .txRx _ _ _ answer => answer.isNone
  | _ => false

/-- A control-line event. -/
def isCtrl : Event → Bool
  | .ctrl _ _ => true
  | _ => false

/-- A write frame that names a direction or a pull-up register. -/
def writesDirectionOrPullup : Event → Bool
  | .tx _ [_, r, _] _ =>
    r == regIndex .iodir .A || r == regIndex .iodir .B || r == regIndex .gppu .A || r == regIndex .gppu .B
  | _ => false

/-- The number of transactions in a list of events. -/
def transactions (es : List Event) : Nat := es.countP fun e => e == .acquire

/-- What a successful write frame to `h` does to the shadow cache (10_state.md R21). -/
def replayWrite (h : Handle) (cache : Vector Byte 22) : Event → Vector Byte 22
  | .tx h' [_, r, v] true => if h' = h then setReg22 cache r v else cache
  | _ => cache

/-- The chip-select level of `h` that a trace leaves (00_scope.md R12, 10_state.md R19). -/
def csLevelAfter (h : Handle) (lvl : LineLevel) : Event → LineLevel
  | .csDrive h' l => if h' = h then driven l else lvl
  | .csConfig h' .outputHigh => if h' = h then .high else lvl
  | .csConfig h' .released => if h' = h then .unknown else lvl
  | _ => lvl

/-- The chip-select configuration of `h` that a trace leaves (00_scope.md R12, 10_state.md R19). -/
def csStateAfter (h : Handle) (c : CsState) : Event → CsState
  | .csConfig h' .outputHigh => if h' = h then .outputHigh else c
  | .csConfig h' .released => if h' = h then .released else c
  | _ => c

/-- The byte a data read of the data port of `hD` received (42_bus_controller.md R103). -/
def dataByte (gpio : Byte) : Event → Option Byte
  | .txRx .hD [_, r] _ (some [d]) => if r = gpio then some d else none
  | _ => none

/-! ### What an operation leaves alone -/

/-- The other handle. -/
def otherHandle : Handle → Handle
  | .hA => .hD
  | .hD => .hA

/-- The session's parameters and the caller's queue are as before, and no operation is in progress. -/
def SessionKept (s t : State) : Prop := t.params = s.params ∧ t.calls = s.calls ∧ t.busy = false

/-- The caller's cell, every byte of its buffer and its record are as before. -/
def CallerDataKept (s t : State) : Prop :=
  t.out = s.out ∧ (∀ a, t.buf.read a = s.buf.read a) ∧ t.info = s.info

/-- The control lines and the bus phase are as before. -/
def LinesKept (s t : State) : Prop := t.ctrl = s.ctrl ∧ t.phase = s.phase

/-- A handle's chip address, transport, chip-select reference, initialized flag and chip-select configuration. -/
def HandleKept (x y : HandleState) : Prop :=
  y.chipAddr = x.chipAddr ∧ y.transport = x.transport ∧ y.cs = x.cs ∧ y.init = x.init ∧ y.cscfg = x.cscfg

/-- What every bus operation leaves alone: the session, the phase (which is `Idle`), and of the handles all but their
caches and chip-select levels. -/
def BusFrame (s t : State) : Prop := SessionKept s t ∧ t.phase = .idle ∧ HandleKept s.hA t.hA ∧ HandleKept s.hD t.hD

/-- An operation answers a next state. -/
def AnswersNext (o : Host.Outcome State Fault Refusal) : Prop := ∃ t, o = .next t

/-- What a register or port operation on handle `h` leaves alone: the other handle, the handle but for its cache, the
lines, the phase and the session; the chip-select line of `h` ends deselected (40_register_driver.md R86). -/
def HandleFrame (h : Handle) (s t : State) : Prop :=
  HandleKept (s.handle h) (t.handle h) ∧ (t.handle h).cslvl = .high ∧
    t.handle (otherHandle h) = s.handle (otherHandle h) ∧ LinesKept s t ∧ SessionKept s t

/-- The state in which a caller operation makes its first transport call, to the chip of `h`: the operation has begun,
the transport is acquired and the chip selected (40_register_driver.md R85). -/
def atFirstCall (h : Handle) (s : State) : State := State.select h { s with busy := true }

/-! ### Invariants -/

/-- A handle after `init` is whole: its arguments are there and its line is an output held high (10_state.md R46). -/
def HandleReady (x : HandleState) : Prop :=
  x.init = true → x.transport = .present ∧ x.cs.isSome = true ∧ x.cscfg = .outputHigh ∧ x.cslvl = .high

/-- Nothing is in progress between operations (10_state.md R36, 92_eei_decisions.md D34). -/
def Quiet (s : State) : Prop := s.busy = false ∧ s.phase = .idle

/-- Every memory is in canonical form. -/
def MemoriesCanonical (s : State) : Prop :=
  s.buf.wf ∧ match s.env.model with
    | .free => True
    | .ideal e => e.rom.wf

/-- The fields of a chip-select line are what the trace's events left, and its reference is there (10_state.md R19). -/
def ChipSelectsFollowTrace (s : State) : Prop :=
  ∀ h, (s.handle h).cs.isSome = true ∧
    (s.handle h).cslvl = s.trace.foldl (csLevelAfter h) .unknown ∧
    (s.handle h).cscfg = s.trace.foldl (csStateAfter h) .unconfigured

/-- An operation of the bus controller or the header parser. -/
def isBusOperation : Instr → Bool
  | .readByte _ | .writeByte _ _ | .readBytes _ _ _ | .readInfo _ => true
  | .wrFrame _ _ _ _ | .rdFrame _ _ _ | .init _ _ _ _ | .destroy _ | .writeReg _ _ _ | .readReg _ _ _
  | .setPortMode _ _ _ | .writePin _ _ _ _ | .writePort _ _ _ | .readPin _ _ _ | .readPort _ _
  | .isConnected _ => false

/-- What an instruction asks of the state and its operands, so that it runs (60_exceptions.md R128, R127). -/
def Runs (s : State) : Instr → Prop
  | .init h chip _ _ =>
    chip.toNat < 8 ∧ (s.handle h).init = false ∧ ∃ v, (s.params.verifyReg, v) ∈ initWrites s.params
  | .writePin _ pin _ value => pin.toNat < 8 ∧ value.toNat < 2
  | .readPin _ pin _ => pin.toNat < 8
  | .readBytes _ len _ => len < 2 ^ s.params.lenWidth
  | .wrFrame _ _ _ _ | .rdFrame _ _ _ | .destroy _ | .writeReg _ _ _ | .readReg _ _ _ | .setPortMode _ _ _
  | .writePort _ _ _ | .readPort _ _ | .isConnected _ | .readByte _ | .writeByte _ _ | .readInfo _ => True

end Sys2Proof
end

