-- ==== Sys2Proof/Certificates/Slice0/Obligations.lean ====
section
/-!
DEFINITION. The statements for the provers: what the spec's numbered rules say of the encodings, of every instruction
(what it does, where it completes, what it leaves alone), of the machine between instructions, and of the header parser.
`ok`, `g`, `d` are the environment's answers; a statement holds for every answer (20_memory.md R52) unless it names the
ideal environment of R54.
-/

open Sys2Proof Sys2Proof.Machine

/-! ### Encodings -/

/-- R75, R76: the first frame byte of every chip address, and that its fields read back. -/
def Obligations.OpcodeBytesOfEveryChipAddress : Prop :=
  ∀ a : ChipAddr,
    (opW a).toNat = 0x40 + 2 * a.toNat ∧ (opR a).toNat = 0x41 + 2 * a.toNat ∧
    opW a = 0x40#8 ||| (a.setWidth 8 <<< 1) ∧ opR a = 0x41#8 ||| (a.setWidth 8 <<< 1) ∧
    isFrameByte (opW a) = true ∧ isFrameByte (opR a) = true ∧
    frameChip (opW a) = a ∧ frameChip (opR a) = a ∧
    frameIsRead (opW a) = false ∧ frameIsRead (opR a) = true

/-- The register indices of the port/pin layer, which the spec infers from its reading of the index list (R79, R25), and
the bytes of the modes (R80). -/
def Obligations.RegisterIndicesAndModeBytes : Prop :=
  (∀ k p, (regIndex k p).toNat =
    (match k with | .iodir => 0x00 | .gppu => 0x0C | .gpio => 0x12 | .olat => 0x14) + (if p = .B then 1 else 0)) ∧
  (modeDirection .output = 0x00#8 ∧ modePullup .output = 0x00#8) ∧
  (modeDirection .input = 0xFF#8 ∧ modePullup .input = 0x00#8) ∧
  (modeDirection .inputPullup = 0xFF#8 ∧ modePullup .inputPullup = 0xFF#8)

/-- R57: the two halves of a cartridge address, and that nothing of it is lost. -/
def Obligations.AddressSplitsIntoLowAndHighByte : Prop :=
  ∀ a : Addr, (addrLow a).toNat = a.toNat % 256 ∧ (addrHigh a).toNat = a.toNat / 256 ∧
    joinAddr (addrHigh a) (addrLow a) = a

/-- Words written out from R74, R75 and R81, each read on its interface (log 5); the operand bytes are the model's
encoding (log 3, log 4). -/
def Obligations.SpecWordsDecode : Prop :=
  decode .wire [0x4A#8, 0x14#8, 0xA5#8, 0#8] = .ok (.wrFrame .hA 5#3 0x14#8 0xA5#8, []) ∧
  decode .wire [0x4F#8, 0x13#8, 1#8] = .ok (.rdFrame .hD 7#3 0x13#8, []) ∧
  decode .caller [0x03#8, 1#8, 0x14#8, 0x5A#8] = .ok (.writeReg .hD 0x14#8 0x5A#8, []) ∧
  decode .caller [0x06#8, 1#8, 3#8, 0#8, 1#8] = .ok (.writePin .hD 3#8 .A 1#8, []) ∧
  decode .caller [0x0C#8, 0x20#8, 0x00#8, 0x01#8] = .ok (.writeByte 0x2000#16 1#8, []) ∧
  decode .caller [0x0E#8, 0#8] = .ok (.readInfo .present, [])

/-- Decoding an encoded well-formed instruction on its interface gives it back, with any bytes behind it left over. -/
def Obligations.DecodeOfEncodeIsTheInstruction : Prop :=
  ∀ (i : Instr) (rest : List Byte), WellFormed i → decode (interfaceOf i) (encode i ++ rest) = .ok (i, rest)

/-- Bytes that decode on an interface are the encoding of a well-formed instruction of that interface and what is left
over: each has one meaning. -/
def Obligations.DecodedBytesAreTheEncoding : Prop :=
  ∀ (via : Interface) (bytes rest : List Byte) (i : Instr), decode via bytes = .ok (i, rest) →
    WellFormed i ∧ interfaceOf i = via ∧ bytes = encode i ++ rest

/-- R83: on the caller interface every byte but the selectors of R81 is refused, those of the form 0100xxxx included; on
the wire every first byte whose bits 7:4 are not 0b0100 is; by the decoder and by the step. A chip address or a pin above
7 and a port other than A or B are refused by the decoder. That two interfaces are read apart is log
5, the operand bytes are log 3, and that the decoder refuses before an overlapping call is looked for is log 22. -/
def Obligations.UnknownSelectorsAreRefused : Prop :=
  (∀ (b : Byte) (bs : List Byte) (s : State) (rest : List Call),
    (b.toNat = 0 ∨ 0x0E < b.toNat → s.calls = ⟨.caller, b :: bs⟩ :: rest →
      decode .caller (b :: bs) = .error (.unknownSelector b) ∧ step s = .refused (.undecodable (.unknownSelector b))) ∧
    (b.extractLsb' 4 4 ≠ 0b0100#4 → s.calls = ⟨.wire, b :: bs⟩ :: rest →
      decode .wire (b :: bs) = .error (.notAFrame b) ∧ step s = .refused (.undecodable (.notAFrame b)))) ∧
  ∀ (h : Handle) (x : Byte) (bs : List Byte),
    (7 < x.toNat → decode .caller (0x01#8 :: handleByte h :: x :: bs) = .error (.chipAbove7 x) ∧
      decode .caller (0x06#8 :: handleByte h :: x :: bs) = .error (.pinAbove7 x) ∧
      decode .caller (0x08#8 :: handleByte h :: x :: bs) = .error (.pinAbove7 x)) ∧
    (1 < x.toNat → decode .caller (0x07#8 :: handleByte h :: x :: bs) = .error (.badPort x) ∧
      decode .caller (0x09#8 :: handleByte h :: x :: bs) = .error (.badPort x))

/-! ### The step -/

/-- A step runs the oldest pending request on the state without it; with none pending the state stays (log 1, log
2, log 5). -/
def Obligations.StepRunsTheDecodedCall : Prop :=
  (∀ (s : State) (c : Call) (rest : List Call) (i : Instr) (left : List Byte),
    s.calls = c :: rest → decode c.via c.bytes = .ok (i, left) → step s = exec i { s with calls := rest }) ∧
  (∀ s : State, s.calls = [] → step s = .next s)

/-- R128, R73, R52: which operations run; every other is refused, an overlapping one as such, whatever its operands (the
order among refusals is the model's choice, log 22; the flag is log 14). That a bare frame runs is the model's reading (log
4), and that READ_INFO runs whatever LEN_WIDTH is, also below 9, is its choice (log 24). Neither `Runs` nor the refusals
look at the environment, the trace or the free values. -/
def Obligations.OperationsRunExactlyWhenNotRefused : Prop :=
  ∀ (i : Instr) (s : State),
    (AnswersNext (exec i s) ↔ s.busy = false ∧ Runs s i) ∧
    (s.busy = true → exec i s = .refused .overlappingCall) ∧
    (¬ AnswersNext (exec i s) → ∃ r, exec i s = .refused r)

/-! ### The register driver -/

/-- R85 (log 4): a write frame is one format-W transaction; nothing else changes, the shadow cache included. That it carries
its own A field, also where that is not `chip_addr[h]`, is the model's choice (log 4), and so is that a line stays as it is
when the frame writes the latch of its pin (log 25). -/
def Obligations.WriteFrameIsOneTransaction : Prop :=
  ∀ (h : Handle) (a : ChipAddr) (r v : Byte) (s : State), s.busy = false →
    ∃ t, exec (.wrFrame h a r v) s = .next t ∧
      t.trace = s.trace ++ wEvents h [opW a, r, v] (txAnswer h [opW a, r, v] (atFirstCall h s)) ∧
      t.result = some (if txAnswer h [opW a, r, v] (atFirstCall h s) then .ok else .fail .txFail) ∧
      (t.handle h).cache = (s.handle h).cache ∧ HandleFrame h s t ∧ CallerDataKept s t

/-- R85 (log 4): a read frame is one format-R transaction that receives one byte; nothing else changes. That it carries its
own A field, also where that is not `chip_addr[h]`, is the model's choice (log 4). -/
def Obligations.ReadFrameIsOneTransaction : Prop :=
  ∀ (h : Handle) (a : ChipAddr) (r : Byte) (s : State), s.busy = false →
    ∃ t, exec (.rdFrame h a r) s = .next t ∧
      t.trace = s.trace ++ rEvents h [opR a, r] (rxAnswer h [opR a, r] (atFirstCall h s)) ∧
      t.result = some (match rxAnswer h [opR a, r] (atFirstCall h s) with
        | some b => .okByte b
        | none => .fail .txRxFail) ∧
      (t.handle h).cache = (s.handle h).cache ∧ HandleFrame h s t ∧ CallerDataKept s t

/-- R87: WRITE_REG. That a line stays as it is when the write is of the latch of its pin is the model's choice (log 25). -/
def Obligations.WriteRegSendsOneFrameAndCachesOnSuccess : Prop :=
  ∀ (h : Handle) (i v : Byte) (s : State), s.busy = false →
    (encode (.writeReg h i v)).head? = some 0x03#8 ∧
    ((s.handle h).init = false →
      exec (.writeReg h i v) s = .next { s with result := some (.fail .notInitialized) }) ∧
    ((s.handle h).init = true →
      ∃ t ok, exec (.writeReg h i v) s = .next t ∧
        ok = txAnswer h [opW (s.handle h).chipAddr, i, v] (atFirstCall h s) ∧
        t.trace = s.trace ++ wEvents h [opW (s.handle h).chipAddr, i, v] ok ∧
        t.result = some (if ok then .ok else .fail .txFail) ∧
        (∀ k (hk : k < 22),
          (t.handle h).cache[k] = if ok = true ∧ k = i.toNat then v else (s.handle h).cache[k]) ∧
        HandleFrame h s t ∧ CallerDataKept s t)

/-- R88: READ_REG. -/
def Obligations.ReadRegReceivesOneByteIntoTheCallersCell : Prop :=
  ∀ (h : Handle) (i : Byte) (s : State), s.busy = false →
    (∀ out, (encode (.readReg h i out)).head? = some 0x04#8) ∧
    exec (.readReg h i .absent) s = .next { s with result := some (.fail .argAbsent) } ∧
    ((s.handle h).init = false →
      exec (.readReg h i .present) s = .next { s with result := some (.fail .notInitialized) }) ∧
    ((s.handle h).init = true →
      ∃ t answer, exec (.readReg h i .present) s = .next t ∧
        answer = rxAnswer h [opR (s.handle h).chipAddr, i] (atFirstCall h s) ∧
        t.trace = s.trace ++ rEvents h [opR (s.handle h).chipAddr, i] answer ∧
        t.result = some (match answer with | some b => .okByte b | none => .fail .txRxFail) ∧
        t.out = answer.getD s.out ∧
        (t.handle h).cache = (s.handle h).cache ∧ HandleFrame h s t ∧
        (∀ a, t.buf.read a = s.buf.read a) ∧ t.info = s.info)

/-- R89 (that a present chip-select argument names CS_LINE(h), log 10, and that the last of two values written to VERIFY_REG
is the expected one, log 26, are the model's choices): INIT is refused on an
initialized handle; on another an absent argument touches nothing; otherwise the line is configured, the five writes and
the verification read are sent until one fails, and only a read-back of the written value initializes the handle. That a
line stays as it is when a write is of the latch of its pin is the model's choice (log 25). -/
def Obligations.InitConfiguresVerifiesAndClearsTheCache : Prop :=
  ∀ (h : Handle) (chip : Byte) (s : State) (x : Byte), s.busy = false → chip.toNat < 8 →
    lastWritten (initWrites s.params) s.params.verifyReg = some x →
    (∀ tp cs, (encode (.init h chip tp cs)).head? = some 0x01#8) ∧
    initWrites s.params = [(s.params.cfgReg, s.params.cfgInit), (0x00#8, 0x00#8), (0x01#8, 0x00#8), (0x14#8, 0x00#8),
      (0x15#8, 0x00#8)] ∧
    ((s.handle h).init = true → ∀ tp cs, exec (.init h chip tp cs) s = .refused .alreadyInitialized) ∧
    ((s.handle h).init = false →
      (∀ tp cs, tp = Presence.absent ∨ cs = Presence.absent →
        exec (.init h chip tp cs) s = .next { s with result := some (.fail .argAbsent) }) ∧
      ∃ t, exec (.init h chip .present .present) s = .next t ∧
        t.handle (otherHandle h) = s.handle (otherHandle h) ∧ LinesKept s t ∧ SessionKept s t ∧ CallerDataKept s t ∧
        (t.handle h).chipAddr = chip.setWidth 3 ∧ (t.handle h).transport = .present ∧
        (t.handle h).cs = some (csLineOf s.params h) ∧ (t.handle h).cscfg = .outputHigh ∧ (t.handle h).cslvl = .high ∧
        let sent := fun ws : List (Byte × Byte) =>
          (ws.map fun w => wEvents h [opW (chip.setWidth 3), w.1, w.2] true).flatten
        let verify := rEvents h [opR (chip.setWidth 3), s.params.verifyReg]
        let start := s.trace ++ [.csConfig h .outputHigh]
        ((∃ before w behind, initWrites s.params = before ++ w :: behind ∧
            t.trace = start ++ sent before ++ wEvents h [opW (chip.setWidth 3), w.1, w.2] false ∧
            t.result = some (.fail .txFail) ∧ (t.handle h).init = false ∧ (t.handle h).cache = (s.handle h).cache) ∨
         (t.trace = start ++ sent (initWrites s.params) ++ verify none ∧
            t.result = some (.fail .txRxFail) ∧ (t.handle h).init = false ∧ (t.handle h).cache = (s.handle h).cache) ∨
         (∃ b, b ≠ x ∧ t.trace = start ++ sent (initWrites s.params) ++ verify (some b) ∧
            t.result = some (.fail .verifyMismatch) ∧ (t.handle h).init = false ∧
            (t.handle h).cache = (s.handle h).cache) ∨
         (t.trace = start ++ sent (initWrites s.params) ++ verify (some x) ∧
            t.result = some .ok ∧ (t.handle h).init = true ∧ (t.handle h).cache = Vector.replicate 22 0#8)))

/-- R90, R47: DESTROY always completes, releases a present line, clears the cache and the initialized flag, and touches
nothing else. -/
def Obligations.DestroyReleasesTheLineAndClearsTheHandle : Prop :=
  ∀ (h : Handle) (s : State), s.busy = false →
    ∃ t, exec (.destroy h) s = .next t ∧
      (encode (.destroy h)).head? = some 0x02#8 ∧
      t.trace = s.trace ++ (if (s.handle h).cs.isSome then [.csConfig h .released] else []) ∧
      t.result = some .noResult ∧
      t.handle h = { s.handle h with
        cscfg := .released, cslvl := .unknown, cache := Vector.replicate 22 0#8, init := false } ∧
      t.handle (otherHandle h) = s.handle (otherHandle h) ∧ LinesKept s t ∧ SessionKept s t ∧ CallerDataKept s t ∧
      t.env = s.env ∧ t.draws = s.draws

/-! ### The port/pin layer -/

/-- R93: SET_PORT_MODE writes the direction, then the pull-up; a failed direction write aborts before the pull-up write,
a failed pull-up write leaves the new direction. -/
def Obligations.SetPortModeWritesDirectionThenPullup : Prop :=
  ∀ (h : Handle) (p : Port) (m : PortMode) (s : State), s.busy = false →
    (encode (.setPortMode h p m)).head? = some 0x05#8 ∧
    ((s.handle h).init = false → exec (.setPortMode h p m) s = .next { s with result := some (.fail .notInitialized) }) ∧
    ((s.handle h).init = true → ∃ t, exec (.setPortMode h p m) s = .next t ∧ HandleFrame h s t ∧ CallerDataKept s t ∧
      let direction := wEvents h [opW (s.handle h).chipAddr, regIndex .iodir p, modeDirection m]
      let pullup := wEvents h [opW (s.handle h).chipAddr, regIndex .gppu p, modePullup m]
      let cache₁ := setReg22 (s.handle h).cache (regIndex .iodir p) (modeDirection m)
      ((t.trace = s.trace ++ direction false ∧ t.result = some (.fail .txFail) ∧
          (t.handle h).cache = (s.handle h).cache) ∨
       (t.trace = s.trace ++ direction true ++ pullup false ∧ t.result = some (.fail .txFail) ∧
          (t.handle h).cache = cache₁) ∨
       (t.trace = s.trace ++ direction true ++ pullup true ∧ t.result = some .ok ∧
          (t.handle h).cache = setReg22 cache₁ (regIndex .gppu p) (modePullup m))))

/-- R94, R92: WRITE_PIN reads the chip's latch, writes it back with the target bit as asked and the seven other bits as
read, and verifies softly. That a line stays as it is when it is on the pin written, or another of that port, is the
model's choice (log 25). -/
def Obligations.WritePinReadsModifiesWritesAndVerifies : Prop :=
  (∀ (cur : Byte) (n : Pin) (b : Bool) (k : Nat), k < 8 →
    (withPin cur n b).getLsbD k = if k = n.toNat then b else cur.getLsbD k) ∧
  (∀ (n : Pin) (g : Byte), observe (.pin n) g = if g.getLsbD n.toNat then 1#8 else 0#8) ∧
  ∀ (h : Handle) (pin : Byte) (p : Port) (value : Byte) (s : State), s.busy = false →
    pin.toNat < 8 → value.toNat < 2 →
    (encode (.writePin h pin p value)).head? = some 0x06#8 ∧
    ((s.handle h).init = false → exec (.writePin h pin p value) s = .next { s with result := some (.fail .notInitialized) }) ∧
    ((s.handle h).init = true → ∃ t, exec (.writePin h pin p value) s = .next t ∧ HandleFrame h s t ∧ CallerDataKept s t ∧
      let chip := (s.handle h).chipAddr
      let n : Pin := pin.setWidth 3
      let b : Bool := value == 1#8
      let latchRead := rEvents h [opR chip, regIndex .olat p]
      let latchWrite := fun cur => wEvents h [opW chip, regIndex .olat p, withPin cur n b]
      ((t.trace = s.trace ++ latchRead none ∧ t.result = some (.fail .txRxFail) ∧
          (t.handle h).cache = (s.handle h).cache) ∨
       (∃ cur, t.trace = s.trace ++ latchRead (some cur) ++ latchWrite cur false ∧ t.result = some (.fail .txFail) ∧
          (t.handle h).cache = (s.handle h).cache) ∨
       (∃ cur g, t.trace = s.trace ++ latchRead (some cur) ++ latchWrite cur true ++
            verifyEvents h chip p (.pin n) (if b then 1#8 else 0#8) g ∧
          (t.handle h).cache = setReg22 (s.handle h).cache (regIndex .olat p) (withPin cur n b) ∧
          t.result = some (if g = none ∧ s.params.verifyReadFail = .fail then .fail .txRxFail else .ok))))

/-- R95, R92: WRITE_PORT writes the whole latch and verifies softly. That a line stays as it is when its pin is in that port
is the model's choice (log 25). -/
def Obligations.WritePortWritesTheLatchAndVerifies : Prop :=
  (∀ g : Byte, observe .port g = g) ∧
  ∀ (h : Handle) (p : Port) (v : Byte) (s : State), s.busy = false →
    (encode (.writePort h p v)).head? = some 0x07#8 ∧
    ((s.handle h).init = false → exec (.writePort h p v) s = .next { s with result := some (.fail .notInitialized) }) ∧
    ((s.handle h).init = true → ∃ t, exec (.writePort h p v) s = .next t ∧ HandleFrame h s t ∧ CallerDataKept s t ∧
      let chip := (s.handle h).chipAddr
      ((t.trace = s.trace ++ wEvents h [opW chip, regIndex .olat p, v] false ∧ t.result = some (.fail .txFail) ∧
          (t.handle h).cache = (s.handle h).cache) ∨
       (∃ g, t.trace = s.trace ++ wEvents h [opW chip, regIndex .olat p, v] true ++ verifyEvents h chip p .port v g ∧
          (t.handle h).cache = setReg22 (s.handle h).cache (regIndex .olat p) v ∧
          t.result = some (if g = none ∧ s.params.verifyReadFail = .fail then .fail .txRxFail else .ok))))

/-- R96, R97: READ_PIN and READ_PORT read the live GPIO register once and answer its bit, or its byte. -/
def Obligations.PinAndPortReadsSampleTheGpioRegister : Prop :=
  ∀ (h : Handle) (p : Port) (pin : Byte) (s : State), s.busy = false → pin.toNat < 8 →
    (encode (.readPin h pin p)).head? = some 0x08#8 ∧ (encode (.readPort h p)).head? = some 0x09#8 ∧
    ((s.handle h).init = false → exec (.readPin h pin p) s = .next { s with result := some (.fail .notInitialized) }) ∧
    ((s.handle h).init = false → exec (.readPort h p) s = .next { s with result := some (.fail .notInitialized) }) ∧
    ((s.handle h).init = true →
      let frame := [opR (s.handle h).chipAddr, regIndex .gpio p]
      let answer := rxAnswer h frame (atFirstCall h s)
      (∃ t, exec (.readPin h pin p) s = .next t ∧ t.trace = s.trace ++ rEvents h frame answer ∧
        t.result = some (match answer with | some g => .okBit (g.getLsbD pin.toNat) | none => .fail .txRxFail) ∧
        (t.handle h).cache = (s.handle h).cache ∧ HandleFrame h s t ∧ CallerDataKept s t) ∧
      (∃ t, exec (.readPort h p) s = .next t ∧ t.trace = s.trace ++ rEvents h frame answer ∧
        t.result = some (match answer with | some g => .okByte g | none => .fail .txRxFail) ∧
        (t.handle h).cache = (s.handle h).cache ∧ HandleFrame h s t ∧ CallerDataKept s t))

/-- R98: IS_CONNECTED answers whether the read of PROBE_REG completed, whatever byte it carried; on an uninitialized
handle it answers false and emits nothing. -/
def Obligations.IsConnectedAnswersWhetherAReadCompletes : Prop :=
  ∀ (h : Handle) (s : State), s.busy = false →
    (encode (.isConnected h)).head? = some 0x0A#8 ∧
    ((s.handle h).init = false → exec (.isConnected h) s = .next { s with result := some (.answer false) }) ∧
    ((s.handle h).init = true →
      ∃ t answer, exec (.isConnected h) s = .next t ∧
        answer = rxAnswer h [opR (s.handle h).chipAddr, s.params.probeReg] (atFirstCall h s) ∧
        t.trace = s.trace ++ rEvents h [opR (s.handle h).chipAddr, s.params.probeReg] answer ∧
        t.result = some (.answer answer.isSome) ∧
        (t.handle h).cache = (s.handle h).cache ∧ HandleFrame h s t ∧ CallerDataKept s t)

/-! ### The bus controller -/

/-- R101, R103, R144: READ_BYTE with every line `Direct`: the address set, the strobe and the sample; where a failure of
the data read or of an address write leaves the lines, and that the events end with the failing transaction. -/
def Obligations.ReadByteSequencesAddressStrobeAndSample : Prop :=
  ∀ (a : Addr) (s : State), s.busy = false → s.params.ctrlMap = .direct → s.hA.init = true → s.hD.init = true →
    ∃ t evs, exec (.readByte a) s = .next t ∧ t.trace = s.trace ++ evs ∧
      t.phase = .idle ∧ SessionKept s t ∧ CallerDataKept s t ∧
      HandleKept s.hA t.hA ∧ HandleKept s.hD t.hD ∧ t.hD.cache = s.hD.cache ∧
      let gpio := [opR s.hD.chipAddr, regIndex .gpio s.params.dataPort]
      let latched := setReg22 (setReg22 s.hA.cache 0x14#8 (addrLow a)) 0x15#8 (addrHigh a)
      ((∃ g g' d, evs = addressSetEvents s.hA.chipAddr a g g' ++
            [.delay s.params.tAS, .ctrl .RD .low, .delay s.params.tSS] ++ rEvents .hD gpio (some d) ++
            [.ctrl .RD .high] ∧
          t.result = some (.okByte d) ∧ t.ctrl = ⟨.high, .low, .low⟩ ∧ t.hA.cache = latched) ∨
       (∃ g g', evs = addressSetEvents s.hA.chipAddr a g g' ++
            [.delay s.params.tAS, .ctrl .RD .low, .delay s.params.tSS] ++ rEvents .hD gpio none ∧
          t.result = some (.fail .txRxFail) ∧ t.ctrl = ⟨.low, .low, .low⟩ ∧ t.hA.cache = latched) ∨
       (∃ c, t.result = some (.fail c) ∧ CutShort s (addressPieces a) c evs s.ctrl t.ctrl ∧
          evs.any isCtrl = false ∧ t.ctrl = s.ctrl ∧
          (c = .txFail ∨ (c = .txRxFail ∧ s.params.verifyReadFail = .fail)) ∧
          ∀ k (hk : k < 22), k ≠ 0x14 → k ≠ 0x15 → t.hA.cache[k] = s.hA.cache[k]))

/-- R101, R104, R144: WRITE_BYTE with every line `Direct`; a failure's events end with the failing transaction. -/
def Obligations.WriteByteSequencesAddressDataAndPulse : Prop :=
  ∀ (a : Addr) (v : Byte) (s : State),
    s.busy = false → s.params.ctrlMap = .direct → s.hA.init = true → s.hD.init = true →
    ∃ t evs, exec (.writeByte a v) s = .next t ∧ t.trace = s.trace ++ evs ∧
      t.phase = .idle ∧ SessionKept s t ∧ CallerDataKept s t ∧ HandleKept s.hA t.hA ∧ HandleKept s.hD t.hD ∧
      let latched := setReg22 (setReg22 s.hA.cache 0x14#8 (addrLow a)) 0x15#8 (addrHigh a)
      let data := s.params.dataPort
      ((∃ g g' g₁ g₂, evs = addressSetEvents s.hA.chipAddr a g g' ++
            portWriteEvents .hD s.hD.chipAddr data v g₁ ++
            portWriteEvents .hD s.hD.chipAddr (otherPort data) 0x00#8 g₂ ++ [.ctrl .WR .high, .ctrl .WR .low] ∧
          t.result = some .ok ∧ t.ctrl = ⟨.high, .low, .low⟩ ∧ t.hA.cache = latched ∧
          t.hD.cache = setReg22 (setReg22 s.hD.cache (regIndex .olat data) v) (regIndex .olat (otherPort data)) 0x00#8) ∨
       (∃ g g' rest c, evs = addressSetEvents s.hA.chipAddr a g g' ++ rest ∧ t.result = some (.fail c) ∧
          CutShort s [.portWrite .hD data v, .portWrite .hD (otherPort data) 0x00#8] c rest ⟨.high, .low, .low⟩ t.ctrl ∧
          rest.any isCtrl = false ∧ (c = .txFail ∨ (c = .txRxFail ∧ s.params.verifyReadFail = .fail)) ∧
          t.ctrl = ⟨.high, .low, .low⟩ ∧ t.hA.cache = latched ∧
          ∀ k (hk : k < 22), k ≠ 0x14 → k ≠ 0x15 → t.hD.cache[k] = s.hD.cache[k]) ∨
       (∃ c, t.result = some (.fail c) ∧ CutShort s (addressPieces a) c evs s.ctrl t.ctrl ∧
          evs.any isCtrl = false ∧ t.ctrl = s.ctrl ∧ t.hD.cache = s.hD.cache ∧
          (c = .txFail ∨ (c = .txRxFail ∧ s.params.verifyReadFail = .fail)) ∧
          ∀ k (hk : k < 22), k ≠ 0x14 → k ≠ 0x15 → t.hA.cache[k] = s.hA.cache[k]))

/-- R105: READ_BYTES with every line `Direct`: the bytes received stand in the buffer in order, a failure keeps those
already read and ends the operation, and the buffer at and above the length is as before. -/
def Obligations.ReadBytesFillsTheBufferUpToTheFirstFailure : Prop :=
  ∀ (a : Addr) (n : Nat) (s : State), s.busy = false → s.params.ctrlMap = .direct →
    s.hA.init = true → s.hD.init = true → s.buf.wf → n < 2 ^ s.params.lenWidth →
    ∃ t evs, exec (.readBytes a n .present) s = .next t ∧ t.trace = s.trace ++ evs ∧
      let got := evs.filterMap (dataByte (regIndex .gpio s.params.dataPort))
      (∀ k, k < got.length → t.buf.read k = got.getD k 0#8) ∧ (∀ k, n ≤ k → t.buf.read k = s.buf.read k) ∧
      ((t.result = some .ok ∧ got.length = n) ∨
        (got.length < n ∧ (t.result = some (.fail .txFail) ∨ t.result = some (.fail .txRxFail)))) ∧
      (n = 0 → t = { s with result := some .ok }) ∧
      t.out = s.out ∧ t.info = s.info ∧ SessionKept s t ∧ HandleKept s.hA t.hA ∧ HandleKept s.hD t.hD ∧
      t.hD.cache = s.hD.cache ∧ ∀ k (hk : k < 22), k ≠ 0x14 → k ≠ 0x15 → t.hA.cache[k] = s.hA.cache[k]

/-- R100 to R105, R109, R144: wherever CTRL_MAP places the lines, and on initialized handles or not, a bus operation emits
the events of its expansion in order, or of a beginning of it up to the piece that fails. A line on an expander pin is its
event and then a pin write: the latch read, the latch written back with that bit, the verification. Each line is left as
last set, and is `Unknown` where its pin write failed. A READ_INFO that succeeds parses the bytes it received into the
record. (What ctrl[line] is after another write overwrites the pin is log 25, that READ_INFO runs with LEN_WIDTH below 9
is log 24, and the title with TITLE_CAP below 17 is log 15: the model's choices.) -/
def Obligations.LinesFollowTheirEventsWhereverTheyAreDriven : Prop :=
  ∀ s : State, Quiet s →
    (∀ a, ∃ t evs, exec (.readByte a) s = .next t ∧ t.trace = s.trace ++ evs ∧ BusFrame s t ∧ CallerDataKept s t ∧
      ∃ d, (t.result = some (.okByte d) ∧ Expands s (readPieces s.params a d) evs ∧
            t.ctrl = linesThrough (readPieces s.params a d) s.ctrl) ∨
          (∃ c, t.result = some (.fail c) ∧ CutShort s (readPieces s.params a d) c evs s.ctrl t.ctrl)) ∧
    (∀ a v, ∃ t evs, exec (.writeByte a v) s = .next t ∧ t.trace = s.trace ++ evs ∧ BusFrame s t ∧ CallerDataKept s t ∧
      ((t.result = some .ok ∧ Expands s (writePieces s.params a v) evs ∧
          t.ctrl = linesThrough (writePieces s.params a v) s.ctrl) ∨
       (∃ c, t.result = some (.fail c) ∧ CutShort s (writePieces s.params a v) c evs s.ctrl t.ctrl))) ∧
    (∀ a n, n < 2 ^ s.params.lenWidth → s.buf.wf → ∃ t got x,
      exec (.readBytes a n .present) s = .next t ∧ BusFrame s t ∧ t.out = s.out ∧ t.info = s.info ∧
      Expands s (runPieces s.params a got) x ∧ (∀ k, k < got.length → t.buf.read k = got.getD k 0#8) ∧
      (∀ k, n ≤ k → t.buf.read k = s.buf.read k) ∧
      ((t.result = some .ok ∧ got.length = n ∧ t.trace = s.trace ++ x ∧
          t.ctrl = linesThrough (runPieces s.params a got) s.ctrl) ∨
       (∃ c y d, t.result = some (.fail c) ∧ got.length < n ∧ t.trace = s.trace ++ (x ++ y) ∧
          CutShort s (readPieces s.params (a + BitVec.ofNat 16 got.length) d) c y
            (linesThrough (runPieces s.params a got) s.ctrl) t.ctrl))) ∧
    (∃ t got x, exec (.readInfo .present) s = .next t ∧ BusFrame s t ∧ t.out = s.out ∧
      (∀ k, t.buf.read k = s.buf.read k) ∧ Expands s (runPieces s.params 0x0000#16 got) x ∧
      ((t.result = some .ok ∧ got.length = 0x180 ∧ t.trace = s.trace ++ x ∧
          t.ctrl = linesThrough (runPieces s.params 0x0000#16 got) s.ctrl ∧ ParsedFrom s.params.titleCap got t.info) ∨
       (∃ c y d, t.result = some (.fail c) ∧ got.length < 0x180 ∧ t.info = s.info ∧
          t.trace = s.trace ++ (x ++ y) ++ [.diag (.headerReadFailed c)] ∧
          CutShort s (readPieces s.params (BitVec.ofNat 16 got.length) d) c y
            (linesThrough (runPieces s.params 0x0000#16 got) s.ctrl) t.ctrl)))

/-- R107: no bus operation writes a direction or a pull-up register, wherever the control lines are driven. -/
def Obligations.BusOperationsNeverChangeDirectionOrPullup : Prop :=
  ∀ (i : Instr) (s t : State), isBusOperation i = true → exec i s = .next t →
    ∃ evs, t.trace = s.trace ++ evs ∧ evs.any writesDirectionOrPullup = false

/-- R82, R153: with every line `Direct`, the transactions of a successful transfer. -/
def Obligations.TransactionCountsOfTheTransfers : Prop :=
  ∀ (s t : State), s.params.ctrlMap = .direct →
    (∀ a d, exec (.readByte a) s = .next t → t.result = some (.okByte d) →
      transactions t.trace = transactions s.trace + 5) ∧
    (∀ a v, exec (.writeByte a v) s = .next t → t.result = some .ok →
      transactions t.trace = transactions s.trace + 8) ∧
    (∀ a n, exec (.readBytes a n .present) s = .next t → t.result = some .ok →
      transactions t.trace = transactions s.trace + 5 * n) ∧
    (exec (.readInfo .present) s = .next t → t.result = some .ok →
      transactions t.trace = transactions s.trace + 1920)

/-! ### The header parser -/

/-- R109 to R120: READ_INFO with every line `Direct` parses exactly the 0x180 data bytes it received, or reports the bulk
read's failure with a diagnostic and leaves the record as it was. That it runs with LEN_WIDTH below 9 (log 24) and what the
title is with TITLE_CAP below 17 (log 15) are the model's choices; the reserved fields are free (log 13). -/
def Obligations.ReadInfoParsesTheBytesItReceived : Prop :=
  ∀ s : State, s.busy = false → s.params.ctrlMap = .direct → s.hA.init = true → s.hD.init = true →
    ∃ t evs, exec (.readInfo .present) s = .next t ∧ t.trace = s.trace ++ evs ∧
      t.out = s.out ∧ (∀ k, t.buf.read k = s.buf.read k) ∧ SessionKept s t ∧ t.phase = .idle ∧
      HandleKept s.hA t.hA ∧ HandleKept s.hD t.hD ∧ t.hD.cache = s.hD.cache ∧
      (∀ k (hk : k < 22), k ≠ 0x14 → k ≠ 0x15 → t.hA.cache[k] = s.hA.cache[k]) ∧
      let H := evs.filterMap (dataByte (regIndex .gpio s.params.dataPort))
      ((t.result = some .ok ∧ H.length = 0x180 ∧ t.ctrl = ⟨.high, .low, .low⟩ ∧
          t.info.title = titleExtract s.params.titleCap H ∧
          t.info.cartType = H.getD 0x147 0#8 ∧
          t.info.hasBattery = hasBattery (H.getD 0x147 0#8) ∧
          t.info.isSuper = (H.getD 0x146 0#8 == 0x03#8) ∧
          ((H.getD 0x148 0#8).toNat ≤ 16 → t.info.romSize = 32768#32 <<< (H.getD 0x148 0#8).toNat) ∧
          t.info.romBanks = t.info.romSize / 32768#32 ∧
          t.info.ramSize = ramSize (H.getD 0x149 0#8) ∧
          t.info.ramBanks = t.info.ramSize / 8192#32 ∧
          t.info.checksum = checksum H) ∨
        (∃ c, t.result = some (.fail c) ∧ H.length < 0x180 ∧ t.info = s.info ∧
          evs.getLast? = some (.diag (.headerReadFailed c))))

/-- R110, R111: the title's character classes, value by value; a position holds its character as long as every byte up
to it is copied or remapped, and 0x00 from the first terminating byte on, that position included. -/
def Obligations.TitleStopsAtTheFirstTerminatingByte : Prop :=
  (∀ b : Byte, titleChar b =
    if (0x30 ≤ b.toNat ∧ b.toNat ≤ 0x39) ∨ (0x41 ≤ b.toNat ∧ b.toNat ≤ 0x5A) ∨ (0x61 ≤ b.toNat ∧ b.toNat ≤ 0x7A) ∨
      (0x23 ≤ b.toNat ∧ b.toNat ≤ 0x29) ∨ b.toNat = 0x2D ∨ b.toNat = 0x2E ∨ b.toNat = 0x5F ∨ b.toNat = 0x20
    then some b
    else if b.toNat = 0x3A then some 0x5F#8 else none) ∧
  ∀ (cap : Nat) (H : List Byte), 17 ≤ cap →
    (titleExtract cap H).length = cap ∧
    ∀ i, i < cap → (titleExtract cap H).getD i 0#8 =
      if i < 16 ∧ ∀ j, j ≤ i → (titleChar (headerByte H (0x134 + j))).isSome = true
      then (titleChar (headerByte H (0x134 + i))).getD 0#8 else 0#8

/-- R116, R40: the ROM size and banks for the codes 0 to 16; above, the size is whatever free value it is given and the
banks follow from it. -/
def Obligations.RomSizeOfTheCodes : Prop :=
  ∀ (c : Byte) (free : Word32),
    (c.toNat ≤ 16 → (romSize c free).toNat = 32768 * 2 ^ c.toNat ∧ (romBanks (romSize c free)).toNat = 2 ^ c.toNat) ∧
    (16 < c.toNat → romSize c free = free) ∧
    (romBanks (romSize c free)).toNat = (romSize c free).toNat / 32768

/-- R117: the RAM size and banks. -/
def Obligations.RamSizeOfTheCodes : Prop :=
  ∀ c : Byte,
    (ramSize c).toNat =
      (if c.toNat = 1 then 2048 else if c.toNat = 2 then 8192 else if c.toNat = 3 then 32768 else 0) ∧
    (ramBanks (ramSize c)).toNat = (ramSize c).toNat / 8192

/-- R113, R115, R114, R112: the flags of the record, its type byte, and the one named entry of TYPE_NAME. -/
def Obligations.BatteryAndSuperFlags : Prop :=
  (∀ t : Byte, hasBattery t = true ↔
    t.toNat ∈ [0x03, 0x06, 0x09, 0x0D, 0x0F, 0x10, 0x13, 0x17, 0x1B, 0x1E, 0xFF]) ∧
  (∀ b : Byte, isSuperByte b = true ↔ b.toNat = 3) ∧
  (∀ cap H d, (parseHeader cap H d).isSuper = isSuperByte (headerByte H 0x146) ∧
    (parseHeader cap H d).hasBattery = hasBattery (headerByte H 0x147) ∧
    (parseHeader cap H d).cartType = headerByte H 0x147) ∧
  typeName 0x13#8 = "MBC3+RAM+BATTERY"

/-- R118: the checksum is the sum of the 25 bytes at 0x134 to 0x14C modulo 256, and of no other byte. -/
def Obligations.ChecksumSumsExactlyItsRange : Prop :=
  (∀ H : List Byte, (checksum H).toNat =
    (∑ o ∈ Finset.Icc 0x134 0x14C, (headerByte H o).toNat) % 256) ∧
  (∀ H H' : List Byte, (∀ o, 0x134 ≤ o → o ≤ 0x14C → headerByte H o = headerByte H' o) → checksum H = checksum H')

/-! ### Failures -/

/-- R137, R99, R127: an operation that first reaches an uninitialized handle fails with NotInitialized, emits nothing and
changes nothing (a READ_INFO reports it; the buffer of a READ_BYTES below its length is unspecified). A transfer that
reaches the uninitialized `hD` behind its address set fails with NotInitialized there, with every line `Direct`: RD stays
low after a READ_BYTE, and a WRITE_BYTE pulses no WR. That READ_INFO runs with LEN_WIDTH below 9, and so fails as said, is
the model's choice (log 24). -/
def Obligations.UninitializedHandlesFailWithoutAnEvent : Prop :=
  (∀ (h : Handle) (s : State), s.busy = false → (s.handle h).init = false →
    let failed := Host.Outcome.next (φ := Fault) (ρ := Refusal) { s with result := some (.fail .notInitialized) }
    (∀ i v, exec (.writeReg h i v) s = failed) ∧ (∀ i, exec (.readReg h i .present) s = failed) ∧
    (∀ p m, exec (.setPortMode h p m) s = failed) ∧
    (∀ pin p v, pin.toNat < 8 → v.toNat < 2 → exec (.writePin h pin p v) s = failed) ∧
    (∀ p v, exec (.writePort h p v) s = failed) ∧
    (∀ pin p, pin.toNat < 8 → exec (.readPin h pin p) s = failed) ∧ (∀ p, exec (.readPort h p) s = failed) ∧
    (h = .hA → s.phase = .idle →
      (∀ a, exec (.readByte a) s = failed) ∧ (∀ a v, exec (.writeByte a v) s = failed) ∧
      (∀ a n, 0 < n → n < 2 ^ s.params.lenWidth → s.buf.wf → ∃ t, exec (.readBytes a n .present) s = .next t ∧
        t.result = some (.fail .notInitialized) ∧ t.trace = s.trace ∧ t.hA = s.hA ∧ t.hD = s.hD ∧ t.env = s.env ∧
        LinesKept s t ∧ SessionKept s t ∧ t.out = s.out ∧ t.info = s.info ∧
        ∀ k, n ≤ k → t.buf.read k = s.buf.read k) ∧
      exec (.readInfo .present) s = .next { s with
        result := some (.fail .notInitialized)
        trace := s.trace ++ [.diag (.headerReadFailed .notInitialized)] })) ∧
  ∀ (a : Addr) (s : State), Quiet s → s.params.ctrlMap = .direct → s.hA.init = true → s.hD.init = false →
    (∃ t evs, exec (.readByte a) s = .next t ∧ t.trace = s.trace ++ evs ∧ BusFrame s t ∧ CallerDataKept s t ∧
      t.hD = s.hD ∧
      ((∃ g g', evs = addressSetEvents s.hA.chipAddr a g g' ++
            [.delay s.params.tAS, .ctrl .RD .low, .delay s.params.tSS] ∧
          t.result = some (.fail .notInitialized) ∧ t.ctrl = ⟨.low, .low, .low⟩) ∨
       (∃ c, t.result = some (.fail c) ∧ c ≠ .notInitialized ∧ t.ctrl = s.ctrl ∧
          CutShort s (addressPieces a) c evs s.ctrl t.ctrl))) ∧
    ∀ v, ∃ t evs, exec (.writeByte a v) s = .next t ∧ t.trace = s.trace ++ evs ∧ BusFrame s t ∧ CallerDataKept s t ∧
      t.hD = s.hD ∧
      ((∃ g g', evs = addressSetEvents s.hA.chipAddr a g g' ∧
          t.result = some (.fail .notInitialized) ∧ t.ctrl = ⟨.high, .low, .low⟩) ∨
       (∃ c, t.result = some (.fail c) ∧ c ≠ .notInitialized ∧ t.ctrl = s.ctrl ∧
          CutShort s (addressPieces a) c evs s.ctrl t.ctrl))

/-- R121, R127: an absent reference argument fails with ArgAbsent before anything else, initialized or not, and touches
nothing. That READ_INFO is not refused with LEN_WIDTH below 9, where a refusal would come first, is the model's choice (log
24). -/
def Obligations.AbsentArgumentsTouchNothing : Prop :=
  ∀ s : State, s.busy = false →
    let failed := Host.Outcome.next (φ := Fault) (ρ := Refusal) { s with result := some (.fail .argAbsent) }
    (∀ h i, exec (.readReg h i .absent) s = failed) ∧
    (∀ a n, n < 2 ^ s.params.lenWidth → exec (.readBytes a n .absent) s = failed) ∧
    exec (.readInfo .absent) s = failed ∧
    (∀ h chip tp cs, Runs s (.init h chip tp cs) → tp = .absent ∨ cs = .absent →
      exec (.init h chip tp cs) s = failed)

/-- R125: nothing is retried. With VERIFY_READ_FAIL = `Fail`, no transport call follows a failed one. -/
def Obligations.NoTransportCallFollowsAFailedOne : Prop :=
  ∀ (i : Instr) (s t : State), s.params.verifyReadFail = .fail → exec i s = .next t →
    ∃ evs, t.trace = s.trace ++ evs ∧
      ∀ before e behind, evs = before ++ e :: behind → isFailedTransport e = true → behind.any isTransport = false

/-! ### The machine between operations -/

/-- R45: the state at construction, for every choice of parameters; `reset` is construction with the defaults of R9. That
the defaults are a field of the state at reset is log 11, the references at construction are log 10. -/
def Obligations.ConstructionState : Prop :=
  (∀ p : Params, let s := State.construct p
    (∀ h, (s.handle h).init = false ∧ (s.handle h).cscfg = .unconfigured ∧ (s.handle h).cslvl = .unknown) ∧
    s.hA.chipAddr = p.addrChip ∧ s.hD.chipAddr = p.dataChip ∧
    s.ctrl = ⟨.unknown, .unknown, .unknown⟩ ∧ s.phase = .idle ∧ s.trace = []) ∧
  (∃ v m, State.reset = State.construct (Params.standard v m)) ∧
  let p := State.reset.params
  p.cfgReg = 0x0A#8 ∧ p.cfgInit = 0x08#8 ∧ p.verifyReg = 0x00#8 ∧ p.probeReg = 0x00#8 ∧ p.dataPort = .A ∧
    p.tAS = 0 ∧ p.tSS = 0 ∧ p.addrChip = 0#3 ∧ p.dataChip = 1#3 ∧ csLineOf p .hA ≠ csLineOf p .hD ∧
    p.lenWidth = 32 ∧ p.titleCap = 17

/-- The invariants below hold at reset. Three of them rest on choices of the model there: the lines follow the trace because
a line reference is present (log 10), the memories are canonical because none lists a byte (log 12), and the state is quiet
because the flag `busy` is clear (log 14). -/
def Obligations.ResetMeetsTheInvariants : Prop :=
  let s := State.reset
  Disciplined s.trace ∧ s.trace.all frameFormed = true ∧ (s.trace.all csInactive = true ∧ s.ctrl.cs ≠ .high) ∧
    (∀ h, (s.handle h).cslvl ≠ .low) ∧ (∀ h, HandleReady (s.handle h)) ∧ MemoriesCanonical s ∧ Quiet s ∧
    ChipSelectsFollowTrace s ∧ s.ctrl.wr ≠ .high

/-- R61, R68, R85: every step keeps the trace a sequence of whole transactions. -/
def Obligations.StepKeepsTheTransactionDiscipline : Prop :=
  ∀ s t : State, Disciplined s.trace → step s = .next t → Disciplined t.trace

/-- R74, R83, and R77, which the spec infers from R74: every step keeps every transmitted frame well formed. -/
def Obligations.StepKeepsEveryFrameWellFormed : Prop :=
  ∀ s t : State, s.trace.all frameFormed = true → step s = .next t → t.trace.all frameFormed = true

/-- R34, which the spec infers from R101, R103 and R104: no step drives the cartridge CS line to its active level, and
every transfer that succeeds drives it low. Where CS is on an expander pin, that `ctrl` stays as CtrlSet set it when a port
write overwrites the pin is the model's choice (log 25). -/
def Obligations.StepNeverActivatesTheCartridgeChipSelect : Prop :=
  (∀ s t : State, s.trace.all csInactive = true ∧ s.ctrl.cs ≠ .high → step s = .next t →
    t.trace.all csInactive = true ∧ t.ctrl.cs ≠ .high) ∧
  ∀ (i : Instr) (s t : State), (∃ a, i = .readByte a) ∨ (∃ a v, i = .writeByte a v) → exec i s = .next t →
    (∀ c, t.result ≠ some (.fail c)) → ∃ evs, t.trace = s.trace ++ evs ∧ .ctrl .CS .low ∈ evs

/-- R86: no step leaves a chip-select line asserted. -/
def Obligations.StepLeavesEveryChipDeselected : Prop :=
  ∀ s t : State, (∀ h, (s.handle h).cslvl ≠ .low) → step s = .next t → ∀ h, (t.handle h).cslvl ≠ .low

/-- R86, R141, inferences of the spec from R85 and R67: at no point of a trace that a step extends are both chip-select
lines low. -/
def Obligations.AtMostOneChipSelectIsLow : Prop :=
  ∀ s t : State, Disciplined s.trace → step s = .next t → ∀ seen, seen <+: t.trace →
    ¬ (seen.foldl (csLevelAfter .hA) .unknown = .low ∧ seen.foldl (csLevelAfter .hD) .unknown = .low)

/-- R46, R24: every step keeps initialized handles whole. -/
def Obligations.StepKeepsInitializedHandlesReady : Prop :=
  ∀ s t : State, (∀ h, HandleReady (s.handle h)) → step s = .next t → ∀ h, HandleReady (t.handle h)

/-- Every step keeps every memory in canonical form. -/
def Obligations.StepKeepsMemoriesCanonical : Prop :=
  ∀ s t : State, MemoriesCanonical s → step s = .next t → MemoriesCanonical t

/-- R36, R18: `phase` is `Idle` between operations, also after a failure, and nothing is in progress. -/
def Obligations.StepEndsIdle : Prop :=
  ∀ s t : State, Quiet s → step s = .next t → Quiet t

/-- R19, R42: the chip-select fields of a handle are what the trace's events left. -/
def Obligations.StepKeepsChipSelectsInStepWithTheTrace : Prop :=
  ∀ s t : State, ChipSelectsFollowTrace s → step s = .next t → ChipSelectsFollowTrace t

/-- R104, R33: with WR `Direct`, every step leaves the write strobe inactive or undriven. -/
def Obligations.StepReleasesTheWriteStrobe : Prop :=
  ∀ s t : State, s.params.ctrlMap.wr = .direct ∧ s.ctrl.wr ≠ .high → step s = .next t →
    t.params.ctrlMap.wr = .direct ∧ t.ctrl.wr ≠ .high

/-- R42, R124: a step only appends to the trace; that the parameters are a field no step changes is the model's choice (log
11). -/
def Obligations.StepOnlyExtendsTheTrace : Prop :=
  ∀ s t : State, step s = .next t → s.trace <+: t.trace ∧ t.params = s.params

/-- R21: but for INIT and DESTROY, which clear it, and a bare frame, which leaves it, the shadow cache after an operation
is the cache before with the operation's successful write frames replayed. -/
def Obligations.CacheIsTheReplayOfSuccessfulWrites : Prop :=
  ∀ (i : Instr) (s t : State), (∀ h c tp cs, i ≠ .init h c tp cs) → (∀ h, i ≠ .destroy h) →
    (∀ h a r v, i ≠ .wrFrame h a r v) → exec i s = .next t →
    ∃ evs, t.trace = s.trace ++ evs ∧
      ∀ h, (t.handle h).cache = evs.foldl (replayWrite h) (s.handle h).cache

/-- R24, R19: only INIT sets an initialized flag, only DESTROY clears it, each on its own handle; only INIT sets a chip
address. -/
def Obligations.OnlyInitAndDestroyChangeTheInitializedFlag : Prop :=
  ∀ (i : Instr) (s t : State) (h : Handle), exec i s = .next t →
    ((s.handle h).init = false → (t.handle h).init = true → ∃ c tp cs, i = .init h c tp cs ∧ t.result = some .ok) ∧
    ((s.handle h).init = true → (t.handle h).init = false → i = .destroy h) ∧
    ((t.handle h).chipAddr ≠ (s.handle h).chipAddr → ∃ c tp cs, i = .init h c tp cs)

/-! ### In the ideal environment (20_memory.md R54) every operation completes with its own effect -/

/-- R54: what a GPIO read answers, bit by bit. -/
def Obligations.IdealGpioBitByBit : Prop :=
  ∀ (e : IdealEnv) (data : Port) (rd : LineLevel) (h : Handle) (p : Port) (n : Nat), n < 8 →
    (e.readReg data rd h (regIndex .gpio p)).getLsbD n =
      if (getReg22 (e.regs h) (regIndex .iodir p)).getLsbD n = false
      then (getReg22 (e.regs h) (regIndex .olat p)).getLsbD n
      else if h = .hD ∧ p = data ∧ rd = .low then (e.rom.read e.busAddr.toNat).getLsbD n
      else false

/-- R54, R85, R87, R88: frames and register accesses. The model's choices here: a bare frame carries its own A field (log 4);
where CTRL_MAP is not `Direct`, the answer takes the level of RD from `ctrl`, and no cartridge write is recorded, also when
a latch write overwrites the pin of WR (log 7, log 25). -/
def Obligations.IdealRegisterAccess : Prop :=
  ∀ (h : Handle) (r v : Byte) (s : State) (e : IdealEnv), s.busy = false → s.env = ⟨[], .ideal e⟩ →
    (∀ a, ∃ t, exec (.wrFrame h a r v) s = .next t ∧ t.result = some .ok ∧
      t.env = ⟨[], .ideal (e.setReg h r v)⟩) ∧
    (∀ a, ∃ t, exec (.rdFrame h a r) s = .next t ∧ t.env = s.env ∧
      t.result = some (.okByte (e.readReg s.params.dataPort s.ctrl.rd h r))) ∧
    ((s.handle h).init = true →
      (∃ t, exec (.writeReg h r v) s = .next t ∧ t.result = some .ok ∧
        t.env = ⟨[], .ideal (e.setReg h r v)⟩) ∧
      (∃ t, exec (.readReg h r .present) s = .next t ∧ t.env = s.env ∧
        t.out = e.readReg s.params.dataPort s.ctrl.rd h r ∧
        t.result = some (.okByte (e.readReg s.params.dataPort s.ctrl.rd h r))))

/-- R87, R88, R54: a register that was written reads back the value, if it is one of the 22 and no GPIO-state register. -/
def Obligations.IdealStoreThenLoadReturnsTheValue : Prop :=
  ∀ (h : Handle) (r v : Byte) (s t : State) (e : IdealEnv), s.busy = false → s.env = ⟨[], .ideal e⟩ →
    (s.handle h).init = true → r.toNat < 22 → r ≠ regIndex .gpio .A → r ≠ regIndex .gpio .B →
    exec (.writeReg h r v) s = .next t →
    ∃ u, exec (.readReg h r .present) t = .next u ∧ u.result = some (.okByte v) ∧ u.out = v

/-- R54, R93 to R95: the port writes leave the chip's registers as their rules say. That no cartridge write is recorded where
CTRL_MAP is not `Direct`, also when the write overwrites the pin of WR, is the model's choice (log 7, log 25). -/
def Obligations.IdealPortWrites : Prop :=
  ∀ (h : Handle) (p : Port) (s : State) (e : IdealEnv), s.busy = false → s.env = ⟨[], .ideal e⟩ →
    (s.handle h).init = true →
    (∀ m, ∃ t, exec (.setPortMode h p m) s = .next t ∧ t.result = some .ok ∧
      t.env = ⟨[], .ideal ((e.setReg h (regIndex .iodir p) (modeDirection m)).setReg h
        (regIndex .gppu p) (modePullup m))⟩) ∧
    (∀ v, ∃ t, exec (.writePort h p v) s = .next t ∧ t.result = some .ok ∧
      t.env = ⟨[], .ideal (e.setReg h (regIndex .olat p) v)⟩) ∧
    (∀ pin value : Byte, pin.toNat < 8 → value.toNat < 2 →
      ∃ t, exec (.writePin h pin p value) s = .next t ∧ t.result = some .ok ∧
        t.env = ⟨[], .ideal (e.setReg h (regIndex .olat p)
          (withPin (getReg22 (e.regs h) (regIndex .olat p)) (pin.setWidth 3) (value == 1#8)))⟩)

/-- R54, R96 to R98: the port reads and the probe. The answer takes the level of RD from `ctrl`, also where CTRL_MAP is
not `Direct` (the model's choice, log 7, log 25). -/
def Obligations.IdealPortReads : Prop :=
  ∀ (h : Handle) (p : Port) (s : State) (e : IdealEnv), s.busy = false → s.env = ⟨[], .ideal e⟩ →
    (s.handle h).init = true →
    let g := e.gpio s.params.dataPort s.ctrl.rd h p
    (∀ pin : Byte, pin.toNat < 8 → ∃ t, exec (.readPin h pin p) s = .next t ∧
      t.result = some (.okBit (g.getLsbD pin.toNat)) ∧ t.env = s.env) ∧
    (∃ t, exec (.readPort h p) s = .next t ∧ t.result = some (.okByte g) ∧ t.env = s.env) ∧
    (∃ t, exec (.isConnected h) s = .next t ∧ t.result = some (.answer true) ∧ t.env = s.env)

/-- R89, R46, R54: INIT succeeds, and the chip holds what it wrote; every other register keeps its value. That no cartridge
write is recorded where CTRL_MAP is not `Direct`, also when a latch write overwrites the pin of WR, is the model's choice
(log 7, log 25). -/
def Obligations.IdealInitSucceeds : Prop :=
  ∀ (h : Handle) (chip : Byte) (s : State) (e : IdealEnv) (v : VerifyReadFail) (m : CtrlMap), s.busy = false →
    s.env = ⟨[], .ideal e⟩ → s.params = Params.standard v m → chip.toNat < 8 → (s.handle h).init = false →
    ∃ t e', exec (.init h chip .present .present) s = .next t ∧ t.result = some .ok ∧
      (t.handle h).init = true ∧ (t.handle h).cache = Vector.replicate 22 0#8 ∧
      (t.handle h).chipAddr = chip.setWidth 3 ∧ (t.handle h).cscfg = .outputHigh ∧ (t.handle h).cslvl = .high ∧
      t.env = ⟨[], .ideal e'⟩ ∧ e'.regs (otherHandle h) = e.regs (otherHandle h) ∧
      e'.rom = e.rom ∧ e'.writes = e.writes ∧
      ∀ k (hk : k < 22), (e'.regs h)[k] =
        if k = 0x0A then 0x08#8 else if k = 0x00 ∨ k = 0x01 ∨ k = 0x14 ∨ k = 0x15 then 0x00#8 else (e.regs h)[k]

/-- R103, R107, R54: with the data port an input, READ_BYTE returns the cartridge's byte at the address. -/
def Obligations.IdealReadByteReturnsTheRomByte : Prop :=
  ∀ (a : Addr) (s : State) (e : IdealEnv), s.busy = false → s.env = ⟨[], .ideal e⟩ →
    s.params.ctrlMap = .direct → s.hA.init = true → s.hD.init = true →
    getReg22 e.regsD (regIndex .iodir s.params.dataPort) = 0xFF#8 →
    ∃ t, exec (.readByte a) s = .next t ∧ t.result = some (.okByte (e.rom.read a.toNat)) ∧
      t.ctrl = ⟨.high, .low, .low⟩

/-- R105, R106, R54: READ_BYTES fills the buffer with the bytes at `(a + i) mod 65536`. -/
def Obligations.IdealReadBytesWrapsAround : Prop :=
  ∀ (a : Addr) (n : Nat) (s : State) (e : IdealEnv), s.busy = false → s.env = ⟨[], .ideal e⟩ →
    s.params.ctrlMap = .direct → s.hA.init = true → s.hD.init = true → s.buf.wf → n < 2 ^ s.params.lenWidth →
    getReg22 e.regsD (regIndex .iodir s.params.dataPort) = 0xFF#8 →
    ∃ t, exec (.readBytes a n .present) s = .next t ∧ t.result = some .ok ∧
      (∀ i, i < n → t.buf.read i = e.rom.read ((a.toNat + i) % 65536)) ∧
      ∀ i, n ≤ i → t.buf.read i = s.buf.read i

/-- R109, R54: READ_INFO succeeds and its record is the one parsed from the cartridge's first 0x180 bytes. That it runs with
LEN_WIDTH below 9 (log 24) and what the title is with TITLE_CAP below 17 (log 15) are the model's choices. -/
def Obligations.IdealReadInfoParsesTheRom : Prop :=
  ∀ (s : State) (e : IdealEnv), s.busy = false → s.env = ⟨[], .ideal e⟩ →
    s.params.ctrlMap = .direct → s.hA.init = true → s.hD.init = true →
    getReg22 e.regsD (regIndex .iodir s.params.dataPort) = 0xFF#8 →
    ∃ t, exec (.readInfo .present) s = .next t ∧ t.result = some .ok ∧
      let H := (List.range 0x180).map e.rom.read
      t.info.title = titleExtract s.params.titleCap H ∧ t.info.cartType = e.rom.read 0x147 ∧
      t.info.hasBattery = hasBattery (e.rom.read 0x147) ∧ t.info.isSuper = (e.rom.read 0x146 == 0x03#8) ∧
      ((e.rom.read 0x148).toNat ≤ 16 → t.info.romSize.toNat = 32768 * 2 ^ (e.rom.read 0x148).toNat) ∧
      t.info.romBanks.toNat = t.info.romSize.toNat / 32768 ∧
      t.info.ramSize = ramSize (e.rom.read 0x149) ∧ t.info.ramBanks.toNat = t.info.ramSize.toNat / 8192 ∧
      t.info.checksum.toNat = (∑ o ∈ Finset.Icc 0x134 0x14C, (e.rom.read o).toNat) % 256

/-- R104, R54: WRITE_BYTE makes the cartridge record one write of the byte to the address, when the strobe was not left
active, and changes no ROM byte. -/
def Obligations.IdealWriteByteIsRecordedOnce : Prop :=
  ∀ (a : Addr) (v : Byte) (s : State) (e : IdealEnv), s.busy = false → s.env = ⟨[], .ideal e⟩ →
    s.params.ctrlMap = .direct → s.hA.init = true → s.hD.init = true → s.ctrl.wr ≠ .high →
    ∃ t e', exec (.writeByte a v) s = .next t ∧ t.result = some .ok ∧ t.ctrl = ⟨.high, .low, .low⟩ ∧
      t.env = ⟨[], .ideal e'⟩ ∧ e'.writes = e.writes ++ [(a, v)] ∧ e'.rom = e.rom ∧
      getReg22 e'.regsD (regIndex .olat s.params.dataPort) = v ∧
      getReg22 e'.regsD (regIndex .olat (otherPort s.params.dataPort)) = 0x00#8
end

