-- ==== Sys2Proof/Laws/Memory.lean ====
section
/-!
SUPPORT. Memory: a read after a write, and that every memory operation keeps the canonical form.
-/

namespace Sys2Proof.Machine

@[simp] theorem Memory.read_nil (a : Nat) : Memory.read [] a = unlistedByte := rfl

theorem Memory.read_cons (b : Nat) (w : Byte) (m : Memory) (a : Nat) :
    Memory.read ((b, w) :: m) a = if a = b then w else Memory.read m a := rfl

theorem Memory.wf_nil : Memory.wf [] := by simp [Memory.wf]

theorem Memory.wf_tail {c : Host.Cell} {m : Memory} (hm : Memory.wf (c :: m)) : Memory.wf m :=
  ⟨(List.pairwise_cons.mp hm.1).2, fun x hx => hm.2 x (List.mem_cons_of_mem _ hx)⟩

/-- An address below every listed one reads as unlisted. -/
theorem Memory.read_of_lt_all {m : Memory} {a : Nat} (h : ∀ c ∈ m, a < c.1) : m.read a = unlistedByte := by
  induction m with
  | nil => rfl
  | cons c m ih =>
    obtain ⟨b, w⟩ := c
    have hb : a < b := h (b, w) (by simp)
    rw [Memory.read_cons, if_neg (by omega), ih fun c hc => h c (by simp [hc])]

/-- Every cell of a written memory is the written one or an old one. -/
theorem Memory.mem_write {m : Memory} {a : Nat} {v : Byte} {c : Host.Cell} (hc : c ∈ m.write a v) :
    (c = (a, v) ∧ v ≠ unlistedByte) ∨ c ∈ m := by
  induction m with
  | nil =>
    unfold Memory.write at hc
    split at hc <;> simp_all
  | cons d m ih =>
    obtain ⟨b, w⟩ := d
    unfold Memory.write at hc
    repeat' split at hc
    all_goals simp only [List.mem_cons] at hc ⊢
    · exact .inr hc
    · rcases hc with h | h | h
      · exact .inl ⟨h, ‹_›⟩
      · exact .inr (.inl h)
      · exact .inr (.inr h)
    · exact .inr (.inr hc)
    · rcases hc with h | h
      · exact .inl ⟨h, ‹_›⟩
      · exact .inr (.inr h)
    · rcases hc with h | h
      · exact .inr (.inl h)
      · rcases ih h with h | h
        · exact .inl h
        · exact .inr (.inr h)

/-- A write keeps the canonical form. -/
theorem Memory.write_wf {m : Memory} (hm : m.wf) (a : Nat) (v : Byte) : (m.write a v).wf := by
  induction m with
  | nil =>
    unfold Memory.write
    split <;> simp_all [Memory.wf]
  | cons d m ih =>
    obtain ⟨b, w⟩ := d
    have hw : w ≠ unlistedByte := hm.2 (b, w) (by simp)
    have hlt := (List.pairwise_cons.mp hm.1).1
    have htl := Memory.wf_tail hm
    unfold Memory.write
    split
    · rename_i hab
      split
      · exact hm
      · refine ⟨List.pairwise_cons.mpr ⟨fun c hc => ?_, hm.1⟩, fun c hc => ?_⟩
        · rcases List.mem_cons.mp hc with rfl | hc
          · exact hab
          · exact lt_trans hab (hlt c hc)
        · rcases List.mem_cons.mp hc with rfl | hc
          · assumption
          · exact hm.2 c hc
    · split
      · rename_i hab
        subst hab
        split
        · exact htl
        · refine ⟨List.pairwise_cons.mpr ⟨hlt, htl.1⟩, fun c hc => ?_⟩
          rcases List.mem_cons.mp hc with rfl | hc
          · assumption
          · exact htl.2 c hc
      · rename_i h₁ h₂
        have hi := ih htl
        refine ⟨List.pairwise_cons.mpr ⟨fun c hc => ?_, hi.1⟩, fun c hc => ?_⟩
        · rcases Memory.mem_write hc with ⟨rfl, -⟩ | hc
          · show b < a; omega
          · exact hlt c hc
        · rcases List.mem_cons.mp hc with rfl | hc
          · exact hw
          · exact hi.2 c hc

/-- A read after a write: the written byte at its address, every other address as before. -/
theorem Memory.read_write {m : Memory} (hm : m.wf) (a : Nat) (v : Byte) (x : Nat) :
    (m.write a v).read x = if x = a then v else m.read x := by
  induction m with
  | nil =>
    unfold Memory.write
    split
    · simp_all
    · simp [Memory.read_cons]
  | cons d m ih =>
    obtain ⟨b, w⟩ := d
    have hlt := (List.pairwise_cons.mp hm.1).1
    have htl := Memory.wf_tail hm
    unfold Memory.write
    split
    · rename_i hab
      split
      · rename_i hv
        split
        · rename_i hx
          subst hx
          rw [Memory.read_of_lt_all, hv]
          intro c hc
          rcases List.mem_cons.mp hc with rfl | hc
          · exact hab
          · exact lt_trans hab (hlt c hc)
        · rfl
      · rw [Memory.read_cons]
    · split
      · rename_i hab
        subst hab
        split
        · rename_i hv
          rw [Memory.read_cons]
          split
          · rename_i hx
            subst hx
            rw [Memory.read_of_lt_all (fun c hc => hlt c hc), hv]
          · rfl
        · rw [Memory.read_cons, Memory.read_cons]
          split <;> rfl
      · rw [Memory.read_cons, ih htl, Memory.read_cons]
        split
        · rename_i hxb
          rw [if_neg]
          omega
        · rfl

theorem Memory.writeList_wf {m : Memory} (hm : m.wf) (a : Nat) (vs : List Byte) : (m.writeList a vs).wf := by
  induction vs generalizing m a with
  | nil => exact hm
  | cons v vs ih => exact ih (Memory.write_wf hm a v) _

/-- A read after a run of writes from `a` on. -/
theorem Memory.read_writeList {m : Memory} (hm : m.wf) (a : Nat) (vs : List Byte) (x : Nat) :
    (m.writeList a vs).read x = if a ≤ x ∧ x < a + vs.length then vs.getD (x - a) unlistedByte else m.read x := by
  induction vs generalizing m a with
  | nil => simp [Memory.writeList]
  | cons v vs ih =>
    rw [Memory.writeList, ih (Memory.write_wf hm a v), Memory.read_write hm]
    simp only [List.length_cons]
    by_cases h₁ : x = a
    · subst h₁
      simp
    · by_cases h₂ : a + 1 ≤ x ∧ x < a + 1 + vs.length
      · rw [if_pos h₂, if_pos (by omega), show x - a = (x - (a + 1)) + 1 by omega, List.getD_cons_succ]
      · rw [if_neg h₂, if_neg h₁, if_neg (by omega)]

@[simp] theorem freeBytes_length (d k : Nat) : (freeBytes d k).length = k := by
  induction k generalizing d with
  | zero => rfl
  | succ k ih => simp [freeBytes, ih]

/-- The buffer of READ_BYTES keeps the canonical form. -/
theorem bufferAfter_wf {m : Memory} (hm : m.wf) (n : Nat) (got : List Byte) (d : Nat) : (bufferAfter m n got d).wf :=
  Memory.writeList_wf (Memory.writeList_wf hm _ _) _ _

/-- The bytes already read stay, and nothing at or above the length is touched. -/
theorem read_bufferAfter {m : Memory} (hm : m.wf) (n : Nat) (got : List Byte) (d x : Nat) (hn : got.length ≤ n) :
    (bufferAfter m n got d).read x =
      if x < got.length then got.getD x unlistedByte
      else if x < n then (freeBytes d (n - got.length)).getD (x - got.length) unlistedByte
      else m.read x := by
  rw [bufferAfter, Memory.read_writeList (Memory.writeList_wf hm _ _), Memory.read_writeList hm, freeBytes_length]
  split_ifs <;> first | rfl | omega

end Sys2Proof.Machine
end

