-- ==== Sys2Proof/Laws/State.lean ====
section
/-!
SUPPORT. One lemma per field per update of the state, so that no later proof unfolds a record update.
-/

namespace Sys2Proof.Machine

variable (s : State) (h k : Handle) (e : Event) (x : HandleState) (l : LineLevel) (i v : Byte) (bytes : List Byte)

/-! ### Reading a handle of an updated record -/

@[simp] theorem State.handle_with_params (y : Params) : State.handle { s with params := y } h = s.handle h := by cases h <;> rfl
@[simp] theorem State.handle_with_ctrl (y : CtrlLines) : State.handle { s with ctrl := y } h = s.handle h := by cases h <;> rfl
@[simp] theorem State.handle_with_phase (y : Phase) : State.handle { s with phase := y } h = s.handle h := by cases h <;> rfl
@[simp] theorem State.handle_with_trace (y : List Event) : State.handle { s with trace := y } h = s.handle h := by cases h <;> rfl
@[simp] theorem State.handle_with_result (y : Option OpResult) : State.handle { s with result := y } h = s.handle h := by cases h <;> rfl
@[simp] theorem State.handle_with_busy (y : Bool) : State.handle { s with busy := y } h = s.handle h := by cases h <;> rfl
@[simp] theorem State.handle_with_out (y : Byte) : State.handle { s with out := y } h = s.handle h := by cases h <;> rfl
@[simp] theorem State.handle_with_buf (y : Memory) : State.handle { s with buf := y } h = s.handle h := by cases h <;> rfl
@[simp] theorem State.handle_with_info (y : CartInfo) : State.handle { s with info := y } h = s.handle h := by cases h <;> rfl
@[simp] theorem State.handle_with_calls (y : List Call) : State.handle { s with calls := y } h = s.handle h := by cases h <;> rfl
@[simp] theorem State.handle_with_env (y : Env) : State.handle { s with env := y } h = s.handle h := by cases h <;> rfl
@[simp] theorem State.handle_with_draws (y : Nat) : State.handle { s with draws := y } h = s.handle h := by cases h <;> rfl

theorem State.handle_hA : s.handle .hA = s.hA := rfl
theorem State.handle_hD : s.handle .hD = s.hD := rfl

theorem State.handle_congr {s t : State} (hA : t.hA = s.hA) (hD : t.hD = s.hD) (h : Handle) : t.handle h = s.handle h := by
  cases h
  · exact hA
  · exact hD

/-! ### setHandle -/

@[simp] theorem State.setHandle_params : (s.setHandle h x).params = s.params := by cases h <;> rfl
@[simp] theorem State.setHandle_ctrl : (s.setHandle h x).ctrl = s.ctrl := by cases h <;> rfl
@[simp] theorem State.setHandle_phase : (s.setHandle h x).phase = s.phase := by cases h <;> rfl
@[simp] theorem State.setHandle_trace : (s.setHandle h x).trace = s.trace := by cases h <;> rfl
@[simp] theorem State.setHandle_result : (s.setHandle h x).result = s.result := by cases h <;> rfl
@[simp] theorem State.setHandle_busy : (s.setHandle h x).busy = s.busy := by cases h <;> rfl
@[simp] theorem State.setHandle_out : (s.setHandle h x).out = s.out := by cases h <;> rfl
@[simp] theorem State.setHandle_buf : (s.setHandle h x).buf = s.buf := by cases h <;> rfl
@[simp] theorem State.setHandle_info : (s.setHandle h x).info = s.info := by cases h <;> rfl
@[simp] theorem State.setHandle_calls : (s.setHandle h x).calls = s.calls := by cases h <;> rfl
@[simp] theorem State.setHandle_env : (s.setHandle h x).env = s.env := by cases h <;> rfl
@[simp] theorem State.setHandle_draws : (s.setHandle h x).draws = s.draws := by cases h <;> rfl
@[simp] theorem State.handle_setHandle : (s.setHandle h x).handle h = x := by cases h <;> rfl
@[simp] theorem State.handle_setHandle_other : (s.setHandle h x).handle (otherHandle h) = s.handle (otherHandle h) := by
  cases h <;> rfl
theorem State.handle_setHandle_ite : (s.setHandle h x).handle k = if k = h then x else s.handle k := by
  cases h <;> cases k <;> rfl
@[simp] theorem State.setHandle_handle : s.setHandle h (s.handle h) = s := by cases h <;> rfl
@[simp] theorem State.setHandle_setHandle (y : HandleState) : (s.setHandle h x).setHandle h y = s.setHandle h y := by
  cases h <;> rfl

/-! ### emit -/

@[simp] theorem State.emit_params : (s.emit e).params = s.params := rfl
@[simp] theorem State.emit_hA : (s.emit e).hA = s.hA := rfl
@[simp] theorem State.emit_hD : (s.emit e).hD = s.hD := rfl
@[simp] theorem State.emit_ctrl : (s.emit e).ctrl = s.ctrl := rfl
@[simp] theorem State.emit_phase : (s.emit e).phase = s.phase := rfl
@[simp] theorem State.emit_trace : (s.emit e).trace = s.trace ++ [e] := rfl
@[simp] theorem State.emit_result : (s.emit e).result = s.result := rfl
@[simp] theorem State.emit_busy : (s.emit e).busy = s.busy := rfl
@[simp] theorem State.emit_out : (s.emit e).out = s.out := rfl
@[simp] theorem State.emit_buf : (s.emit e).buf = s.buf := rfl
@[simp] theorem State.emit_info : (s.emit e).info = s.info := rfl
@[simp] theorem State.emit_calls : (s.emit e).calls = s.calls := rfl
@[simp] theorem State.emit_env : (s.emit e).env = s.env := rfl
@[simp] theorem State.emit_draws : (s.emit e).draws = s.draws := rfl
@[simp] theorem State.emit_handle : (s.emit e).handle h = s.handle h := by cases h <;> rfl

/-! ### setCslvl -/

@[simp] theorem State.setCslvl_params : (s.setCslvl h l).params = s.params := by cases h <;> rfl
@[simp] theorem State.setCslvl_ctrl : (s.setCslvl h l).ctrl = s.ctrl := by cases h <;> rfl
@[simp] theorem State.setCslvl_phase : (s.setCslvl h l).phase = s.phase := by cases h <;> rfl
@[simp] theorem State.setCslvl_trace : (s.setCslvl h l).trace = s.trace := by cases h <;> rfl
@[simp] theorem State.setCslvl_result : (s.setCslvl h l).result = s.result := by cases h <;> rfl
@[simp] theorem State.setCslvl_busy : (s.setCslvl h l).busy = s.busy := by cases h <;> rfl
@[simp] theorem State.setCslvl_out : (s.setCslvl h l).out = s.out := by cases h <;> rfl
@[simp] theorem State.setCslvl_buf : (s.setCslvl h l).buf = s.buf := by cases h <;> rfl
@[simp] theorem State.setCslvl_info : (s.setCslvl h l).info = s.info := by cases h <;> rfl
@[simp] theorem State.setCslvl_calls : (s.setCslvl h l).calls = s.calls := by cases h <;> rfl
@[simp] theorem State.setCslvl_env : (s.setCslvl h l).env = s.env := by cases h <;> rfl
@[simp] theorem State.setCslvl_draws : (s.setCslvl h l).draws = s.draws := by cases h <;> rfl
@[simp] theorem State.handle_setCslvl : (s.setCslvl h l).handle h = { s.handle h with cslvl := l } := by
  cases h <;> rfl
@[simp] theorem State.handle_setCslvl_other : (s.setCslvl h l).handle (otherHandle h) = s.handle (otherHandle h) := by
  cases h <;> rfl

/-! ### setCache -/

@[simp] theorem State.setCache_params : (s.setCache h i v).params = s.params := by cases h <;> rfl
@[simp] theorem State.setCache_ctrl : (s.setCache h i v).ctrl = s.ctrl := by cases h <;> rfl
@[simp] theorem State.setCache_phase : (s.setCache h i v).phase = s.phase := by cases h <;> rfl
@[simp] theorem State.setCache_trace : (s.setCache h i v).trace = s.trace := by cases h <;> rfl
@[simp] theorem State.setCache_result : (s.setCache h i v).result = s.result := by cases h <;> rfl
@[simp] theorem State.setCache_busy : (s.setCache h i v).busy = s.busy := by cases h <;> rfl
@[simp] theorem State.setCache_out : (s.setCache h i v).out = s.out := by cases h <;> rfl
@[simp] theorem State.setCache_buf : (s.setCache h i v).buf = s.buf := by cases h <;> rfl
@[simp] theorem State.setCache_info : (s.setCache h i v).info = s.info := by cases h <;> rfl
@[simp] theorem State.setCache_calls : (s.setCache h i v).calls = s.calls := by cases h <;> rfl
@[simp] theorem State.setCache_env : (s.setCache h i v).env = s.env := by cases h <;> rfl
@[simp] theorem State.setCache_draws : (s.setCache h i v).draws = s.draws := by cases h <;> rfl
@[simp] theorem State.handle_setCache : (s.setCache h i v).handle h =
    { s.handle h with cache := setReg22 (s.handle h).cache i v } := by cases h <;> rfl
@[simp] theorem State.handle_setCache_other : (s.setCache h i v).handle (otherHandle h) = s.handle (otherHandle h) := by
  cases h <;> rfl

/-! ### select, transmit, transmitReceive, deselect -/

@[simp] theorem State.select_params : (s.select h).params = s.params := by cases h <;> rfl
@[simp] theorem State.deselect_params : (s.deselect h).params = s.params := by cases h <;> rfl
@[simp] theorem State.transmit_params : (s.transmit h bytes).params = s.params := rfl
@[simp] theorem State.transmitReceive_params : (s.transmitReceive h bytes).params = s.params := rfl
@[simp] theorem State.select_ctrl : (s.select h).ctrl = s.ctrl := by cases h <;> rfl
@[simp] theorem State.deselect_ctrl : (s.deselect h).ctrl = s.ctrl := by cases h <;> rfl
@[simp] theorem State.transmit_ctrl : (s.transmit h bytes).ctrl = s.ctrl := rfl
@[simp] theorem State.transmitReceive_ctrl : (s.transmitReceive h bytes).ctrl = s.ctrl := rfl
@[simp] theorem State.select_phase : (s.select h).phase = s.phase := by cases h <;> rfl
@[simp] theorem State.deselect_phase : (s.deselect h).phase = s.phase := by cases h <;> rfl
@[simp] theorem State.transmit_phase : (s.transmit h bytes).phase = s.phase := rfl
@[simp] theorem State.transmitReceive_phase : (s.transmitReceive h bytes).phase = s.phase := rfl
@[simp] theorem State.select_trace : (s.select h).trace = s.trace ++ [.acquire, .csDrive h .low] := by cases h <;> simp [State.select]
@[simp] theorem State.deselect_trace : (s.deselect h).trace = s.trace ++ [.csDrive h .high, .release] := by cases h <;> simp [State.deselect]
@[simp] theorem State.transmit_trace : (s.transmit h bytes).trace = s.trace ++ [.tx h bytes (txAnswer h bytes s)] := rfl
@[simp] theorem State.transmitReceive_trace : (s.transmitReceive h bytes).trace =
    s.trace ++ [.txRx h bytes 1 ((rxAnswer h bytes s).map fun b => [b])] := rfl
@[simp] theorem State.select_result : (s.select h).result = s.result := by cases h <;> rfl
@[simp] theorem State.deselect_result : (s.deselect h).result = s.result := by cases h <;> rfl
@[simp] theorem State.transmit_result : (s.transmit h bytes).result = s.result := rfl
@[simp] theorem State.transmitReceive_result : (s.transmitReceive h bytes).result = s.result := rfl
@[simp] theorem State.select_busy : (s.select h).busy = s.busy := by cases h <;> rfl
@[simp] theorem State.deselect_busy : (s.deselect h).busy = s.busy := by cases h <;> rfl
@[simp] theorem State.transmit_busy : (s.transmit h bytes).busy = s.busy := rfl
@[simp] theorem State.transmitReceive_busy : (s.transmitReceive h bytes).busy = s.busy := rfl
@[simp] theorem State.select_out : (s.select h).out = s.out := by cases h <;> rfl
@[simp] theorem State.deselect_out : (s.deselect h).out = s.out := by cases h <;> rfl
@[simp] theorem State.transmit_out : (s.transmit h bytes).out = s.out := rfl
@[simp] theorem State.transmitReceive_out : (s.transmitReceive h bytes).out = s.out := rfl
@[simp] theorem State.select_buf : (s.select h).buf = s.buf := by cases h <;> rfl
@[simp] theorem State.deselect_buf : (s.deselect h).buf = s.buf := by cases h <;> rfl
@[simp] theorem State.transmit_buf : (s.transmit h bytes).buf = s.buf := rfl
@[simp] theorem State.transmitReceive_buf : (s.transmitReceive h bytes).buf = s.buf := rfl
@[simp] theorem State.select_info : (s.select h).info = s.info := by cases h <;> rfl
@[simp] theorem State.deselect_info : (s.deselect h).info = s.info := by cases h <;> rfl
@[simp] theorem State.transmit_info : (s.transmit h bytes).info = s.info := rfl
@[simp] theorem State.transmitReceive_info : (s.transmitReceive h bytes).info = s.info := rfl
@[simp] theorem State.select_calls : (s.select h).calls = s.calls := by cases h <;> rfl
@[simp] theorem State.deselect_calls : (s.deselect h).calls = s.calls := by cases h <;> rfl
@[simp] theorem State.transmit_calls : (s.transmit h bytes).calls = s.calls := rfl
@[simp] theorem State.transmitReceive_calls : (s.transmitReceive h bytes).calls = s.calls := rfl
@[simp] theorem State.select_env : (s.select h).env = s.env := by cases h <;> rfl
@[simp] theorem State.deselect_env : (s.deselect h).env = s.env := by cases h <;> rfl
@[simp] theorem State.transmit_env : (s.transmit h bytes).env = s.env.after h bytes (chipTakes (txAnswer h bytes s) s) := rfl
@[simp] theorem State.transmitReceive_env : (s.transmitReceive h bytes).env = s.env.after h bytes false := rfl
@[simp] theorem State.select_draws : (s.select h).draws = s.draws := by cases h <;> rfl
@[simp] theorem State.deselect_draws : (s.deselect h).draws = s.draws := by cases h <;> rfl
@[simp] theorem State.transmit_draws : (s.transmit h bytes).draws = s.draws + 1 := rfl
@[simp] theorem State.transmitReceive_draws : (s.transmitReceive h bytes).draws = s.draws + 1 := rfl
@[simp] theorem State.handle_select : (s.select h).handle h = { s.handle h with cslvl := .low } := by cases h <;> rfl
@[simp] theorem State.handle_select_other : (s.select h).handle (otherHandle h) = s.handle (otherHandle h) := by
  cases h <;> rfl
@[simp] theorem State.handle_deselect : (s.deselect h).handle h = { s.handle h with cslvl := .high } := by
  cases h <;> rfl
@[simp] theorem State.handle_deselect_other : (s.deselect h).handle (otherHandle h) = s.handle (otherHandle h) := by
  cases h <;> rfl
@[simp] theorem State.handle_transmit : (s.transmit h bytes).handle k = s.handle k := by cases k <;> rfl
@[simp] theorem State.handle_transmitReceive : (s.transmitReceive h bytes).handle k = s.handle k := by cases k <;> rfl

/-! ### setCtrl -/

@[simp] theorem State.setCtrl_params (line : Line) : (s.setCtrl line l).params = s.params := by
  unfold State.setCtrl; dsimp only; split <;> (try split) <;> rfl
@[simp] theorem State.setCtrl_hA (line : Line) : (s.setCtrl line l).hA = s.hA := by
  unfold State.setCtrl; dsimp only; split <;> (try split) <;> rfl
@[simp] theorem State.setCtrl_hD (line : Line) : (s.setCtrl line l).hD = s.hD := by
  unfold State.setCtrl; dsimp only; split <;> (try split) <;> rfl
@[simp] theorem State.setCtrl_phase (line : Line) : (s.setCtrl line l).phase = s.phase := by
  unfold State.setCtrl; dsimp only; split <;> (try split) <;> rfl
@[simp] theorem State.setCtrl_trace (line : Line) : (s.setCtrl line l).trace = s.trace := by
  unfold State.setCtrl; dsimp only; split <;> (try split) <;> rfl
@[simp] theorem State.setCtrl_result (line : Line) : (s.setCtrl line l).result = s.result := by
  unfold State.setCtrl; dsimp only; split <;> (try split) <;> rfl
@[simp] theorem State.setCtrl_busy (line : Line) : (s.setCtrl line l).busy = s.busy := by
  unfold State.setCtrl; dsimp only; split <;> (try split) <;> rfl
@[simp] theorem State.setCtrl_out (line : Line) : (s.setCtrl line l).out = s.out := by
  unfold State.setCtrl; dsimp only; split <;> (try split) <;> rfl
@[simp] theorem State.setCtrl_buf (line : Line) : (s.setCtrl line l).buf = s.buf := by
  unfold State.setCtrl; dsimp only; split <;> (try split) <;> rfl
@[simp] theorem State.setCtrl_info (line : Line) : (s.setCtrl line l).info = s.info := by
  unfold State.setCtrl; dsimp only; split <;> (try split) <;> rfl
@[simp] theorem State.setCtrl_calls (line : Line) : (s.setCtrl line l).calls = s.calls := by
  unfold State.setCtrl; dsimp only; split <;> (try split) <;> rfl
@[simp] theorem State.setCtrl_draws (line : Line) : (s.setCtrl line l).draws = s.draws := by
  unfold State.setCtrl; dsimp only; split <;> (try split) <;> rfl
@[simp] theorem State.setCtrl_ctrl (line : Line) : (s.setCtrl line l).ctrl = s.ctrl.set line l := by
  unfold State.setCtrl; dsimp only; split <;> (try split) <;> rfl
@[simp] theorem State.handle_setCtrl (line : Line) : (s.setCtrl line l).handle h = s.handle h := by
  cases h <;> simp [State.handle]
@[simp] theorem CtrlLines.get_set (c : CtrlLines) (line : Line) : (c.set line l).get line = l := by cases line <;> rfl
theorem CtrlLines.get_set_ite (c : CtrlLines) (line line' : Line) :
    (c.set line l).get line' = if line' = line then l else c.get line' := by cases line <;> cases line' <;> rfl
@[simp] theorem CtrlLines.set_set (c : CtrlLines) (line : Line) (l' : LineLevel) :
    (c.set line l).set line l' = c.set line l' := by cases line <;> rfl

/-! ### INIT and DESTROY -/

@[simp] theorem adoptArguments_params (a : ChipAddr) : (adoptArguments h a s).params = s.params := by cases h <;> rfl
@[simp] theorem markInitialized_params : (markInitialized h s).params = s.params := by cases h <;> rfl
@[simp] theorem destroyHandle_params : (destroyHandle h s).params = s.params := by
  unfold destroyHandle; cases h <;> split <;> rfl
@[simp] theorem adoptArguments_ctrl (a : ChipAddr) : (adoptArguments h a s).ctrl = s.ctrl := by cases h <;> rfl
@[simp] theorem markInitialized_ctrl : (markInitialized h s).ctrl = s.ctrl := by cases h <;> rfl
@[simp] theorem destroyHandle_ctrl : (destroyHandle h s).ctrl = s.ctrl := by
  unfold destroyHandle; cases h <;> split <;> rfl
@[simp] theorem adoptArguments_phase (a : ChipAddr) : (adoptArguments h a s).phase = s.phase := by cases h <;> rfl
@[simp] theorem markInitialized_phase : (markInitialized h s).phase = s.phase := by cases h <;> rfl
@[simp] theorem destroyHandle_phase : (destroyHandle h s).phase = s.phase := by
  unfold destroyHandle; cases h <;> split <;> rfl
@[simp] theorem adoptArguments_trace (a : ChipAddr) :
    (adoptArguments h a s).trace = s.trace ++ [.csConfig h .outputHigh] := by cases h <;> rfl
@[simp] theorem destroyHandle_trace : (destroyHandle h s).trace =
    s.trace ++ if (s.handle h).cs.isSome then [.csConfig h .released] else [] := by
  unfold destroyHandle; cases h <;> split <;> simp [*]
@[simp] theorem markInitialized_trace : (markInitialized h s).trace = s.trace := by cases h <;> rfl
@[simp] theorem adoptArguments_result (a : ChipAddr) : (adoptArguments h a s).result = s.result := by cases h <;> rfl
@[simp] theorem markInitialized_result : (markInitialized h s).result = s.result := by cases h <;> rfl
@[simp] theorem destroyHandle_result : (destroyHandle h s).result = s.result := by
  unfold destroyHandle; cases h <;> split <;> rfl
@[simp] theorem adoptArguments_busy (a : ChipAddr) : (adoptArguments h a s).busy = s.busy := by cases h <;> rfl
@[simp] theorem markInitialized_busy : (markInitialized h s).busy = s.busy := by cases h <;> rfl
@[simp] theorem destroyHandle_busy : (destroyHandle h s).busy = s.busy := by
  unfold destroyHandle; cases h <;> split <;> rfl
@[simp] theorem adoptArguments_out (a : ChipAddr) : (adoptArguments h a s).out = s.out := by cases h <;> rfl
@[simp] theorem markInitialized_out : (markInitialized h s).out = s.out := by cases h <;> rfl
@[simp] theorem destroyHandle_out : (destroyHandle h s).out = s.out := by
  unfold destroyHandle; cases h <;> split <;> rfl
@[simp] theorem adoptArguments_buf (a : ChipAddr) : (adoptArguments h a s).buf = s.buf := by cases h <;> rfl
@[simp] theorem markInitialized_buf : (markInitialized h s).buf = s.buf := by cases h <;> rfl
@[simp] theorem destroyHandle_buf : (destroyHandle h s).buf = s.buf := by
  unfold destroyHandle; cases h <;> split <;> rfl
@[simp] theorem adoptArguments_info (a : ChipAddr) : (adoptArguments h a s).info = s.info := by cases h <;> rfl
@[simp] theorem markInitialized_info : (markInitialized h s).info = s.info := by cases h <;> rfl
@[simp] theorem destroyHandle_info : (destroyHandle h s).info = s.info := by
  unfold destroyHandle; cases h <;> split <;> rfl
@[simp] theorem adoptArguments_calls (a : ChipAddr) : (adoptArguments h a s).calls = s.calls := by cases h <;> rfl
@[simp] theorem markInitialized_calls : (markInitialized h s).calls = s.calls := by cases h <;> rfl
@[simp] theorem destroyHandle_calls : (destroyHandle h s).calls = s.calls := by
  unfold destroyHandle; cases h <;> split <;> rfl
@[simp] theorem adoptArguments_env (a : ChipAddr) : (adoptArguments h a s).env = s.env := by cases h <;> rfl
@[simp] theorem markInitialized_env : (markInitialized h s).env = s.env := by cases h <;> rfl
@[simp] theorem destroyHandle_env : (destroyHandle h s).env = s.env := by
  unfold destroyHandle; cases h <;> split <;> rfl
@[simp] theorem adoptArguments_draws (a : ChipAddr) : (adoptArguments h a s).draws = s.draws := by cases h <;> rfl
@[simp] theorem markInitialized_draws : (markInitialized h s).draws = s.draws := by cases h <;> rfl
@[simp] theorem destroyHandle_draws : (destroyHandle h s).draws = s.draws := by
  unfold destroyHandle; cases h <;> split <;> rfl
@[simp] theorem handle_adoptArguments (a : ChipAddr) : (adoptArguments h a s).handle h =
    { s.handle h with chipAddr := a, transport := .present, cs := some (csLineOf s.params h),
                      cscfg := .outputHigh, cslvl := .high } := by cases h <;> rfl
@[simp] theorem handle_adoptArguments_other (a : ChipAddr) :
    (adoptArguments h a s).handle (otherHandle h) = s.handle (otherHandle h) := by cases h <;> rfl
@[simp] theorem handle_markInitialized :
    (markInitialized h s).handle h = { s.handle h with cache := clearedCache, init := true } := by cases h <;> rfl
@[simp] theorem handle_markInitialized_other :
    (markInitialized h s).handle (otherHandle h) = s.handle (otherHandle h) := by cases h <;> rfl
@[simp] theorem handle_destroyHandle : (destroyHandle h s).handle h =
    { s.handle h with cscfg := .released, cslvl := .unknown, cache := clearedCache, init := false } := by
  unfold destroyHandle; cases h <;> split <;> rfl
@[simp] theorem handle_destroyHandle_other :
    (destroyHandle h s).handle (otherHandle h) = s.handle (otherHandle h) := by
  unfold destroyHandle; cases h <;> split <;> rfl

/-! ### logMismatch -/

@[simp] theorem logMismatch_params (p : Port) (sc : Scope) (a b : Byte) : (logMismatch h p sc a b s).params = s.params := by
  unfold logMismatch; split <;> rfl
@[simp] theorem logMismatch_hA (p : Port) (sc : Scope) (a b : Byte) : (logMismatch h p sc a b s).hA = s.hA := by
  unfold logMismatch; split <;> rfl
@[simp] theorem logMismatch_hD (p : Port) (sc : Scope) (a b : Byte) : (logMismatch h p sc a b s).hD = s.hD := by
  unfold logMismatch; split <;> rfl
@[simp] theorem logMismatch_ctrl (p : Port) (sc : Scope) (a b : Byte) : (logMismatch h p sc a b s).ctrl = s.ctrl := by
  unfold logMismatch; split <;> rfl
@[simp] theorem logMismatch_phase (p : Port) (sc : Scope) (a b : Byte) : (logMismatch h p sc a b s).phase = s.phase := by
  unfold logMismatch; split <;> rfl
@[simp] theorem logMismatch_trace (p : Port) (sc : Scope) (a b : Byte) : (logMismatch h p sc a b s).trace =
    s.trace ++ if b = a then [] else [.diag (.mismatch h p sc a b)] := by
  unfold logMismatch; split <;> simp
@[simp] theorem logMismatch_result (p : Port) (sc : Scope) (a b : Byte) : (logMismatch h p sc a b s).result = s.result := by
  unfold logMismatch; split <;> rfl
@[simp] theorem logMismatch_busy (p : Port) (sc : Scope) (a b : Byte) : (logMismatch h p sc a b s).busy = s.busy := by
  unfold logMismatch; split <;> rfl
@[simp] theorem logMismatch_out (p : Port) (sc : Scope) (a b : Byte) : (logMismatch h p sc a b s).out = s.out := by
  unfold logMismatch; split <;> rfl
@[simp] theorem logMismatch_buf (p : Port) (sc : Scope) (a b : Byte) : (logMismatch h p sc a b s).buf = s.buf := by
  unfold logMismatch; split <;> rfl
@[simp] theorem logMismatch_info (p : Port) (sc : Scope) (a b : Byte) : (logMismatch h p sc a b s).info = s.info := by
  unfold logMismatch; split <;> rfl
@[simp] theorem logMismatch_calls (p : Port) (sc : Scope) (a b : Byte) : (logMismatch h p sc a b s).calls = s.calls := by
  unfold logMismatch; split <;> rfl
@[simp] theorem logMismatch_env (p : Port) (sc : Scope) (a b : Byte) : (logMismatch h p sc a b s).env = s.env := by
  unfold logMismatch; split <;> rfl
@[simp] theorem logMismatch_draws (p : Port) (sc : Scope) (a b : Byte) : (logMismatch h p sc a b s).draws = s.draws := by
  unfold logMismatch; split <;> rfl
@[simp] theorem handle_logMismatch (p : Port) (sc : Scope) (a b : Byte) : (logMismatch h p sc a b s).handle k = s.handle k := by
  unfold logMismatch; split <;> simp

/-- Any handle is one of the two. -/
theorem otherHandle_cases : k = h ∨ k = otherHandle h := by cases h <;> cases k <;> simp [otherHandle]

end Sys2Proof.Machine
end

