-- ==== Sys2Proof/Laws/Ops.lean ====
section
/-!
SUPPORT. One spec lemma per shared operation: what a transaction, a register access and a soft verification can do, and
what they leave alone.
-/

namespace Sys2Proof.Machine

variable {α β : Type}

/-! ### Running an operation -/

/-- The state an operation ends in, whether it succeeds or fails. -/
def after : EStateM.Result Cause State α → State
  | .ok _ s => s
  | .error _ s => s

@[simp] theorem after_ok (a : α) (s : State) : after (.ok a s : EStateM.Result Cause State α) = s := rfl
@[simp] theorem after_error (c : Cause) (s : State) : after (.error c s : EStateM.Result Cause State α) = s := rfl

theorem bind_apply (x : Op α) (f : α → Op β) (s : State) :
    (x >>= f) s = match x s with
      | .ok a t => f a t
      | .error c t => .error c t := by
  change EStateM.bind x f s = _
  unfold EStateM.bind
  cases x s <;> rfl

@[simp] theorem pure_apply (a : α) (s : State) : (pure a : Op α) s = .ok a s := rfl
@[simp] theorem raise_apply (c : Cause) (s : State) : (raise c : Op α) s = .error c s := rfl
@[simp] theorem update_apply (f : State → State) (s : State) : update f s = .ok () (f s) := rfl
@[simp] theorem getParams_apply (s : State) : getParams s = .ok s.params s := rfl

theorem bind_ok {x : Op α} {f : α → Op β} {s t : State} {a : α} (h : x s = .ok a t) : (x >>= f) s = f a t := by
  rw [bind_apply, h]

theorem bind_error {x : Op α} {f : α → Op β} {s t : State} {c : Cause} (h : x s = .error c t) :
    (x >>= f) s = .error c t := by
  rw [bind_apply, h]

@[simp] theorem update_bind (f : State → State) (g : Unit → Op β) (s : State) : (update f >>= g) s = g () (f s) := rfl
@[simp] theorem getParams_bind (g : Params → Op β) (s : State) : (getParams >>= g) s = g s.params s := rfl

/-! ### What a register access leaves alone -/

/-- At most the handle `h`, the trace, the environment and the count of free values differ, and of the handle only the
cache and the chip-select level. -/
structure OnlyHandle (h : Handle) (s t : State) : Prop where
  params : t.params = s.params
  ctrl : t.ctrl = s.ctrl
  phase : t.phase = s.phase
  result : t.result = s.result
  busy : t.busy = s.busy
  out : t.out = s.out
  buf : t.buf = s.buf
  info : t.info = s.info
  calls : t.calls = s.calls
  other : t.handle (otherHandle h) = s.handle (otherHandle h)
  handle : HandleKept (s.handle h) (t.handle h)

theorem OnlyHandle.refl (h : Handle) (s : State) : OnlyHandle h s s :=
  ⟨rfl, rfl, rfl, rfl, rfl, rfl, rfl, rfl, rfl, rfl, ⟨rfl, rfl, rfl, rfl, rfl⟩⟩

theorem OnlyHandle.trans {h : Handle} {s t u : State} (a : OnlyHandle h s t) (b : OnlyHandle h t u) :
    OnlyHandle h s u where
  params := b.params.trans a.params
  ctrl := b.ctrl.trans a.ctrl
  phase := b.phase.trans a.phase
  result := b.result.trans a.result
  busy := b.busy.trans a.busy
  out := b.out.trans a.out
  buf := b.buf.trans a.buf
  info := b.info.trans a.info
  calls := b.calls.trans a.calls
  other := b.other.trans a.other
  handle := ⟨b.handle.1.trans a.handle.1, b.handle.2.1.trans a.handle.2.1, b.handle.2.2.1.trans a.handle.2.2.1,
    b.handle.2.2.2.1.trans a.handle.2.2.2.1, b.handle.2.2.2.2.trans a.handle.2.2.2.2⟩

/-! ### Transactions (40_register_driver.md R85) -/

/-- The state after a format-W transaction, whatever the answer. -/
def State.afterW (h : Handle) (bytes : List Byte) (s : State) : State := ((s.select h).transmit h bytes).deselect h

/-- The state after a format-R transaction, whatever the answer. -/
def State.afterR (h : Handle) (bytes : List Byte) (s : State) : State :=
  ((s.select h).transmitReceive h bytes).deselect h

theorem transactW_apply (h : Handle) (bytes : List Byte) (s : State) :
    transactW h bytes s =
      if txAnswer h bytes (s.select h) then .ok () (s.afterW h bytes) else .error .txFail (s.afterW h bytes) := rfl

theorem transactR_apply (h : Handle) (bytes : List Byte) (s : State) :
    transactR h bytes s =
      match rxAnswer h bytes (s.select h) with
      | some b => .ok b (s.afterR h bytes)
      | none => .error .txRxFail (s.afterR h bytes) := rfl

@[simp] theorem afterW_trace (h : Handle) (bytes : List Byte) (s : State) :
    (s.afterW h bytes).trace = s.trace ++ wEvents h bytes (txAnswer h bytes (s.select h)) := by
  simp [State.afterW, wEvents]

@[simp] theorem afterR_trace (h : Handle) (bytes : List Byte) (s : State) :
    (s.afterR h bytes).trace = s.trace ++ rEvents h bytes (rxAnswer h bytes (s.select h)) := by
  simp [State.afterR, rEvents]

@[simp] theorem handle_afterW (h : Handle) (bytes : List Byte) (s : State) :
    (s.afterW h bytes).handle h = { s.handle h with cslvl := .high } := by simp [State.afterW]

@[simp] theorem handle_afterR (h : Handle) (bytes : List Byte) (s : State) :
    (s.afterR h bytes).handle h = { s.handle h with cslvl := .high } := by simp [State.afterR]

theorem afterW_only (h : Handle) (bytes : List Byte) (s : State) : OnlyHandle h s (s.afterW h bytes) := by
  constructor <;> simp [State.afterW, HandleKept]

theorem afterR_only (h : Handle) (bytes : List Byte) (s : State) : OnlyHandle h s (s.afterR h bytes) := by
  constructor <;> simp [State.afterR, HandleKept]

/-! ### WRITE_REG and READ_REG (40_register_driver.md R87, R88) -/

theorem writeRegister_uninitialized {h : Handle} {s : State} (hi : (s.handle h).init = false) (i v : Byte) :
    writeRegister h i v s = .error .notInitialized s := by
  simp [writeRegister, hi]

theorem readRegister_uninitialized {h : Handle} {s : State} (hi : (s.handle h).init = false) (i : Byte) :
    readRegister h i s = .error .notInitialized s := by
  simp [readRegister, hi]

theorem writeRegister_apply {h : Handle} {s : State} (hi : (s.handle h).init = true) (i v : Byte) :
    writeRegister h i v s =
      if txAnswer h (frameW (s.handle h).chipAddr i v) (s.select h)
      then .ok () ((s.afterW h (frameW (s.handle h).chipAddr i v)).setCache h i v)
      else .error .txFail (s.afterW h (frameW (s.handle h).chipAddr i v)) := by
  simp only [writeRegister, hi, if_true, bind_apply, transactW_apply]
  cases txAnswer h (frameW (s.handle h).chipAddr i v) (s.select h) <;> rfl

theorem readRegister_apply {h : Handle} {s : State} (hi : (s.handle h).init = true) (i : Byte) :
    readRegister h i s =
      match rxAnswer h (frameR (s.handle h).chipAddr i) (s.select h) with
      | some b => .ok b (s.afterR h (frameR (s.handle h).chipAddr i))
      | none => .error .txRxFail (s.afterR h (frameR (s.handle h).chipAddr i)) := by
  simp only [readRegister, hi, if_true, transactR_apply]

theorem setCache_only (h : Handle) (i v : Byte) (s : State) : OnlyHandle h s (s.setCache h i v) := by
  constructor <;> simp [HandleKept]

/-- A register write that succeeds. -/
theorem writeRegister_ok {h : Handle} {i v : Byte} {s t : State} {u : Unit} (e : writeRegister h i v s = .ok u t) :
    (s.handle h).init = true ∧ OnlyHandle h s t ∧
      t.trace = s.trace ++ wEvents h (frameW (s.handle h).chipAddr i v) true ∧
      (t.handle h).cslvl = .high ∧ (t.handle h).cache = setReg22 (s.handle h).cache i v := by
  cases hi : (s.handle h).init
  · rw [writeRegister_uninitialized hi] at e
    cases e
  · rw [writeRegister_apply hi] at e
    split at e
    · rename_i ha
      cases e
      exact ⟨rfl, (afterW_only ..).trans (setCache_only ..), by simp [ha], by simp, by simp⟩
    · cases e

/-- A register write that fails: before any event on an uninitialized handle, else after the whole transaction with the
cache unchanged. -/
theorem writeRegister_error {h : Handle} {i v : Byte} {s t : State} {c : Cause}
    (e : writeRegister h i v s = .error c t) :
    ((s.handle h).init = false ∧ c = .notInitialized ∧ t = s) ∨
    ((s.handle h).init = true ∧ c = .txFail ∧ OnlyHandle h s t ∧
      t.trace = s.trace ++ wEvents h (frameW (s.handle h).chipAddr i v) false ∧
      (t.handle h).cslvl = .high ∧ (t.handle h).cache = (s.handle h).cache) := by
  cases hi : (s.handle h).init
  · rw [writeRegister_uninitialized hi] at e
    cases e
    exact .inl ⟨rfl, rfl, rfl⟩
  · rw [writeRegister_apply hi] at e
    split at e
    · cases e
    · rename_i ha
      cases e
      exact .inr ⟨rfl, rfl, afterW_only .., by simp [ha], by simp, by simp⟩

/-- A register read that succeeds. -/
theorem readRegister_ok {h : Handle} {i b : Byte} {s t : State} (e : readRegister h i s = .ok b t) :
    (s.handle h).init = true ∧ OnlyHandle h s t ∧
      t.trace = s.trace ++ rEvents h (frameR (s.handle h).chipAddr i) (some b) ∧
      (t.handle h).cslvl = .high ∧ (t.handle h).cache = (s.handle h).cache := by
  cases hi : (s.handle h).init
  · rw [readRegister_uninitialized hi] at e
    cases e
  · rw [readRegister_apply hi] at e
    split at e
    · rename_i ha
      cases e
      exact ⟨rfl, afterR_only .., by simp [ha], by simp, by simp⟩
    · cases e

/-- A register read that fails. -/
theorem readRegister_error {h : Handle} {i : Byte} {s t : State} {c : Cause} (e : readRegister h i s = .error c t) :
    ((s.handle h).init = false ∧ c = .notInitialized ∧ t = s) ∨
    ((s.handle h).init = true ∧ c = .txRxFail ∧ OnlyHandle h s t ∧
      t.trace = s.trace ++ rEvents h (frameR (s.handle h).chipAddr i) none ∧
      (t.handle h).cslvl = .high ∧ (t.handle h).cache = (s.handle h).cache) := by
  cases hi : (s.handle h).init
  · rw [readRegister_uninitialized hi] at e
    cases e
    exact .inl ⟨rfl, rfl, rfl⟩
  · rw [readRegister_apply hi] at e
    split at e
    · cases e
    · rename_i ha
      cases e
      exact .inr ⟨rfl, rfl, afterR_only .., by simp [ha], by simp, by simp⟩

/-! ### The soft verification (41_port_pin.md R92) -/

theorem logMismatch_only (h k : Handle) (p : Port) (sc : Scope) (a b : Byte) (s : State) :
    OnlyHandle k s (logMismatch h p sc a b s) := by
  constructor <;> simp [HandleKept]

/-- A soft verification that succeeds: a read with its diagnostic, or a failed read where VERIFY_READ_FAIL is `Soft`. -/
theorem softVerify_ok {h : Handle} {p : Port} {sc : Scope} {x : Byte} {s t : State} {u : Unit}
    (hi : (s.handle h).init = true) (e : softVerify h p sc x s = .ok u t) :
    OnlyHandle h s t ∧ (t.handle h).cslvl = .high ∧ (t.handle h).cache = (s.handle h).cache ∧
      ∃ g : Option Byte, t.trace = s.trace ++ verifyEvents h (s.handle h).chipAddr p sc x g ∧
        (g = none → s.params.verifyReadFail = .soft) := by
  unfold softVerify at e
  split at e
  · rename_i g s' hr
    cases e
    obtain ⟨-, h₁, h₂, h₃, h₄⟩ := readRegister_ok hr
    refine ⟨h₁.trans (logMismatch_only ..), by simp [h₃], by simp [h₄], some g, ?_, by simp⟩
    simp [h₂, verifyEvents]
  · rename_i c s' hr
    rcases readRegister_error hr with ⟨h₀, -⟩ | ⟨-, -, h₁, h₂, h₃, h₄⟩
    · simp [hi] at h₀
    · split at e
      · cases e
      · rename_i hv
        cases e
        exact ⟨h₁, h₃, h₄, none, by simp [h₂, verifyEvents], fun _ => by rw [← h₁.params, hv]⟩

/-- A soft verification that fails: its read failed and VERIFY_READ_FAIL is `Fail`. -/
theorem softVerify_error {h : Handle} {p : Port} {sc : Scope} {x : Byte} {s t : State} {c : Cause}
    (hi : (s.handle h).init = true) (e : softVerify h p sc x s = .error c t) :
    c = .txRxFail ∧ s.params.verifyReadFail = .fail ∧ OnlyHandle h s t ∧ (t.handle h).cslvl = .high ∧
      (t.handle h).cache = (s.handle h).cache ∧
      t.trace = s.trace ++ rEvents h (frameR (s.handle h).chipAddr (regIndex .gpio p)) none := by
  unfold softVerify at e
  split at e
  · cases e
  · rename_i c' s' hr
    rcases readRegister_error hr with ⟨h₀, -⟩ | ⟨-, hc, h₁, h₂, h₃, h₄⟩
    · simp [hi] at h₀
    · split at e
      · rename_i hv
        cases e
        exact ⟨hc, by rw [← h₁.params, hv], h₁, h₃, h₄, h₂⟩
      · cases e

/-! ### The end of a caller operation (60_exceptions.md R122, R127) -/

theorem call_next {body : Op OpResult} {s : State} (hb : s.busy = false) :
    call none body s = .next (finish (body { s with busy := true })) := by
  simp [call, hb]

theorem call_busy {body : Op OpResult} {s : State} {r : Option Refusal} (hb : s.busy = true) :
    call r body s = .refused .overlappingCall := by
  simp [call, hb]

/-- A next state of a caller operation is the end of its body, run to the end. -/
theorem call_eq_next {body : Op OpResult} {s t : State} {r : Option Refusal} (e : call r body s = .next t) :
    s.busy = false ∧ r = none ∧ t = finish (body { s with busy := true }) := by
  unfold call at e
  split at e
  · cases e
  · rename_i hb
    split at e
    · cases e
    · cases e
      exact ⟨by simpa using hb, rfl, rfl⟩

theorem finish_eq (r : EStateM.Result Cause State OpResult) :
    finish r = { after r with
      result := some (match r with | .ok x _ => x | .error c _ => .fail c), busy := false } := by
  cases r <;> rfl

/-- The result of a caller operation. -/
def resultOf : EStateM.Result Cause State OpResult → OpResult
  | .ok x _ => x
  | .error c _ => .fail c

@[simp] theorem resultOf_ok (x : OpResult) (s : State) : resultOf (.ok x s) = x := rfl
@[simp] theorem resultOf_error (c : Cause) (s : State) : resultOf (.error c s) = .fail c := rfl

section
variable (r : EStateM.Result Cause State OpResult) (h : Handle)

@[simp] theorem finish_result : (finish r).result = some (resultOf r) := by cases r <;> rfl
@[simp] theorem finish_busy : (finish r).busy = false := by cases r <;> rfl
@[simp] theorem finish_params : (finish r).params = (after r).params := by cases r <;> rfl
@[simp] theorem finish_hA : (finish r).hA = (after r).hA := by cases r <;> rfl
@[simp] theorem finish_hD : (finish r).hD = (after r).hD := by cases r <;> rfl
@[simp] theorem finish_handle : (finish r).handle h = (after r).handle h := by cases r <;> cases h <;> rfl
@[simp] theorem finish_ctrl : (finish r).ctrl = (after r).ctrl := by cases r <;> rfl
@[simp] theorem finish_phase : (finish r).phase = (after r).phase := by cases r <;> rfl
@[simp] theorem finish_trace : (finish r).trace = (after r).trace := by cases r <;> rfl
@[simp] theorem finish_out : (finish r).out = (after r).out := by cases r <;> rfl
@[simp] theorem finish_buf : (finish r).buf = (after r).buf := by cases r <;> rfl
@[simp] theorem finish_info : (finish r).info = (after r).info := by cases r <;> rfl
@[simp] theorem finish_calls : (finish r).calls = (after r).calls := by cases r <;> rfl
@[simp] theorem finish_env : (finish r).env = (after r).env := by cases r <;> rfl
@[simp] theorem finish_draws : (finish r).draws = (after r).draws := by cases r <;> rfl

end

/-- A caller operation that is a register or port operation on `h` and then an answer leaves all but `h` alone. -/
theorem OnlyHandle.handleFrame {h : Handle} {s : State} {r : EStateM.Result Cause State OpResult}
    (o : OnlyHandle h { s with busy := true } (after r)) (hl : ((after r).handle h).cslvl = .high) :
    HandleFrame h s (finish r) :=
  ⟨by simpa using o.handle, by simpa using hl, by simpa using o.other, ⟨by simpa using o.ctrl, by simpa using o.phase⟩,
    by simpa using o.params, by simpa using o.calls, finish_busy r⟩

theorem OnlyHandle.callerData {h : Handle} {s : State} {r : EStateM.Result Cause State OpResult}
    (o : OnlyHandle h { s with busy := true } (after r)) : CallerDataKept s (finish r) :=
  ⟨by simpa using o.out, fun a => by simp [o.buf], by simpa using o.info⟩

/-- A body that fails before any event leaves the state as it was. -/
theorem finish_error_unchanged {s : State} (hb : s.busy = false) (c : Cause) :
    finish (.error c { s with busy := true }) = { s with result := some (.fail c) } := by
  simp [finish, ← hb]

end Sys2Proof.Machine
end

