-- ==== Sys2Proof/Laws/PortPin.lean ====
section
/-!
SUPPORT. One spec lemma per operation of the port/pin layer, on an initialized handle (41_port_pin.md R93 to R97).
-/

namespace Sys2Proof.Machine

variable {h : Handle} {p : Port} {s t : State} {c : Cause}

/-- A register access keeps the handle initialized and its chip address. -/
theorem OnlyHandle.init (o : OnlyHandle h s t) : (t.handle h).init = (s.handle h).init := o.handle.2.2.2.1
theorem OnlyHandle.chipAddr (o : OnlyHandle h s t) : (t.handle h).chipAddr = (s.handle h).chipAddr := o.handle.1

/-- A sequence that succeeds: both parts do. -/
theorem bind_eq_ok {α β : Type} {x : Op α} {f : α → Op β} {b : β} (e : (x >>= f) s = .ok b t) :
    ∃ a u, x s = .ok a u ∧ f a u = .ok b t := by
  rw [bind_apply] at e
  cases h : x s with
  | ok a u => rw [h] at e; exact ⟨a, u, rfl, e⟩
  | error c u => rw [h] at e; cases e

/-- A sequence that fails: the first part fails, or it succeeds and the second fails. -/
theorem bind_eq_error {α β : Type} {x : Op α} {f : α → Op β} (e : (x >>= f) s = .error c t) :
    x s = .error c t ∨ ∃ a u, x s = .ok a u ∧ f a u = .error c t := by
  rw [bind_apply] at e
  cases h : x s with
  | ok a u => rw [h] at e; exact .inr ⟨a, u, rfl, e⟩
  | error c u => rw [h] at e; cases e; exact .inl rfl

/-- A port write that succeeds (41_port_pin.md R95). -/
theorem portWrite_ok {v : Byte} {u : Unit} (e : portWrite h p v s = .ok u t) :
    (s.handle h).init = true ∧ OnlyHandle h s t ∧ (t.handle h).cslvl = .high ∧
      (t.handle h).cache = setReg22 (s.handle h).cache (regIndex .olat p) v ∧
      ∃ g, t.trace = s.trace ++ portWriteEvents h (s.handle h).chipAddr p v g ∧
        (g = none → s.params.verifyReadFail = .soft) := by
  obtain ⟨a, w, h₁, h₂⟩ := bind_eq_ok e
  obtain ⟨hi, o, ht, -, hc⟩ := writeRegister_ok h₁
  obtain ⟨o', hl', hc', g, ht', hg⟩ := softVerify_ok (by rw [o.init, hi]) h₂
  refine ⟨hi, o.trans o', hl', hc'.trans hc, g, ?_, fun hn => by rw [← o.params, hg hn]⟩
  rw [ht', ht, o.chipAddr, portWriteEvents, List.append_assoc]

/-- A port write that fails on an initialized handle: at the latch write, or at the verification read where
VERIFY_READ_FAIL is `Fail`. -/
theorem portWrite_error {v : Byte} (hi : (s.handle h).init = true) (e : portWrite h p v s = .error c t) :
    OnlyHandle h s t ∧ (t.handle h).cslvl = .high ∧
      ((c = .txFail ∧ (t.handle h).cache = (s.handle h).cache ∧
          t.trace = s.trace ++ wEvents h (frameW (s.handle h).chipAddr (regIndex .olat p) v) false) ∨
       (c = .txRxFail ∧ s.params.verifyReadFail = .fail ∧
          (t.handle h).cache = setReg22 (s.handle h).cache (regIndex .olat p) v ∧
          t.trace = s.trace ++ portWriteEvents h (s.handle h).chipAddr p v none)) := by
  rcases bind_eq_error e with h₁ | ⟨a, w, h₁, h₂⟩
  · rcases writeRegister_error h₁ with ⟨h₀, -⟩ | ⟨-, hc, o, ht, hl, hk⟩
    · simp [hi] at h₀
    · exact ⟨o, hl, .inl ⟨hc, hk, ht⟩⟩
  · obtain ⟨-, o, ht, -, hk⟩ := writeRegister_ok h₁
    obtain ⟨hc, hv, o', hl, hk', ht'⟩ := softVerify_error (by rw [o.init, hi]) h₂
    refine ⟨o.trans o', hl, .inr ⟨hc, by rw [← o.params, hv], hk'.trans hk, ?_⟩⟩
    rw [ht', ht, o.chipAddr, portWriteEvents, verifyEvents]
    simp

/-- A port write on an uninitialized handle. -/
theorem portWrite_uninitialized (hi : (s.handle h).init = false) (v : Byte) :
    portWrite h p v s = .error .notInitialized s :=
  bind_error (writeRegister_uninitialized hi _ _)

/-- A pin write that succeeds (41_port_pin.md R94). -/
theorem pinWrite_ok {n : Pin} {b : Bool} {u : Unit} (e : pinWrite h n p b s = .ok u t) :
    (s.handle h).init = true ∧ OnlyHandle h s t ∧ (t.handle h).cslvl = .high ∧
      ∃ cur g, (t.handle h).cache = setReg22 (s.handle h).cache (regIndex .olat p) (withPin cur n b) ∧
        t.trace = s.trace ++ rEvents h (frameR (s.handle h).chipAddr (regIndex .olat p)) (some cur) ++
          wEvents h (frameW (s.handle h).chipAddr (regIndex .olat p) (withPin cur n b)) true ++
          verifyEvents h (s.handle h).chipAddr p (.pin n) (bitByte b) g ∧
        (g = none → s.params.verifyReadFail = .soft) := by
  obtain ⟨cur, w, h₁, h₂⟩ := bind_eq_ok e
  obtain ⟨_, w', h₂, h₃⟩ := bind_eq_ok h₂
  obtain ⟨hi, o, ht, -, hk⟩ := readRegister_ok h₁
  obtain ⟨-, o', ht', -, hk'⟩ := writeRegister_ok h₂
  obtain ⟨o'', hl'', hk'', g, ht'', hg⟩ := softVerify_ok (by rw [o'.init, o.init, hi]) h₃
  refine ⟨hi, (o.trans o').trans o'', hl'', cur, g, by rw [hk'', hk', hk], ?_,
    fun hn => by rw [← o.params, ← o'.params, hg hn]⟩
  rw [ht'', ht', ht, o'.chipAddr, o.chipAddr]

/-- A pin write that fails on an initialized handle: at the latch read, the latch write or the verification read. -/
theorem pinWrite_error {n : Pin} {b : Bool} (hi : (s.handle h).init = true) (e : pinWrite h n p b s = .error c t) :
    OnlyHandle h s t ∧ (t.handle h).cslvl = .high ∧
      let chip := (s.handle h).chipAddr
      ((c = .txRxFail ∧ (t.handle h).cache = (s.handle h).cache ∧
          t.trace = s.trace ++ rEvents h (frameR chip (regIndex .olat p)) none) ∨
       (∃ cur, c = .txFail ∧ (t.handle h).cache = (s.handle h).cache ∧
          t.trace = s.trace ++ rEvents h (frameR chip (regIndex .olat p)) (some cur) ++
            wEvents h (frameW chip (regIndex .olat p) (withPin cur n b)) false) ∨
       (∃ cur, c = .txRxFail ∧ s.params.verifyReadFail = .fail ∧
          (t.handle h).cache = setReg22 (s.handle h).cache (regIndex .olat p) (withPin cur n b) ∧
          t.trace = s.trace ++ rEvents h (frameR chip (regIndex .olat p)) (some cur) ++
            wEvents h (frameW chip (regIndex .olat p) (withPin cur n b)) true ++
            verifyEvents h chip p (.pin n) (bitByte b) none)) := by
  rcases bind_eq_error e with h₁ | ⟨cur, w, h₁, h₂⟩
  · rcases readRegister_error h₁ with ⟨h₀, -⟩ | ⟨-, hc, o, ht, hl, hk⟩
    · simp [hi] at h₀
    · exact ⟨o, hl, .inl ⟨hc, hk, ht⟩⟩
  · obtain ⟨-, o, ht, -, hk⟩ := readRegister_ok h₁
    rcases bind_eq_error h₂ with h₃ | ⟨_, w', h₃, h₄⟩
    · rcases writeRegister_error h₃ with ⟨h₀, -⟩ | ⟨-, hc, o', ht', hl, hk'⟩
      · rw [o.init, hi] at h₀
        cases h₀
      · exact ⟨o.trans o', hl, .inr (.inl ⟨cur, hc, hk'.trans hk, by rw [ht', ht, o.chipAddr]⟩)⟩
    · obtain ⟨-, o', ht', -, hk'⟩ := writeRegister_ok h₃
      obtain ⟨hc, hv, o'', hl, hk'', ht''⟩ := softVerify_error (by rw [o'.init, o.init, hi]) h₄
      refine ⟨(o.trans o').trans o'', hl, .inr (.inr ⟨cur, hc, by rw [← o.params, ← o'.params, hv], ?_, ?_⟩)⟩
      · rw [hk'', hk', hk]
      · rw [ht'', ht', ht, o'.chipAddr, o.chipAddr, verifyEvents]
        simp

/-- A pin write on an uninitialized handle. -/
theorem pinWrite_uninitialized (hi : (s.handle h).init = false) (n : Pin) (b : Bool) :
    pinWrite h n p b s = .error .notInitialized s :=
  bind_error (readRegister_uninitialized hi _)

end Sys2Proof.Machine
end

