-- ==== Sys2Proof/Laws/Bus.lean ====
section
/-!
SUPPORT. One spec lemma per operation of the bus controller with every control line `Direct` (42_bus_controller.md R100
to R105).
-/

namespace Sys2Proof.Machine

variable {s t : State} {c : Cause} {a : Addr}

/-- What a bus transfer leaves alone: all but the handles' caches and chip-select levels, the lines, the phase, the trace
and the environment. -/
structure BusKept (s t : State) : Prop where
  params : t.params = s.params
  result : t.result = s.result
  busy : t.busy = s.busy
  out : t.out = s.out
  buf : t.buf = s.buf
  info : t.info = s.info
  calls : t.calls = s.calls
  hA : HandleKept s.hA t.hA
  hD : HandleKept s.hD t.hD

theorem handleKept_refl (x : HandleState) : HandleKept x x := ⟨rfl, rfl, rfl, rfl, rfl⟩

theorem handleKept_trans {x y z : HandleState} (a : HandleKept x y) (b : HandleKept y z) : HandleKept x z :=
  ⟨b.1.trans a.1, b.2.1.trans a.2.1, b.2.2.1.trans a.2.2.1, b.2.2.2.1.trans a.2.2.2.1, b.2.2.2.2.trans a.2.2.2.2⟩

theorem BusKept.refl (s : State) : BusKept s s := ⟨rfl, rfl, rfl, rfl, rfl, rfl, rfl, handleKept_refl _, handleKept_refl _⟩

theorem BusKept.trans {u : State} (x : BusKept s t) (y : BusKept t u) : BusKept s u where
  params := y.params.trans x.params
  result := y.result.trans x.result
  busy := y.busy.trans x.busy
  out := y.out.trans x.out
  buf := y.buf.trans x.buf
  info := y.info.trans x.info
  calls := y.calls.trans x.calls
  hA := handleKept_trans x.hA y.hA
  hD := handleKept_trans x.hD y.hD

theorem OnlyHandle.bus {h : Handle} (o : OnlyHandle h s t) : BusKept s t where
  params := o.params
  result := o.result
  busy := o.busy
  out := o.out
  buf := o.buf
  info := o.info
  calls := o.calls
  hA := by
    cases h
    · exact o.handle
    · have := o.other
      simp only [otherHandle, State.handle] at this
      rw [this]
      exact handleKept_refl _
  hD := by
    cases h
    · have := o.other
      simp only [otherHandle, State.handle] at this
      rw [this]
      exact handleKept_refl _
    · exact o.handle

/-! ### CtrlSet (42_bus_controller.md R100) -/

/-- The state after a `Direct` control-line write. -/
def State.drive (line : Line) (lvl : Level) (s : State) : State :=
  (s.emit (.ctrl line lvl)).setCtrl line (driven lvl)

theorem routeOf_direct (line : Line) : routeOf .direct line = .direct := by cases line <;> rfl

/-- With its line `Direct`, `CtrlSet` cannot fail. -/
theorem ctrlSet_apply {line : Line} {lvl : Level} (hr : routeOf s.params.ctrlMap line = .direct) :
    ctrlSet line lvl s = .ok () (s.drive line lvl) := by
  unfold ctrlSet
  rw [update_bind, getParams_bind, State.emit_params, hr]
  rfl

theorem ctrlSet_direct {line : Line} {lvl : Level} (hm : s.params.ctrlMap = .direct) :
    ctrlSet line lvl s = .ok () (s.drive line lvl) :=
  ctrlSet_apply (by rw [hm, routeOf_direct])

@[simp] theorem drive_trace (line : Line) (lvl : Level) (s : State) :
    (s.drive line lvl).trace = s.trace ++ [.ctrl line lvl] := by simp [State.drive]
@[simp] theorem drive_ctrl (line : Line) (lvl : Level) (s : State) :
    (s.drive line lvl).ctrl = s.ctrl.set line (driven lvl) := by simp [State.drive]
@[simp] theorem drive_params (line : Line) (lvl : Level) (s : State) : (s.drive line lvl).params = s.params := by
  simp [State.drive]
@[simp] theorem drive_phase (line : Line) (lvl : Level) (s : State) : (s.drive line lvl).phase = s.phase := by
  simp [State.drive]
@[simp] theorem drive_hA (line : Line) (lvl : Level) (s : State) : (s.drive line lvl).hA = s.hA := by simp [State.drive]
@[simp] theorem drive_hD (line : Line) (lvl : Level) (s : State) : (s.drive line lvl).hD = s.hD := by simp [State.drive]
@[simp] theorem handle_drive (line : Line) (lvl : Level) (s : State) (h : Handle) :
    (s.drive line lvl).handle h = s.handle h := by simp [State.drive]
@[simp] theorem drive_draws (line : Line) (lvl : Level) (s : State) : (s.drive line lvl).draws = s.draws := by
  simp [State.drive]

theorem drive_kept (line : Line) (lvl : Level) (s : State) : BusKept s (s.drive line lvl) := by
  constructor <;> simp [State.drive, HandleKept]

/-! ### The address set (42_bus_controller.md R101) -/

/-- The state after the three control-line writes of the address set. -/
def State.resetLines (s : State) : State := ((s.drive .RD .high).drive .WR .low).drive .CS .low

theorem addressSet_apply (hm : s.params.ctrlMap = .direct) (a : Addr) :
    addressSet a s =
      match portWrite .hA .A (addrLow a) { s with phase := .addressSet } with
      | .ok _ u =>
        match portWrite .hA .B (addrHigh a) u with
        | .ok _ w => .ok () w.resetLines
        | .error c w => .error c w
      | .error c u => .error c u := by
  unfold addressSet setPhase
  rw [update_bind, bind_apply]
  cases h₁ : portWrite .hA .A (addrLow a) { s with phase := .addressSet } with
  | error c u => rfl
  | ok x u =>
    have o₁ := (portWrite_ok h₁).2.1
    dsimp only
    rw [bind_apply]
    cases h₂ : portWrite .hA .B (addrHigh a) u with
    | error c w => rfl
    | ok y w =>
      have o₂ := (portWrite_ok h₂).2.1
      have hw : w.params.ctrlMap = .direct := by rw [o₂.params, o₁.params]; exact hm
      dsimp only
      rw [bind_ok (ctrlSet_direct hw), bind_ok (ctrlSet_direct (by simpa using hw)), ctrlSet_direct (by simpa using hw)]
      rfl

/-- What the address set leaves on the lines, in the caches and in the trace. -/
theorem addressSet_ok {u : Unit} (hm : s.params.ctrlMap = .direct) (e : addressSet a s = .ok u t) :
    s.hA.init = true ∧ BusKept s t ∧ t.hD = s.hD ∧ t.ctrl = ⟨.high, .low, .low⟩ ∧ t.phase = .addressSet ∧
      t.hA.cache = setReg22 (setReg22 s.hA.cache 0x14#8 (addrLow a)) 0x15#8 (addrHigh a) ∧
      ∃ g g', t.trace = s.trace ++ addressSetEvents s.hA.chipAddr a g g' := by
  rw [addressSet_apply hm] at e
  split at e
  case h_2 => cases e
  rename_i x u' h₁
  split at e
  case h_2 => cases e
  rename_i y w h₂
  cases e
  obtain ⟨hi, o₁, -, hc₁, g, ht₁, -⟩ := portWrite_ok h₁
  obtain ⟨-, o₂, -, hc₂, g', ht₂, -⟩ := portWrite_ok h₂
  have hd₁ := o₁.other
  have hd₂ := o₂.other
  simp only [State.handle, otherHandle, regIndex, RegKind.base] at hi hc₁ hc₂ hd₁ hd₂
  refine ⟨hi, ?_, ?_, ?_, ?_, ?_, g, g', ?_⟩
  · have k : BusKept s { s with phase := .addressSet } := ⟨rfl, rfl, rfl, rfl, rfl, rfl, rfl, handleKept_refl _, handleKept_refl _⟩
    exact (k.trans o₁.bus).trans (o₂.bus.trans (((drive_kept ..).trans (drive_kept ..)).trans (drive_kept ..)))
  · simp [State.resetLines, hd₂, hd₁]
  · simp [State.resetLines, CtrlLines.set, driven]
  · simp [State.resetLines, o₂.phase, o₁.phase]
  · simp [State.resetLines, hc₂, hc₁]
  · have hch : u'.hA.chipAddr = s.hA.chipAddr := o₁.chipAddr
    simp only [State.handle] at ht₁ ht₂
    simp [State.resetLines, ht₂, ht₁, addressSetEvents, hch]

theorem verifyEvents_isCtrl (h : Handle) (chip : ChipAddr) (p : Port) (sc : Scope) (x : Byte) (g : Option Byte) :
    (verifyEvents h chip p sc x g).any isCtrl = false := by
  unfold verifyEvents
  cases g with
  | none => simp [rEvents, isCtrl]
  | some b => dsimp only; split <;> simp [rEvents, isCtrl]

theorem portWriteEvents_isCtrl (h : Handle) (chip : ChipAddr) (p : Port) (v : Byte) (g : Option Byte) :
    (portWriteEvents h chip p v g).any isCtrl = false := by
  rw [portWriteEvents, List.any_append, verifyEvents_isCtrl]
  simp [wEvents, isCtrl]

theorem setReg22_other (r : Vector Byte 22) (i v : Byte) (k : Nat) (hk : k < 22) (h : k ≠ i.toNat) :
    (setReg22 r i v)[k] = r[k] := by
  unfold setReg22
  split
  · rw [Vector.getElem_set_ne _ _ (by omega)]
  · rfl

theorem setReg22_get (r : Vector Byte 22) (i v : Byte) (k : Nat) (hk : k < 22) :
    (setReg22 r i v)[k] = if k = i.toNat then v else r[k] := by
  split
  · subst k
    simp [setReg22, hk]
  · exact setReg22_other _ _ _ _ _ ‹_›

theorem getReg22_setReg22 (r : Vector Byte 22) (i v j : Byte) :
    getReg22 (setReg22 r i v) j = if j = i ∧ i.toNat < 22 then v else getReg22 r j := by
  unfold getReg22
  by_cases hj : j.toNat < 22
  · rw [dif_pos hj, dif_pos hj, setReg22_get]
    by_cases h : j = i
    · subst h
      simp [hj]
    · have : j.toNat ≠ i.toNat := fun e => h (BitVec.eq_of_toNat_eq e)
      simp [h, this]
  · rw [dif_neg hj, dif_neg hj, if_neg]
    rintro ⟨rfl, h⟩
    exact hj h

/-- An address set that fails on an initialized address expander leaves the lines as they were. -/
theorem addressSet_error (hm : s.params.ctrlMap = .direct) (hi : s.hA.init = true) (e : addressSet a s = .error c t) :
    BusKept s t ∧ t.hD = s.hD ∧ t.ctrl = s.ctrl ∧ (c = .txFail ∨ (c = .txRxFail ∧ s.params.verifyReadFail = .fail)) ∧
      (∀ k (hk : k < 22), k ≠ 0x14 → k ≠ 0x15 → t.hA.cache[k] = s.hA.cache[k]) ∧
      ∃ evs, t.trace = s.trace ++ evs ∧ evs.any isCtrl = false ∧
        evs.filterMap (dataByte (regIndex .gpio s.params.dataPort)) = [] := by
  have k₀ : BusKept s { s with phase := .addressSet } := ⟨rfl, rfl, rfl, rfl, rfl, rfl, rfl, handleKept_refl _, handleKept_refl _⟩
  have nd : ∀ chip p sc x g gp, (verifyEvents .hA chip p sc x g).filterMap (dataByte gp) = [] := by
    intro chip p sc x g gp
    unfold verifyEvents
    cases g with
    | none => simp [rEvents, dataByte]
    | some b => dsimp only; split <;> simp [rEvents, dataByte]
  have nw : ∀ b ok gp, (wEvents .hA b ok).filterMap (dataByte gp) = [] := by
    intro b ok gp
    simp [wEvents, dataByte]
  have np : ∀ chip p v g gp, (portWriteEvents .hA chip p v g).filterMap (dataByte gp) = [] := by
    intro chip p v g gp
    rw [portWriteEvents, List.filterMap_append, nw, nd]
    rfl
  have wc : ∀ b ok, (wEvents .hA b ok).any isCtrl = false := by
    intro b ok
    simp [wEvents, isCtrl]
  have r14 : (0x14#8).toNat = 0x14 := rfl
  have r15 : (0x15#8).toNat = 0x15 := rfl
  rw [addressSet_apply hm] at e
  split at e
  · rename_i x u h₁
    obtain ⟨-, o₁, -, hc₁, g, ht₁, -⟩ := portWrite_ok h₁
    have hd₁ := o₁.other
    have hi₁ : (u.handle .hA).init = true := by rw [o₁.init]; exact hi
    split at e
    · cases e
    rename_i c' w h₂
    cases e
    obtain ⟨o₂, -, h₂⟩ := portWrite_error hi₁ h₂
    have hd₂ := o₂.other
    simp only [State.handle, otherHandle, regIndex, RegKind.base] at hc₁ hd₁ hd₂ ht₁ h₂
    refine ⟨(k₀.trans o₁.bus).trans o₂.bus, hd₂.trans hd₁, o₂.ctrl.trans o₁.ctrl, ?_, ?_, ?_⟩
    · rcases h₂ with ⟨hc, -⟩ | ⟨hc, hv, -⟩
      · exact .inl hc
      · exact .inr ⟨hc, by rw [o₁.params] at hv; exact hv⟩
    · intro k hk n₁ n₂
      rcases h₂ with ⟨-, hc, -⟩ | ⟨-, -, hc, -⟩
      · rw [hc, hc₁, setReg22_other _ _ _ _ hk (by rw [r14]; exact n₁)]
      · rw [hc, setReg22_other _ _ _ _ hk (by rw [show (0x14#8 + 1#8).toNat = 0x15 from rfl]; exact n₂), hc₁,
          setReg22_other _ _ _ _ hk (by rw [r14]; exact n₁)]
    · rcases h₂ with ⟨-, -, ht⟩ | ⟨-, -, -, ht⟩
      · refine ⟨_, by rw [ht, ht₁, List.append_assoc], ?_, ?_⟩
        · rw [List.any_append, portWriteEvents_isCtrl, wc]
          rfl
        · rw [List.filterMap_append, np, nw]
          rfl
      · refine ⟨_, by rw [ht, ht₁, List.append_assoc], ?_, ?_⟩
        · rw [List.any_append, portWriteEvents_isCtrl, portWriteEvents_isCtrl]
          rfl
        · rw [List.filterMap_append, np, np]
          rfl
  · rename_i c' w h₁
    cases e
    obtain ⟨o₁, -, h₁⟩ := portWrite_error (h := .hA) (s := { s with phase := .addressSet }) hi h₁
    have hd₁ := o₁.other
    simp only [State.handle, otherHandle, regIndex, RegKind.base] at hd₁ h₁
    refine ⟨k₀.trans o₁.bus, hd₁, o₁.ctrl, ?_, ?_, ?_⟩
    · rcases h₁ with ⟨hc, -⟩ | ⟨hc, hv, -⟩
      · exact .inl hc
      · exact .inr ⟨hc, hv⟩
    · intro k hk n₁ _
      rcases h₁ with ⟨-, hc, -⟩ | ⟨-, -, hc, -⟩
      · rw [hc]
      · rw [hc, setReg22_other _ _ _ _ hk (by rw [r14]; exact n₁)]
    · rcases h₁ with ⟨-, -, ht⟩ | ⟨-, -, -, ht⟩
      · exact ⟨_, ht, wc _ _, nw _ _ _⟩
      · exact ⟨_, ht, portWriteEvents_isCtrl .., np ..⟩

/-! ### Transfers -/

theorem transfer_ok {α : Type} {body : Op α} {x : α} (e : transfer body s = .ok x t) :
    ∃ u, body s = .ok x u ∧ t = { u with phase := .idle } := by
  unfold transfer at e
  split at e
  · rename_i h
    cases e
    exact ⟨_, h, rfl⟩
  · cases e

theorem transfer_error {α : Type} {body : Op α} (e : transfer body s = .error c t) :
    ∃ u, body s = .error c u ∧ t = { u with phase := .idle } := by
  unfold transfer at e
  split at e
  · cases e
  · rename_i h
    cases e
    exact ⟨_, h, rfl⟩

/-- The state of a READ_BYTE between its strobe and its sample. -/
def State.strobed (s : State) : State :=
  ({ (s.emit (.delay s.params.tAS)) with phase := .readActive }.drive .RD .low).emit (.delay s.params.tSS)

/-- READ_BYTE with every line `Direct` (42_bus_controller.md R103). -/
theorem byteRead_apply (hm : s.params.ctrlMap = .direct) (a : Addr) :
    byteRead a s =
      match addressSet a s with
      | .error c u => .error c { u with phase := .idle }
      | .ok _ u =>
        match portRead .hD u.params.dataPort u.strobed with
        | .error c w => .error c { w with phase := .idle }
        | .ok d w => .ok d { (w.drive .RD .high) with phase := .idle } := by
  unfold byteRead transfer
  rw [bind_apply]
  cases h₁ : addressSet a s with
  | error c u => rfl
  | ok x u =>
    have hu : u.params.ctrlMap = .direct := by rw [(addressSet_ok hm h₁).2.1.params]; exact hm
    dsimp only
    rw [getParams_bind, delay, update_bind, setPhase, update_bind,
      bind_ok (ctrlSet_direct (s := { (u.emit (.delay u.params.tAS)) with phase := .readActive }) hu), delay, update_bind,
      bind_apply]
    rw [show State.emit (.delay u.params.tSS)
        (State.drive .RD .low { (u.emit (.delay u.params.tAS)) with phase := .readActive }) = u.strobed from rfl]
    cases h₂ : portRead .hD u.params.dataPort u.strobed with
    | error c w => rfl
    | ok d w =>
      have hw : w.params.ctrlMap = .direct := by
        rw [(readRegister_ok h₂).2.1.params]
        simpa [State.strobed] using hu
      dsimp only
      rw [bind_ok (ctrlSet_direct hw)]
      rfl

end Sys2Proof.Machine
end

