-- ==== Sys2Proof/Laws/Decode.lean ====
section
/-!
SUPPORT. One lemma per reader of the decoder and direction: what it reads from the bytes the encoder writes, and which
bytes it can have read.
-/

namespace Sys2Proof

variable {α β : Type}

theorem parser_bind_apply (x : Parser α) (f : α → Parser β) (bs : List Byte) :
    (x >>= f) bs = match x bs with
      | .ok (a, rest) => f a rest
      | .error e => .error e := by
  change (x bs >>= fun p => f p.1 p.2) = _
  cases x bs <;> rfl

@[simp] theorem parser_pure_apply (a : α) (bs : List Byte) : (pure a : Parser α) bs = .ok (a, bs) := rfl
@[simp] theorem reject_apply (e : DecodeError) (bs : List Byte) : (reject e : Parser α) bs = .error e := rfl

theorem parser_bind_of_ok {x : Parser α} {f : α → Parser β} {bs rest : List Byte} {a : α} (h : x bs = .ok (a, rest)) :
    (x >>= f) bs = f a rest := by
  rw [parser_bind_apply, h]

theorem parser_map_apply (f : α → β) (x : Parser α) (bs : List Byte) :
    (f <$> x) bs = match x bs with
      | .ok (a, rest) => .ok (f a, rest)
      | .error e => .error e := by
  change (x bs >>= fun p => pure (f p.1, p.2)) = _
  cases x bs <;> rfl

/-- A sequence that reads something: both parts do. -/
theorem parser_bind_eq_ok {x : Parser α} {f : α → Parser β} {bs rest : List Byte} {b : β}
    (e : (x >>= f) bs = .ok (b, rest)) : ∃ a mid, x bs = .ok (a, mid) ∧ f a mid = .ok (b, rest) := by
  rw [parser_bind_apply] at e
  cases h : x bs with
  | ok p => rw [h] at e; exact ⟨p.1, p.2, rfl, e⟩
  | error c => rw [h] at e; cases e

/-! ### From bytes written by the encoder -/

@[simp] theorem nextByte_cons (b : Byte) (bs : List Byte) : nextByte (b :: bs) = .ok (b, bs) := rfl
@[simp] theorem nextHandle_cons (h : Handle) (bs : List Byte) : nextHandle (handleByte h :: bs) = .ok (h, bs) := by
  cases h <;> rfl
@[simp] theorem nextPort_cons (p : Port) (bs : List Byte) : nextPort (portByte p :: bs) = .ok (p, bs) := by
  cases p <;> rfl
@[simp] theorem nextMode_cons (m : PortMode) (bs : List Byte) : nextMode (modeByte m :: bs) = .ok (m, bs) := by
  cases m <;> rfl
@[simp] theorem nextPresence_cons (x : Presence) (bs : List Byte) :
    nextPresence (presenceByte x :: bs) = .ok (x, bs) := by
  cases x <;> rfl

theorem nextChip_cons {b : Byte} (h : chipInRange b) (bs : List Byte) : nextChip (b :: bs) = .ok (b, bs) := by
  simp [nextChip, parser_bind_apply, h]
theorem nextPin_cons {b : Byte} (h : pinInRange b) (bs : List Byte) : nextPin (b :: bs) = .ok (b, bs) := by
  simp [nextPin, parser_bind_apply, h]
theorem nextPinValue_cons {b : Byte} (h : pinValueInRange b) (bs : List Byte) :
    nextPinValue (b :: bs) = .ok (b, bs) := by
  rw [nextPinValue, parser_bind_of_ok (nextByte_cons _ _), if_pos h]
  rfl

/-- The `k` low bytes depend on the number modulo 256 to the `k` only. -/
theorem natBytes_congr {k x y : Nat} (h : x % 256 ^ k = y % 256 ^ k) : natBytes k x = natBytes k y := by
  induction k generalizing x y with
  | zero => rfl
  | succ k ih =>
    rw [Nat.pow_succ] at h
    rw [natBytes, natBytes, ih (x := x / 256) (y := y / 256)]
    · congr 2
      apply BitVec.eq_of_toNat_eq
      rw [BitVec.toNat_ofNat, BitVec.toNat_ofNat]
      have := congrArg (· % 256) h
      simpa [Nat.mod_mul_left_mod] using this
    · have := congrArg (· / 256) h
      simpa [Nat.mod_mul_left_div_self] using this

theorem natBytes_succ (k n : Nat) :
    natBytes (k + 1) n = BitVec.ofNat 8 (n / 256 ^ k) :: natBytes k n := by
  induction k generalizing n with
  | zero => simp [natBytes]
  | succ k ih =>
    rw [natBytes, ih, natBytes, List.cons_append, Nat.div_div_eq_div_mul, ← Nat.pow_succ']

/-- A number's bytes are read back, behind what was read before. -/
theorem nextNat_natBytes (k n acc : Nat) (bs : List Byte) :
    nextNat k acc (natBytes k n ++ bs) = .ok (acc * 256 ^ k + n % 256 ^ k, bs) := by
  induction k generalizing acc with
  | zero => simp [nextNat, natBytes, Nat.mod_one]
  | succ k ih =>
    rw [natBytes_succ, List.cons_append, nextNat, parser_bind_of_ok (nextByte_cons _ _), ih, BitVec.toNat_ofNat]
    have h : n % 256 ^ (k + 1) = 256 ^ k * (n / 256 ^ k % 256) + n % 256 ^ k := by
      rw [Nat.pow_succ, Nat.mod_mul, Nat.add_comm]
    rw [h, Nat.pow_succ]
    congr 2
    ring

@[simp] theorem nextAddr_natBytes (a : Addr) (bs : List Byte) :
    nextAddr (natBytes 2 a.toNat ++ bs) = .ok (a, bs) := by
  rw [nextAddr, parser_bind_of_ok (nextNat_natBytes ..), parser_pure_apply, Nat.mod_eq_of_lt (by omega)]
  simp

/-- A byte that is not the last of a length adds its seven bits. -/
theorem nextLength_group {acc m : Nat} (h : acc * 128 + m ≠ 0) (hm : m < 128) (bs : List Byte) :
    nextLength acc (BitVec.ofNat 8 (128 + m) :: bs) = nextLength (acc * 128 + m) bs := by
  have hb : (BitVec.ofNat 8 (128 + m)).toNat = 128 + m := by
    rw [BitVec.toNat_ofNat]
    omega
  rw [nextLength, if_neg, hb, if_neg (by omega), Nat.add_sub_cancel_left]
  rintro ⟨h₁, h₂⟩
  have := congrArg BitVec.toNat h₂
  rw [hb] at this
  change 128 + m = 128 at this
  omega

theorem nextLength_leadingGroups {k n : Nat} (h : n ≤ k) (bs : List Byte) :
    nextLength 0 (leadingGroups k n ++ bs) = nextLength n bs := by
  induction k generalizing n bs with
  | zero =>
    obtain rfl := Nat.le_zero.mp h
    rfl
  | succ k ih =>
    rw [leadingGroups]
    split
    · subst n
      rfl
    · have hd : n / 128 * 128 + n % 128 = n := by omega
      rw [List.append_assoc, ih (by omega), List.singleton_append, nextLength_group (by omega) (by omega), hd]

/-- A length of any width is read back. -/
theorem nextLength_lengthBytes (n : Nat) (bs : List Byte) : nextLength 0 (lengthBytes n ++ bs) = .ok (n, bs) := by
  have hb : (BitVec.ofNat 8 (n % 128)).toNat = n % 128 := by
    rw [BitVec.toNat_ofNat]
    omega
  have hd : n / 128 * 128 + n % 128 = n := by omega
  rw [lengthBytes, List.append_assoc, nextLength_leadingGroups (by omega), List.singleton_append, nextLength, if_neg, hb,
    if_pos (by omega), hd]
  rintro ⟨-, h⟩
  have := congrArg BitVec.toNat h
  rw [hb] at this
  change n % 128 = 128 at this
  omega

/-! ### What bytes a reader can have read -/

/-- The bound on the number of groups does not matter when it is large enough. -/
theorem leadingGroups_bound {j k n : Nat} (hj : n ≤ j) (hk : n ≤ k) : leadingGroups j n = leadingGroups k n := by
  induction j generalizing k n with
  | zero =>
    obtain rfl := Nat.le_zero.mp hj
    cases k <;> rfl
  | succ j ih =>
    cases k with
    | zero =>
      obtain rfl := Nat.le_zero.mp hk
      rfl
    | succ k =>
      rw [leadingGroups, leadingGroups]
      split
      · rfl
      · rw [ih (k := k) (by omega) (by omega)]

variable {bs rest : List Byte} {b : Byte}

theorem nextByte_eq_ok (e : nextByte bs = .ok (b, rest)) : bs = b :: rest := by
  cases bs with
  | nil => cases e
  | cons c cs => cases e; rfl

theorem nextHandle_eq_ok {h : Handle} (e : nextHandle bs = .ok (h, rest)) : bs = handleByte h :: rest := by
  obtain ⟨b, mid, h₁, h₂⟩ := parser_bind_eq_ok e
  rw [nextByte_eq_ok h₁]
  split_ifs at h₂ <;> cases h₂ <;> simp_all [handleByte]

theorem nextPort_eq_ok {p : Port} (e : nextPort bs = .ok (p, rest)) : bs = portByte p :: rest := by
  obtain ⟨b, mid, h₁, h₂⟩ := parser_bind_eq_ok e
  rw [nextByte_eq_ok h₁]
  split_ifs at h₂ <;> cases h₂ <;> simp_all [portByte]

theorem nextMode_eq_ok {m : PortMode} (e : nextMode bs = .ok (m, rest)) : bs = modeByte m :: rest := by
  obtain ⟨b, mid, h₁, h₂⟩ := parser_bind_eq_ok e
  rw [nextByte_eq_ok h₁]
  split_ifs at h₂ <;> cases h₂ <;> simp_all [modeByte]

theorem nextPresence_eq_ok {x : Presence} (e : nextPresence bs = .ok (x, rest)) : bs = presenceByte x :: rest := by
  obtain ⟨b, mid, h₁, h₂⟩ := parser_bind_eq_ok e
  rw [nextByte_eq_ok h₁]
  split_ifs at h₂ <;> cases h₂ <;> simp_all [presenceByte]

theorem nextChip_eq_ok (e : nextChip bs = .ok (b, rest)) : chipInRange b ∧ bs = b :: rest := by
  obtain ⟨c, mid, h₁, h₂⟩ := parser_bind_eq_ok e
  split_ifs at h₂ with h
  · cases h₂
    exact ⟨h, nextByte_eq_ok h₁⟩
  · cases h₂

theorem nextPin_eq_ok (e : nextPin bs = .ok (b, rest)) : pinInRange b ∧ bs = b :: rest := by
  obtain ⟨c, mid, h₁, h₂⟩ := parser_bind_eq_ok e
  split_ifs at h₂ with h
  · cases h₂
    exact ⟨h, nextByte_eq_ok h₁⟩
  · cases h₂

theorem nextPinValue_eq_ok (e : nextPinValue bs = .ok (b, rest)) : pinValueInRange b ∧ bs = b :: rest := by
  obtain ⟨c, mid, h₁, h₂⟩ := parser_bind_eq_ok e
  split_ifs at h₂ with h
  · cases h₂
    exact ⟨h, nextByte_eq_ok h₁⟩
  · cases h₂

theorem nextNat_eq_ok {k acc n : Nat} (e : nextNat k acc bs = .ok (n, rest)) :
    ∃ m, m < 256 ^ k ∧ n = acc * 256 ^ k + m ∧ bs = natBytes k m ++ rest := by
  induction k generalizing acc bs with
  | zero =>
    cases e
    exact ⟨0, by simp, by simp, by simp [natBytes]⟩
  | succ k ih =>
    obtain ⟨b, mid, h₁, h₂⟩ := parser_bind_eq_ok e
    obtain ⟨m, hm, hn, rfl⟩ := ih h₂
    have hb := b.isLt
    refine ⟨b.toNat * 256 ^ k + m, ?_, ?_, ?_⟩
    · rw [Nat.pow_succ]
      calc b.toNat * 256 ^ k + m < b.toNat * 256 ^ k + 256 ^ k := by omega
        _ = (b.toNat + 1) * 256 ^ k := by ring
        _ ≤ 256 * 256 ^ k := Nat.mul_le_mul_right _ (by omega)
        _ = 256 ^ k * 256 := by ring
    · rw [hn, Nat.pow_succ]
      ring
    · have hq : (b.toNat * 256 ^ k + m) / 256 ^ k = b.toNat := by
        rw [Nat.mul_comm, Nat.mul_add_div (by positivity), Nat.div_eq_of_lt hm, Nat.add_zero]
      have hr : natBytes k (b.toNat * 256 ^ k + m) = natBytes k m := by
        exact natBytes_congr (by rw [Nat.mul_comm, Nat.mul_add_mod])
      rw [natBytes_succ, hq, hr, nextByte_eq_ok h₁]
      simp

theorem nextLength_leading_eq_ok {acc n : Nat} (e : nextLength acc bs = .ok (n, rest)) :
    leadingGroups acc acc ++ bs = lengthBytes n ++ rest := by
  induction bs generalizing acc with
  | nil => cases e
  | cons b bs ih =>
    rw [nextLength] at e
    split_ifs at e with h₁ h₂
    · cases e
      have hd : (acc * 128 + b.toNat) / 128 = acc := by omega
      have hm : (acc * 128 + b.toNat) % 128 = b.toNat := by omega
      rw [lengthBytes, hd, hm, leadingGroups_bound (j := acc) (k := acc * 128 + b.toNat) le_rfl (by omega)]
      simp
    · have hb : b.toNat ≠ 128 ∨ acc ≠ 0 := by
        by_contra h
        rw [not_or, not_not, not_not] at h
        exact h₁ ⟨h.2, BitVec.eq_of_toNat_eq h.1⟩
      have hlt := b.isLt
      rw [← ih e]
      obtain ⟨k, hk⟩ : ∃ k, acc * 128 + (b.toNat - 128) = k + 1 := ⟨_, (Nat.sub_add_cancel (by omega)).symm⟩
      have hd : (k + 1) / 128 = acc := by omega
      have hm : 128 + (k + 1) % 128 = b.toNat := by omega
      rw [hk, leadingGroups, if_neg (by omega), hd, hm, leadingGroups_bound (j := acc) (k := k) le_rfl (by omega)]
      simp

/-- The bytes a length was read from are the length's own. -/
theorem nextLength_eq_ok {n : Nat} (e : nextLength 0 bs = .ok (n, rest)) : bs = lengthBytes n ++ rest :=
  nextLength_leading_eq_ok e

theorem nextAddr_eq_ok {a : Addr} (e : nextAddr bs = .ok (a, rest)) : bs = natBytes 2 a.toNat ++ rest := by
  obtain ⟨n, mid, h₁, h₂⟩ := parser_bind_eq_ok e
  cases h₂
  obtain ⟨m, hm, hn, rfl⟩ := nextNat_eq_ok h₁
  rw [hn, BitVec.toNat_ofNat, Nat.mod_eq_of_lt (by simpa using hm)]
  simp

/-! ### The first byte (30_encoding.md R74, R75) -/

/-- The fields of a frame's first byte. -/
theorem opW_fields (a : ChipAddr) :
    isFrameByte (opW a) = true ∧ frameChip (opW a) = a ∧ frameIsRead (opW a) = false := by
  revert a
  decide

theorem opR_fields (a : ChipAddr) :
    isFrameByte (opR a) = true ∧ frameChip (opR a) = a ∧ frameIsRead (opR a) = true := by
  revert a
  decide

set_option maxRecDepth 4000 in
/-- A frame's first byte is made of its fields. -/
theorem frameByte_eq {b : Byte} (h : isFrameByte b = true) :
    b = if frameIsRead b then opR (frameChip b) else opW (frameChip b) := by
  revert b
  decide

theorem decode_caller (b : Byte) (bs : List Byte) : decode .caller (b :: bs) = decodeOperation b bs := by
  rw [decode, parser_bind_of_ok (nextByte_cons _ _)]

theorem decode_wire (b : Byte) (bs : List Byte) :
    decode .wire (b :: bs) = if isFrameByte b then decodeFrame b bs else .error (.notAFrame b) := by
  rw [decode, parser_bind_of_ok (nextByte_cons _ _)]
  dsimp only
  split <;> rfl

theorem decode_opW (a : ChipAddr) (bs : List Byte) : decode .wire (opW a :: bs) = decodeFrame (opW a) bs := by
  rw [decode_wire, (opW_fields a).1, if_pos rfl]

theorem decode_opR (a : ChipAddr) (bs : List Byte) : decode .wire (opR a :: bs) = decodeFrame (opR a) bs := by
  rw [decode_wire, (opR_fields a).1, if_pos rfl]

/-- A first byte that is no selector (30_encoding.md R83). -/
theorem decodeOperation_unknown {b : Byte} (h : b.toNat = 0 ∨ 0x0E < b.toNat) :
    decodeOperation b = reject (.unknownSelector b) := by
  unfold decodeOperation
  split <;> first | omega | rfl

end Sys2Proof
end

