-- ==== Sys2Proof/Laws/Exec.lean ====
section
/-!
SUPPORT. Every instruction as a caller operation: what it refuses and its body, so that one lemma about `call` serves all
of them.
-/

namespace Sys2Proof.Machine

/-- What an instruction refuses, beside an overlapping call (60_exceptions.md R128). -/
def refusalOf (s : State) : Instr → Option Refusal
  | .init h chip _ _ => initRefusal h chip s
  | .writePin _ pin _ value => (pinRefusal pin).or (pinValueRefusal value)
  | .readPin _ pin _ => pinRefusal pin
  | .readBytes _ len _ => lengthRefusal s.params len
  | .wrFrame _ _ _ _ | .rdFrame _ _ _ | .destroy _ | .writeReg _ _ _ | .readReg _ _ _ | .setPortMode _ _ _
  | .writePort _ _ _ | .readPort _ _ | .isConnected _ | .readByte _ | .writeByte _ _ | .readInfo _ => none

/-- The body of an instruction; INIT's takes the expected read-back from the parameters `p`. -/
def bodyOf (p : Params) : Instr → Op OpResult
  | .wrFrame h a r v => do
    transactW h (frameW a r v)
    pure .ok
  | .rdFrame h a r => do
    let b ← transactR h (frameR a r)
    pure (.okByte b)
  | .init h chip tp cs => do
    initHandle h (chip.setWidth 3) tp cs ((lastWritten (initWrites p) p.verifyReg).getD 0#8)
    pure .ok
  | .destroy h => do
    update (destroyHandle h)
    pure .noResult
  | .writeReg h i v => do
    writeRegister h i v
    pure .ok
  | .readReg h i out => if out = .absent then raise .argAbsent else do
    let b ← readRegister h i
    update fun t => { t with out := b }
    pure (.okByte b)
  | .setPortMode h p m => do
    setMode h p m
    pure .ok
  | .writePin h pin p value => do
    pinWrite h (pin.setWidth 3) p (value == 1#8)
    pure .ok
  | .writePort h p v => do
    portWrite h p v
    pure .ok
  | .readPin h pin p => do
    let g ← portRead h p
    pure (.okBit (pinBit g (pin.setWidth 3)))
  | .readPort h p => do
    let g ← portRead h p
    pure (.okByte g)
  | .isConnected h => do
    let p ← getParams
    let ok ← completes (readRegister h p.probeReg)
    pure (.answer ok)
  | .readByte a => do
    let d ← byteRead a
    pure (.okByte d)
  | .writeByte a v => do
    byteWrite a v
    pure .ok
  | .readBytes start len buf => if buf = .absent then raise .argAbsent else do
    bytesRead start len
    pure .ok
  | .readInfo info => if info = .absent then raise .argAbsent else do
    infoRead
    pure .ok

/-- Every instruction is a caller operation. -/
theorem exec_eq_call (i : Instr) (s : State) : exec i s = call (refusalOf s i) (bodyOf s.params i) s := by
  cases i <;> rfl

/-- An instruction that is not refused answers the end of its body. -/
theorem exec_next {i : Instr} {s : State} (hb : s.busy = false) (hr : refusalOf s i = none) :
    exec i s = .next (finish (bodyOf s.params i { s with busy := true })) := by
  rw [exec_eq_call, hr, call_next hb]

/-- A next state of an instruction is the end of its body. -/
theorem exec_eq_next {i : Instr} {s t : State} (e : exec i s = .next t) :
    s.busy = false ∧ refusalOf s i = none ∧ t = finish (bodyOf s.params i { s with busy := true }) := by
  rw [exec_eq_call] at e
  exact call_eq_next e

end Sys2Proof.Machine
end

