-- ==== Sys2Proof/Laws/Transfers.lean ====
section
/-!
SUPPORT. READ_BYTE, WRITE_BYTE and runs of byte reads with every control line `Direct` (42_bus_controller.md R103 to
R105): what a success and a failure leave.
-/

namespace Sys2Proof.Machine

variable {s t : State} {c : Cause} {a : Addr}

theorem strobed_kept (s : State) : BusKept s s.strobed := by
  constructor <;> simp [State.strobed, State.drive, HandleKept]

@[simp] theorem strobed_trace (s : State) :
    s.strobed.trace = s.trace ++ [.delay s.params.tAS, .ctrl .RD .low, .delay s.params.tSS] := by
  simp [State.strobed]
@[simp] theorem strobed_ctrl (s : State) : s.strobed.ctrl = s.ctrl.set .RD .low := by
  simp [State.strobed, driven]
@[simp] theorem strobed_hA (s : State) : s.strobed.hA = s.hA := by simp [State.strobed]
@[simp] theorem strobed_hD (s : State) : s.strobed.hD = s.hD := by simp [State.strobed]
@[simp] theorem strobed_params (s : State) : s.strobed.params = s.params := by simp [State.strobed]

theorem phase_kept (q : Phase) (s : State) : BusKept s { s with phase := q } :=
  ⟨rfl, rfl, rfl, rfl, rfl, rfl, rfl, handleKept_refl _, handleKept_refl _⟩

/-- A READ_BYTE that succeeds (42_bus_controller.md R103). -/
theorem byteRead_ok {d : Byte} (hm : s.params.ctrlMap = .direct) (e : byteRead a s = .ok d t) :
    s.hA.init = true ∧ s.hD.init = true ∧ BusKept s t ∧ t.phase = .idle ∧ t.hD.cache = s.hD.cache ∧
      t.ctrl = ⟨.high, .low, .low⟩ ∧
      t.hA.cache = setReg22 (setReg22 s.hA.cache 0x14#8 (addrLow a)) 0x15#8 (addrHigh a) ∧
      ∃ g g', t.trace = s.trace ++ (addressSetEvents s.hA.chipAddr a g g' ++
        [.delay s.params.tAS, .ctrl .RD .low, .delay s.params.tSS] ++
        rEvents .hD (frameR s.hD.chipAddr (regIndex .gpio s.params.dataPort)) (some d) ++ [.ctrl .RD .high]) := by
  rw [byteRead_apply hm] at e
  split at e
  · cases e
  rename_i x u h₁
  split at e
  · cases e
  rename_i d' w h₂
  cases e
  obtain ⟨hi, k₁, hd, hc, hp, hk, g, g', ht⟩ := addressSet_ok hm h₁
  obtain ⟨hi₂, o, ht₂, -, hk₂⟩ := readRegister_ok h₂
  have hA := o.other
  simp only [State.handle, otherHandle, strobed_hA, strobed_hD, hd] at hi₂ ht₂ hk₂ hA
  refine ⟨hi, hi₂, ?_, rfl, ?_, ?_, ?_, g, g', ?_⟩
  · exact ((k₁.trans (strobed_kept u)).trans o.bus).trans ((drive_kept ..).trans (phase_kept ..))
  · simpa using hk₂
  · simp [o.ctrl, hc, CtrlLines.set, driven]
  · simp [hA, hk]
  · simp [ht₂, ht, k₁.params]

/-- A READ_BYTE that fails on initialized handles: at the address set, the lines as before, or at the data read, RD left
asserted (42_bus_controller.md R103, 70_reset_and_hazards.md R144). -/
theorem byteRead_error (hm : s.params.ctrlMap = .direct) (hiA : s.hA.init = true) (hiD : s.hD.init = true)
    (e : byteRead a s = .error c t) :
    BusKept s t ∧ t.phase = .idle ∧ t.hD.cache = s.hD.cache ∧
      ((∃ evs, t.trace = s.trace ++ evs ∧ evs.any isCtrl = false ∧
          evs.filterMap (dataByte (regIndex .gpio s.params.dataPort)) = [] ∧ t.ctrl = s.ctrl ∧
          (c = .txFail ∨ (c = .txRxFail ∧ s.params.verifyReadFail = .fail)) ∧
          ∀ k (hk : k < 22), k ≠ 0x14 → k ≠ 0x15 → t.hA.cache[k] = s.hA.cache[k]) ∨
       (c = .txRxFail ∧ t.ctrl = ⟨.low, .low, .low⟩ ∧
          t.hA.cache = setReg22 (setReg22 s.hA.cache 0x14#8 (addrLow a)) 0x15#8 (addrHigh a) ∧
          ∃ g g', t.trace = s.trace ++ (addressSetEvents s.hA.chipAddr a g g' ++
            [.delay s.params.tAS, .ctrl .RD .low, .delay s.params.tSS] ++
            rEvents .hD (frameR s.hD.chipAddr (regIndex .gpio s.params.dataPort)) none))) := by
  rw [byteRead_apply hm] at e
  split at e
  · rename_i c' u h₁
    cases e
    obtain ⟨k₁, hd, hc, hcause, hcells, evs, ht, hev, hdata⟩ := addressSet_error hm hiA h₁
    exact ⟨k₁.trans (phase_kept ..), rfl, by rw [show ({ u with phase := Phase.idle } : State).hD = u.hD from rfl, hd],
      .inl ⟨evs, ht, hev, hdata, hc, hcause, hcells⟩⟩
  rename_i x u h₁
  split at e
  case h_2 => cases e
  rename_i c' w h₂
  cases e
  obtain ⟨hi, k₁, hd, hc, hp, hk, g, g', ht⟩ := addressSet_ok hm h₁
  rcases readRegister_error h₂ with ⟨h₀, -⟩ | ⟨-, hcause, o, ht₂, -, hk₂⟩
  · simp [State.handle, hd, hiD] at h₀
  have hA := o.other
  simp only [State.handle, otherHandle, strobed_hA, strobed_hD, hd] at ht₂ hk₂ hA
  refine ⟨((k₁.trans (strobed_kept u)).trans o.bus).trans (phase_kept ..), rfl, hk₂, .inr ⟨hcause, ?_, ?_, g, g', ?_⟩⟩
  · simp [o.ctrl, hc, CtrlLines.set]
  · simp [hA, hk]
  · simp [ht₂, ht, k₁.params]

/-! ### Data bytes in a trace -/

theorem dataByte_verifyEvents_hA (chip : ChipAddr) (p : Port) (sc : Scope) (x : Byte) (g : Option Byte) (r : Byte) :
    (verifyEvents .hA chip p sc x g).filterMap (dataByte r) = [] := by
  unfold verifyEvents
  cases g with
  | none => rfl
  | some b => dsimp only; split <;> rfl

theorem dataByte_portWriteEvents_hA (chip : ChipAddr) (p : Port) (v : Byte) (g : Option Byte) (r : Byte) :
    (portWriteEvents .hA chip p v g).filterMap (dataByte r) = [] := by
  rw [portWriteEvents, List.filterMap_append, dataByte_verifyEvents_hA]
  rfl

theorem dataByte_addressSetEvents (chip : ChipAddr) (a : Addr) (g g' : Option Byte) (r : Byte) :
    (addressSetEvents chip a g g').filterMap (dataByte r) = [] := by
  rw [addressSetEvents, List.filterMap_append, List.filterMap_append, dataByte_portWriteEvents_hA,
    dataByte_portWriteEvents_hA]
  rfl

theorem dataByte_rEvents (chip : ChipAddr) (r : Byte) (d : Option Byte) :
    (rEvents .hD (frameR chip r) d).filterMap (dataByte r) = d.toList := by
  cases d with
  | none => rfl
  | some b => simp [rEvents, frameR, dataByte, List.filterMap_cons]

/-- The data byte of one byte read's events, if it succeeded. -/
theorem dataByte_readEvents (chip chip' : ChipAddr) (a : Addr) (g g' : Option Byte) (x y : Nat) (r : Byte)
    (d : Option Byte) :
    (addressSetEvents chip a g g' ++ [Event.delay x, .ctrl .RD .low, .delay y] ++ rEvents .hD (frameR chip' r) d).filterMap
      (dataByte r) = d.toList := by
  rw [List.filterMap_append, List.filterMap_append, dataByte_addressSetEvents, dataByte_rEvents]
  rfl

/-! ### Runs of byte reads (42_bus_controller.md R105) -/

/-- What a run of byte reads keeps. -/
structure RunKept (s t : State) : Prop extends BusKept s t where
  cacheD : t.hD.cache = s.hD.cache
  cacheA : ∀ k (hk : k < 22), k ≠ 0x14 → k ≠ 0x15 → t.hA.cache[k] = s.hA.cache[k]

theorem RunKept.refl (s : State) : RunKept s s := ⟨.refl s, rfl, fun _ _ _ _ => rfl⟩

theorem RunKept.trans {u : State} (x : RunKept s t) (y : RunKept t u) : RunKept s u :=
  ⟨x.toBusKept.trans y.toBusKept, y.cacheD.trans x.cacheD,
    fun k hk n₁ n₂ => (y.cacheA k hk n₁ n₂).trans (x.cacheA k hk n₁ n₂)⟩

theorem latched_other (r : Vector Byte 22) (x y : Byte) (k : Nat) (hk : k < 22) (n₁ : k ≠ 0x14) (n₂ : k ≠ 0x15) :
    (setReg22 (setReg22 r 0x14#8 x) 0x15#8 y)[k] = r[k] := by
  rw [setReg22_other _ _ _ _ hk (by rw [show (0x15#8).toNat = 0x15 from rfl]; exact n₂),
    setReg22_other _ _ _ _ hk (by rw [show (0x14#8).toNat = 0x14 from rfl]; exact n₁)]

theorem byteRead_runKept_ok {d : Byte} (hm : s.params.ctrlMap = .direct) (e : byteRead a s = .ok d t) :
    RunKept s t := by
  obtain ⟨-, -, k, -, hD, -, hA, -⟩ := byteRead_ok hm e
  exact ⟨k, hD, fun i hi n₁ n₂ => by rw [hA]; exact latched_other _ _ _ _ hi n₁ n₂⟩

theorem byteRead_runKept_error (hm : s.params.ctrlMap = .direct) (hiA : s.hA.init = true) (hiD : s.hD.init = true)
    (e : byteRead a s = .error c t) : RunKept s t := by
  obtain ⟨k, -, hD, h | ⟨-, -, hA, -⟩⟩ := byteRead_error hm hiA hiD e
  · exact ⟨k, hD, h.choose_spec.2.2.2.2.2⟩
  · exact ⟨k, hD, fun i hi n₁ n₂ => by rw [hA]; exact latched_other _ _ _ _ hi n₁ n₂⟩

/-- A run of byte reads: the bytes are the data bytes of its events, as many as asked unless one failed. -/
theorem readRun_spec (hm : s.params.ctrlMap = .direct) (hiA : s.hA.init = true) (hiD : s.hD.init = true) (a : Addr)
    (n : Nat) :
    RunKept s (readRun a n s).state ∧ (s.phase = .idle → (readRun a n s).state.phase = .idle) ∧
      (n ≠ 0 → (readRun a n s).state.phase = .idle) ∧
      (∃ evs, (readRun a n s).state.trace = s.trace ++ evs ∧
        evs.filterMap (dataByte (regIndex .gpio s.params.dataPort)) = (readRun a n s).got) ∧
      (((readRun a n s).failed = none ∧ (readRun a n s).got.length = n ∧
          (n ≠ 0 → (readRun a n s).state.ctrl = ⟨.high, .low, .low⟩)) ∨
        ((readRun a n s).got.length < n ∧
          ((readRun a n s).failed = some .txFail ∨ (readRun a n s).failed = some .txRxFail))) := by
  induction n generalizing a s with
  | zero => exact ⟨.refl s, id, by simp, ⟨[], by simp [readRun], by simp [readRun]⟩, .inl ⟨rfl, rfl, by simp⟩⟩
  | succ n ih =>
    unfold readRun
    cases h : byteRead a s with
    | error c u =>
      have hk := byteRead_runKept_error hm hiA hiD h
      obtain ⟨-, hp, -, h₁⟩ := byteRead_error hm hiA hiD h
      refine ⟨hk, fun _ => hp, fun _ => hp, ?_, ?_⟩
      · rcases h₁ with ⟨evs, ht, -, hd, -⟩ | ⟨-, -, -, g, g', ht⟩
        · exact ⟨evs, ht, hd⟩
        · exact ⟨_, ht, dataByte_readEvents ..⟩
      · refine .inr ⟨by simp, ?_⟩
        rcases h₁ with ⟨-, -, -, -, -, hc, -⟩ | ⟨hc, -⟩
        · rcases hc with hc | ⟨hc, -⟩ <;> simp [hc]
        · simp [hc]
    | ok d u =>
      have hk := byteRead_runKept_ok hm h
      obtain ⟨-, -, -, hp, -, hctrl, -, g, g', ht⟩ := byteRead_ok hm h
      have hm' : u.params.ctrlMap = .direct := by rw [hk.params]; exact hm
      have hA' : u.hA.init = true := by rw [hk.hA.2.2.2.1]; exact hiA
      have hD' : u.hD.init = true := by rw [hk.hD.2.2.2.1]; exact hiD
      obtain ⟨k₂, p₂, -, ⟨evs, ht₂, hd₂⟩, r₂⟩ := ih hm' hA' hD' (a + 1#16)
      refine ⟨hk.trans k₂, fun _ => p₂ hp, fun _ => p₂ hp, ⟨_, by rw [ht₂, ht, List.append_assoc], ?_⟩, ?_⟩
      · rw [hk.params] at hd₂
        rw [List.filterMap_append, List.filterMap_append, dataByte_readEvents, hd₂]
        rfl
      · rcases r₂ with ⟨hf, hl, hcl⟩ | ⟨hl, hf⟩
        · refine .inl ⟨hf, by simp [hl], fun _ => ?_⟩
          cases n with
          | zero => exact hctrl
          | succ n => exact hcl (by simp)
        · exact .inr ⟨by simpa using hl, hf⟩

/-! ### WRITE_BYTE (42_bus_controller.md R104) -/

/-- WRITE_BYTE with every line `Direct`. -/
theorem byteWrite_apply (hm : s.params.ctrlMap = .direct) (a : Addr) (v : Byte) :
    byteWrite a v s =
      match addressSet a s with
      | .error c u => .error c { u with phase := .idle }
      | .ok _ u =>
        match portWrite .hD u.params.dataPort v { u with phase := .writeActive } with
        | .error c w => .error c { w with phase := .idle }
        | .ok _ w =>
          match portWrite .hD (otherPort u.params.dataPort) 0x00#8 w with
          | .error c x => .error c { x with phase := .idle }
          | .ok _ x => .ok () { ((x.drive .WR .high).drive .WR .low) with phase := .idle } := by
  unfold byteWrite transfer
  rw [bind_apply]
  cases h₁ : addressSet a s with
  | error c u => rfl
  | ok x u =>
    have hu : u.params.ctrlMap = .direct := by rw [(addressSet_ok hm h₁).2.1.params]; exact hm
    dsimp only
    rw [setPhase, update_bind, getParams_bind, bind_apply]
    cases h₂ : portWrite .hD u.params.dataPort v { u with phase := .writeActive } with
    | error c w => rfl
    | ok y w =>
      have hw : w.params.ctrlMap = .direct := by rw [(portWrite_ok h₂).2.1.params]; exact hu
      dsimp only
      rw [bind_apply]
      cases h₃ : portWrite .hD (otherPort u.params.dataPort) 0x00#8 w with
      | error c x => rfl
      | ok z x =>
        have hx : x.params.ctrlMap = .direct := by rw [(portWrite_ok h₃).2.1.params]; exact hw
        dsimp only
        rw [bind_ok (ctrlSet_direct hx), ctrlSet_direct (by simpa using hx)]

/-- A WRITE_BYTE that succeeds (42_bus_controller.md R104). -/
theorem byteWrite_ok {v : Byte} {u : Unit} (hm : s.params.ctrlMap = .direct) (e : byteWrite a v s = .ok u t) :
    BusKept s t ∧ t.phase = .idle ∧ t.ctrl = ⟨.high, .low, .low⟩ ∧
      t.hA.cache = setReg22 (setReg22 s.hA.cache 0x14#8 (addrLow a)) 0x15#8 (addrHigh a) ∧
      t.hD.cache = setReg22 (setReg22 s.hD.cache (regIndex .olat s.params.dataPort) v)
        (regIndex .olat (otherPort s.params.dataPort)) 0x00#8 ∧
      ∃ g g' g₁ g₂, t.trace = s.trace ++ (addressSetEvents s.hA.chipAddr a g g' ++
        portWriteEvents .hD s.hD.chipAddr s.params.dataPort v g₁ ++
        portWriteEvents .hD s.hD.chipAddr (otherPort s.params.dataPort) 0x00#8 g₂ ++
        [.ctrl .WR .high, .ctrl .WR .low]) := by
  rw [byteWrite_apply hm] at e
  split at e
  · cases e
  rename_i x u₁ h₁
  split at e
  · cases e
  rename_i y u₂ h₂
  split at e
  · cases e
  rename_i z u₃ h₃
  cases e
  obtain ⟨-, k₁, hd, hc, -, hk, g, g', ht⟩ := addressSet_ok hm h₁
  obtain ⟨-, o₂, -, hk₂, g₁, ht₂, -⟩ := portWrite_ok h₂
  obtain ⟨-, o₃, -, hk₃, g₂, ht₃, -⟩ := portWrite_ok h₃
  have hp := o₂.params
  have hA₂ := o₂.other
  have hA₃ := o₃.other
  have hch := o₂.chipAddr
  simp only [State.handle, otherHandle, k₁.params, hd] at hk₂ hk₃ hA₂ hA₃ hch ht₂ ht₃ hp
  refine ⟨(((k₁.trans (phase_kept ..)).trans o₂.bus).trans o₃.bus).trans
    (((drive_kept ..).trans (drive_kept ..)).trans (phase_kept ..)), rfl, ?_, ?_, ?_, g, g', g₁, g₂, ?_⟩
  · simp [o₃.ctrl, o₂.ctrl, hc, CtrlLines.set, driven]
  · simp [hA₃, hA₂, hk]
  · simp [hk₃, hk₂]
  · simp [ht₃, ht₂, ht, hch]

theorem olat_index (p : Port) : (regIndex .olat p).toNat = 0x14 ∨ (regIndex .olat p).toNat = 0x15 := by
  cases p <;> decide

theorem setReg22_olat_other (r : Vector Byte 22) (p : Port) (v : Byte) (k : Nat) (hk : k < 22) (n₁ : k ≠ 0x14)
    (n₂ : k ≠ 0x15) : (setReg22 r (regIndex .olat p) v)[k] = r[k] :=
  setReg22_other _ _ _ _ _ (by rcases olat_index p with h | h <;> omega)

/-- A port write that fails on an initialized handle, with what the bus controller's statements need of it. -/
theorem portWrite_failed {h : Handle} {p : Port} {v : Byte} (hi : (s.handle h).init = true)
    (e : portWrite h p v s = .error c t) :
    OnlyHandle h s t ∧ (c = .txFail ∨ (c = .txRxFail ∧ s.params.verifyReadFail = .fail)) ∧
      (∀ k (hk : k < 22), k ≠ 0x14 → k ≠ 0x15 → (t.handle h).cache[k] = (s.handle h).cache[k]) ∧
      ∃ evs, t.trace = s.trace ++ evs ∧ evs.any isCtrl = false := by
  obtain ⟨o, -, ⟨hc, hk, ht⟩ | ⟨hc, hv, hk, ht⟩⟩ := portWrite_error hi e
  · exact ⟨o, .inl hc, fun k hk' _ _ => by rw [hk], _, ht, by simp [wEvents, isCtrl]⟩
  · exact ⟨o, .inr ⟨hc, hv⟩, fun k hk' n₁ n₂ => by rw [hk, setReg22_olat_other _ _ _ _ hk' n₁ n₂], _, ht,
      portWriteEvents_isCtrl ..⟩

/-- A WRITE_BYTE that fails on initialized handles: at the address set, or at a data write (42_bus_controller.md R104). -/
theorem byteWrite_error {v : Byte} (hm : s.params.ctrlMap = .direct) (hiA : s.hA.init = true) (hiD : s.hD.init = true)
    (e : byteWrite a v s = .error c t) :
    BusKept s t ∧ t.phase = .idle ∧ (c = .txFail ∨ (c = .txRxFail ∧ s.params.verifyReadFail = .fail)) ∧
      ((t.ctrl = ⟨.high, .low, .low⟩ ∧
          t.hA.cache = setReg22 (setReg22 s.hA.cache 0x14#8 (addrLow a)) 0x15#8 (addrHigh a) ∧
          (∀ k (hk : k < 22), k ≠ 0x14 → k ≠ 0x15 → t.hD.cache[k] = s.hD.cache[k]) ∧
          ∃ g g' rest, t.trace = s.trace ++ (addressSetEvents s.hA.chipAddr a g g' ++ rest) ∧
            rest.any isCtrl = false) ∨
       (t.ctrl = s.ctrl ∧ t.hD = s.hD ∧
          (∀ k (hk : k < 22), k ≠ 0x14 → k ≠ 0x15 → t.hA.cache[k] = s.hA.cache[k]) ∧
          ∃ evs, t.trace = s.trace ++ evs ∧ evs.any isCtrl = false)) := by
  rw [byteWrite_apply hm] at e
  split at e
  · rename_i c' u h₁
    cases e
    obtain ⟨k₁, hd, hc, hcause, hcells, evs, ht, hev, -⟩ := addressSet_error hm hiA h₁
    exact ⟨k₁.trans (phase_kept ..), rfl, hcause, .inr ⟨hc, hd, hcells, evs, ht, hev⟩⟩
  rename_i x u₁ h₁
  obtain ⟨-, k₁, hd, hc, -, hk, g, g', ht⟩ := addressSet_ok hm h₁
  split at e
  · rename_i c' u₂ h₂
    cases e
    obtain ⟨o₂, hcause, hcells, evs, ht₂, hev⟩ :=
      portWrite_failed (s := { u₁ with phase := .writeActive }) (h := .hD)
        (by simp only [State.handle, hd]; exact hiD) h₂
    have hA₂ := o₂.other
    simp only [State.handle, otherHandle, k₁.params, hd] at hA₂ hcause hcells ht₂
    refine ⟨((k₁.trans (phase_kept ..)).trans o₂.bus).trans (phase_kept ..), rfl, hcause, .inl ⟨?_, ?_, hcells, g, g', evs, ?_, hev⟩⟩
    · simp [o₂.ctrl, hc]
    · simp [hA₂, hk]
    · simp [ht₂, ht]
  rename_i y u₂ h₂
  split at e
  case h_2 => cases e
  rename_i c' u₃ h₃
  cases e
  obtain ⟨hi₂, o₂, -, hk₂, g₁, ht₂, -⟩ := portWrite_ok h₂
  obtain ⟨o₃, hcause, hcells, evs, ht₃, hev⟩ := portWrite_failed (h := .hD) (by rw [o₂.init]; exact hi₂) h₃
  have hp := o₂.params
  have hA₂ := o₂.other
  have hA₃ := o₃.other
  simp only [State.handle, otherHandle, k₁.params, hd] at hk₂ hA₂ hA₃ ht₂ ht₃ hp hcells
  rw [hp] at hcause
  refine ⟨(((k₁.trans (phase_kept ..)).trans o₂.bus).trans o₃.bus).trans (phase_kept ..), rfl, hcause,
    .inl ⟨?_, ?_, ?_, g, g', portWriteEvents .hD s.hD.chipAddr s.params.dataPort v g₁ ++ evs, ?_, ?_⟩⟩
  · simp [o₃.ctrl, o₂.ctrl, hc]
  · simp [hA₃, hA₂, hk]
  · intro k hk' n₁ n₂
    exact (hcells k hk' n₁ n₂).trans (by simp only [hk₂]; exact setReg22_olat_other _ _ _ _ hk' n₁ n₂)
  · simp [ht₃, ht₂, ht]
  · rw [List.any_append, portWriteEvents_isCtrl, hev]
    rfl

end Sys2Proof.Machine
end

