-- ==== Sys2Proof/Laws/Ideal.lean ====
section
/-!
SUPPORT. The operations in the ideal environment of 20_memory.md R54, with no reply fixed in advance: every transport call
succeeds, and what a chip and the cartridge hold afterwards.
-/

namespace Sys2Proof.Machine

variable {s : State} {e : IdealEnv} {h : Handle}

/-- The ideal environment with nothing fixed in advance. -/
abbrev idealEnv (e : IdealEnv) : Env := ⟨[], .ideal e⟩

theorem ideal_txAnswer (he : s.env = idealEnv e) (h : Handle) (bytes : List Byte) : txAnswer h bytes s = true := by
  simp [txAnswer, nextReply, he]

theorem ideal_rxAnswer (he : s.env = idealEnv e) (h : Handle) (a : ChipAddr) (r : Byte) :
    rxAnswer h (frameR a r) s = some (e.readReg s.params.dataPort s.ctrl.rd h r) := by
  simp [rxAnswer, nextReply, he, frameR]

theorem ideal_afterW (he : s.env = idealEnv e) (h : Handle) (a : ChipAddr) (r v : Byte) :
    (s.afterW h (frameW a r v)).env = idealEnv (e.setReg h r v) := by
  simp [State.afterW, ideal_txAnswer (s := s.select h) (e := e) (by simpa using he), chipTakes, Env.after, he,
    EnvModel.takeFrame, frameW]

theorem ideal_afterR (he : s.env = idealEnv e) (h : Handle) (a : ChipAddr) (r : Byte) :
    (s.afterR h (frameR a r)).env = idealEnv e := by
  simp [State.afterR, Env.after, he]

theorem ideal_transactW (he : s.env = idealEnv e) (h : Handle) (a : ChipAddr) (r v : Byte) :
    transactW h (frameW a r v) s = .ok () (s.afterW h (frameW a r v)) := by
  rw [transactW_apply, ideal_txAnswer (e := e) (by simpa using he), if_pos rfl]

theorem ideal_transactR (he : s.env = idealEnv e) (h : Handle) (a : ChipAddr) (r : Byte) :
    transactR h (frameR a r) s = .ok (e.readReg s.params.dataPort s.ctrl.rd h r) (s.afterR h (frameR a r)) := by
  rw [transactR_apply, ideal_rxAnswer (e := e) (by simpa using he)]
  simp

/-- A register write succeeds and the chip holds the value (40_register_driver.md R87). -/
theorem ideal_writeRegister (he : s.env = idealEnv e) (hi : (s.handle h).init = true) (i v : Byte) :
    ∃ t, writeRegister h i v s = .ok () t ∧ OnlyHandle h s t ∧ t.env = idealEnv (e.setReg h i v) := by
  refine ⟨(s.afterW h (frameW (s.handle h).chipAddr i v)).setCache h i v, ?_, ?_, ?_⟩
  · rw [writeRegister_apply hi, ideal_txAnswer (e := e) (by simpa using he), if_pos rfl]
  · exact (afterW_only ..).trans (setCache_only ..)
  · rw [State.setCache_env, ideal_afterW he]

/-- A register read succeeds with what the chip answers (40_register_driver.md R88). -/
theorem ideal_readRegister (he : s.env = idealEnv e) (hi : (s.handle h).init = true) (i : Byte) :
    ∃ t, readRegister h i s = .ok (e.readReg s.params.dataPort s.ctrl.rd h i) t ∧ OnlyHandle h s t ∧
      t.env = idealEnv e := by
  refine ⟨s.afterR h (frameR (s.handle h).chipAddr i), ?_, afterR_only .., ideal_afterR he ..⟩
  rw [readRegister_apply hi, ideal_rxAnswer (e := e) (by simpa using he)]
  simp

/-- A soft verification succeeds, whatever it observes (41_port_pin.md R92). -/
theorem ideal_softVerify (he : s.env = idealEnv e) (hi : (s.handle h).init = true) (p : Port) (sc : Scope) (x : Byte) :
    ∃ t, softVerify h p sc x s = .ok () t ∧ OnlyHandle h s t ∧ t.env = idealEnv e := by
  obtain ⟨t, ht, o, ht'⟩ := ideal_readRegister (h := h) he hi (regIndex .gpio p)
  refine ⟨_, by unfold softVerify; rw [ht], o.trans (logMismatch_only ..), ?_⟩
  unfold logMismatch
  split
  · exact ht'
  · rw [State.emit_env]
    exact ht'

/-- A port write (41_port_pin.md R95). -/
theorem ideal_portWrite (he : s.env = idealEnv e) (hi : (s.handle h).init = true) (p : Port) (v : Byte) :
    ∃ t, portWrite h p v s = .ok () t ∧ OnlyHandle h s t ∧ t.env = idealEnv (e.setReg h (regIndex .olat p) v) := by
  obtain ⟨t, h₁, o, ht⟩ := ideal_writeRegister he hi (regIndex .olat p) v
  obtain ⟨u, h₂, o', hu⟩ := ideal_softVerify (h := h) ht (by rw [o.init]; exact hi) p .port v
  exact ⟨u, by unfold portWrite; rw [bind_ok h₁, h₂], o.trans o', hu⟩

/-- The latch reads back what it holds: it is no GPIO-state register (20_memory.md R54). -/
theorem readReg_olat (e : IdealEnv) (data : Port) (rd : LineLevel) (h : Handle) (p : Port) :
    e.readReg data rd h (regIndex .olat p) = getReg22 (e.regs h) (regIndex .olat p) := by
  unfold IdealEnv.readReg
  rw [if_neg (by cases p <;> decide), if_neg (by cases p <;> decide)]

theorem readReg_gpio (e : IdealEnv) (data : Port) (rd : LineLevel) (h : Handle) (p : Port) :
    e.readReg data rd h (regIndex .gpio p) = e.gpio data rd h p := by
  unfold IdealEnv.readReg
  cases p
  · rw [if_pos rfl]
  · rw [if_neg (by decide), if_pos rfl]

/-- A pin write (41_port_pin.md R94). -/
theorem ideal_pinWrite (he : s.env = idealEnv e) (hi : (s.handle h).init = true) (n : Pin) (p : Port) (b : Bool) :
    ∃ t, pinWrite h n p b s = .ok () t ∧ OnlyHandle h s t ∧
      t.env = idealEnv (e.setReg h (regIndex .olat p) (withPin (getReg22 (e.regs h) (regIndex .olat p)) n b)) := by
  obtain ⟨t, h₁, o₁, ht⟩ := ideal_readRegister (h := h) he hi (regIndex .olat p)
  rw [readReg_olat] at h₁
  obtain ⟨u, h₂, o₂, hu⟩ := ideal_writeRegister (h := h) ht (by rw [o₁.init]; exact hi) (regIndex .olat p)
    (withPin (getReg22 (e.regs h) (regIndex .olat p)) n b)
  obtain ⟨w, h₃, o₃, hw⟩ := ideal_softVerify (h := h) hu (by rw [o₂.init, o₁.init]; exact hi) p (.pin n) (bitByte b)
  exact ⟨w, by unfold pinWrite; rw [bind_ok h₁, bind_ok h₂, h₃], (o₁.trans o₂).trans o₃, hw⟩

/-! ### What the chips hold -/

theorem regs_setReg (e : IdealEnv) (h k : Handle) (r v : Byte) :
    (e.setReg h r v).regs k = if k = h then setReg22 (e.regs h) r v else e.regs k := by
  cases h <;> cases k <;> rfl

@[simp] theorem setReg_rom (e : IdealEnv) (h : Handle) (r v : Byte) : (e.setReg h r v).rom = e.rom := by
  cases h <;> rfl
@[simp] theorem setReg_writes (e : IdealEnv) (h : Handle) (r v : Byte) : (e.setReg h r v).writes = e.writes := by
  cases h <;> rfl
@[simp] theorem setReg_hA_regsD (e : IdealEnv) (r v : Byte) : (e.setReg .hA r v).regsD = e.regsD := rfl
@[simp] theorem setReg_hA_regsA (e : IdealEnv) (r v : Byte) : (e.setReg .hA r v).regsA = setReg22 e.regsA r v := rfl
@[simp] theorem setReg_hD_regsA (e : IdealEnv) (r v : Byte) : (e.setReg .hD r v).regsA = e.regsA := rfl
@[simp] theorem setReg_hD_regsD (e : IdealEnv) (r v : Byte) : (e.setReg .hD r v).regsD = setReg22 e.regsD r v := rfl

theorem joinAddr_split (a : Addr) : joinAddr (addrHigh a) (addrLow a) = a := by
  have h : ∀ x y : Byte, (joinAddr x y).toNat = x.toNat * 256 + y.toNat := by
    intro x y
    rw [joinAddr, BitVec.toNat_append, ← Nat.shiftLeft_add_eq_or_of_lt y.isLt, Nat.shiftLeft_eq]
  apply BitVec.eq_of_toNat_eq
  have h₁ : (addrLow a).toNat = a.toNat % 256 := by simp [addrLow]
  have h₂ : (addrHigh a).toNat = a.toNat / 256 % 256 := by
    simp [addrHigh, Nat.shiftRight_eq_div_pow]
  rw [h, h₁, h₂]
  have := a.isLt
  omega

/-- The environment behind the address set. -/
def IdealEnv.latched (e : IdealEnv) (a : Addr) : IdealEnv :=
  (e.setReg .hA (regIndex .olat .A) (addrLow a)).setReg .hA (regIndex .olat .B) (addrHigh a)

theorem busAddr_latched (e : IdealEnv) (a : Addr) : (e.latched a).busAddr = a := by
  have h₁ : getReg22 (e.latched a).regsA (regIndex .olat .B) = addrHigh a := by
    rw [IdealEnv.latched, setReg_hA_regsA, getReg22_setReg22, if_pos ⟨rfl, by decide⟩]
  have h₂ : getReg22 (e.latched a).regsA (regIndex .olat .A) = addrLow a := by
    rw [IdealEnv.latched, setReg_hA_regsA, getReg22_setReg22, if_neg (by decide), setReg_hA_regsA, getReg22_setReg22,
      if_pos ⟨rfl, by decide⟩]
  rw [IdealEnv.busAddr, h₁, h₂, joinAddr_split]

/-! ### Transfers with every line `Direct` -/

/-- Driving a line leaves the ideal environment alone, but that the cartridge records a write when WR falls. -/
theorem drive_env (he : s.env = idealEnv e) (line : Line) (lvl : Level) :
    (s.drive line lvl).env = idealEnv
      (if line = .WR ∧ lvl = .low ∧ s.ctrl.wr = .high then e.recordWrite s.params.dataPort else e) := by
  have hm : s.env.model = .ideal e := by rw [he]
  unfold State.drive State.setCtrl
  simp only [State.emit_env, hm, State.emit_ctrl]
  by_cases hw : s.ctrl.wr = .high <;> cases line <;> cases lvl <;> simp [CtrlLines.set, driven, hw, he]

/-- Two ideal environments whose chips and ROM hold the same. -/
def IdealEnv.Same (e e' : IdealEnv) : Prop := e'.regsA = e.regsA ∧ e'.regsD = e.regsD ∧ e'.rom = e.rom

theorem recordWrite_same (e : IdealEnv) (p : Port) : e.Same (e.recordWrite p) := ⟨rfl, rfl, rfl⟩

theorem IdealEnv.Same.busAddr {e e' : IdealEnv} (h : e.Same e') : e'.busAddr = e.busAddr := by
  unfold IdealEnv.busAddr
  rw [h.1]

/-- The address set succeeds; the chip of `hA` holds the address (42_bus_controller.md R101). It records a write only
when the write strobe was left active. -/
theorem ideal_addressSet (hm : s.params.ctrlMap = .direct) (he : s.env = idealEnv e) (hA : s.hA.init = true) (a : Addr) :
    ∃ t e', addressSet a s = .ok () t ∧ t.env = idealEnv e' ∧ (e.latched a).Same e' ∧
      (s.ctrl.wr ≠ .high → e' = e.latched a) := by
  obtain ⟨u, h₁, o₁, hu⟩ := ideal_portWrite (s := { s with phase := .addressSet }) (h := .hA) he hA .A (addrLow a)
  obtain ⟨w, h₂, o₂, hw⟩ := ideal_portWrite (h := .hA) hu (by rw [o₁.init]; exact hA) .B (addrHigh a)
  have hw : w.env = idealEnv (e.latched a) := hw
  have hc : w.ctrl = s.ctrl := by rw [o₂.ctrl, o₁.ctrl]
  have d₁ := drive_env hw .RD .high
  have d₂ := drive_env d₁ .WR .low
  have d₃ := drive_env d₂ .CS .low
  refine ⟨w.resetLines, _, by rw [addressSet_apply hm, h₁]; dsimp only; rw [h₂], d₃, ?_, fun hne => ?_⟩
  · rw [if_neg (by simp)]
    split
    · exact recordWrite_same ..
    · exact ⟨rfl, rfl, rfl⟩
  · rw [if_neg (by simp), if_neg, if_neg (by simp)]
    simp [hc, CtrlLines.set, hne]

/-- With the data port an input and RD low, a GPIO read of it samples the cartridge's byte (20_memory.md R54). -/
theorem gpio_data_input (e : IdealEnv) (data : Port) (hd : getReg22 e.regsD (regIndex .iodir data) = 0xFF#8) :
    e.gpio data .low .hD data = e.rom.read e.busAddr.toNat := by
  unfold IdealEnv.gpio IdealEnv.external
  simp only [IdealEnv.regs, hd, and_self, if_true]
  have h₁ : (~~~ 0xFF#8) = 0#8 := rfl
  have h₂ : ∀ x : Byte, 0xFF#8 &&& x = x := fun x => BitVec.allOnes_and
  rw [h₁, h₂, BitVec.zero_and, BitVec.zero_or]

/-- READ_BYTE returns the cartridge's byte at the address (42_bus_controller.md R103). -/
theorem ideal_byteRead (hm : s.params.ctrlMap = .direct) (he : s.env = idealEnv e) (hA : s.hA.init = true)
    (hD : s.hD.init = true) (hd : getReg22 e.regsD (regIndex .iodir s.params.dataPort) = 0xFF#8) (a : Addr) :
    ∃ t e', byteRead a s = .ok (e.rom.read a.toNat) t ∧ t.env = idealEnv e' ∧ e'.regsD = e.regsD ∧ e'.rom = e.rom := by
  obtain ⟨u, e₁, h₁, hu, hs, -⟩ := ideal_addressSet hm he hA a
  obtain ⟨-, k₁, hhd, hc, -⟩ := addressSet_ok hm h₁
  have d₁ := drive_env (s := { (u.emit (.delay u.params.tAS)) with phase := .readActive }) hu .RD .low
  rw [if_neg (by simp)] at d₁
  have hu' : u.strobed.env = idealEnv e₁ := d₁
  obtain ⟨w, h₂, o₂, hw⟩ := ideal_readRegister (h := .hD) hu' (by simp [State.handle, hhd, hD]) (regIndex .gpio u.params.dataPort)
  have hr : e₁.readReg u.strobed.params.dataPort u.strobed.ctrl.rd .hD (regIndex .gpio u.params.dataPort) =
      e.rom.read a.toNat := by
    rw [readReg_gpio, strobed_params, strobed_ctrl]
    show e₁.gpio u.params.dataPort .low .hD u.params.dataPort = _
    rw [gpio_data_input, hs.busAddr, busAddr_latched, hs.2.2]
    · rfl
    · rw [hs.2.1, k₁.params]
      exact hd
  rw [hr] at h₂
  have d₂ := drive_env hw .RD .high
  rw [if_neg (by simp)] at d₂
  refine ⟨{ (w.drive .RD .high) with phase := .idle }, e₁, ?_, d₂, hs.2.1, hs.2.2⟩
  rw [byteRead_apply hm, h₁]
  dsimp only
  rw [portRead, h₂]

/-- A run of byte reads returns the cartridge's bytes, the address wrapping around (42_bus_controller.md R105, R106). -/
theorem ideal_readRun (hm : s.params.ctrlMap = .direct) (he : s.env = idealEnv e) (hA : s.hA.init = true)
    (hD : s.hD.init = true) (hd : getReg22 e.regsD (regIndex .iodir s.params.dataPort) = 0xFF#8) (a : Addr) (n : Nat) :
    (readRun a n s).failed = none ∧
      (readRun a n s).got = (List.range n).map fun i => e.rom.read ((a.toNat + i) % 65536) := by
  induction n generalizing a s e with
  | zero => exact ⟨rfl, rfl⟩
  | succ n ih =>
    obtain ⟨t, e', h₁, ht, hrd, hrom⟩ := ideal_byteRead hm he hA hD hd a
    obtain ⟨-, -, k, -⟩ := byteRead_ok hm h₁
    have h := ih (by rw [k.params]; exact hm) ht (by rw [k.hA.2.2.2.1]; exact hA) (by rw [k.hD.2.2.2.1]; exact hD)
      (by rw [hrd, k.params]; exact hd) (a + 1#16)
    unfold readRun
    rw [h₁]
    dsimp only
    refine ⟨h.1, ?_⟩
    rw [h.2, List.range_succ_eq_map, List.map_cons, List.map_map, hrom]
    have ha := a.isLt
    congr 1
    · rw [Nat.add_zero, Nat.mod_eq_of_lt (by omega)]
    · refine List.map_congr_left fun i _ => ?_
      simp only [Function.comp, BitVec.toNat_add, BitVec.toNat_ofNat]
      congr 1
      omega

/-- READ_INFO's bulk read succeeds (43_header_parser.md R109). -/
theorem ideal_infoRead (hm : s.params.ctrlMap = .direct) (he : s.env = idealEnv e) (hA : s.hA.init = true)
    (hD : s.hD.init = true) (hd : getReg22 e.regsD (regIndex .iodir s.params.dataPort) = 0xFF#8) :
    ∃ t, infoRead s = .ok () t ∧
      t.info = parseHeader (readRun 0x0000#16 headerBlock s).state.params.titleCap
        ((List.range headerBlock).map fun i => e.rom.read ((0 + i) % 65536))
        (readRun 0x0000#16 headerBlock s).state.draws := by
  obtain ⟨hf, hg⟩ := ideal_readRun hm he hA hD hd 0x0000#16 headerBlock
  unfold infoRead
  dsimp only
  rw [hf]
  exact ⟨_, rfl, by rw [hg]; rfl⟩

/-- WRITE_BYTE: the cartridge records one write of the byte to the address (42_bus_controller.md R104). -/
theorem ideal_byteWrite (hm : s.params.ctrlMap = .direct) (he : s.env = idealEnv e) (hA : s.hA.init = true)
    (hD : s.hD.init = true) (hw : s.ctrl.wr ≠ .high) (a : Addr) (v : Byte) :
    ∃ t, byteWrite a v s = .ok () t ∧ t.env = idealEnv ((((e.latched a).setReg .hD (regIndex .olat s.params.dataPort) v).setReg
      .hD (regIndex .olat (otherPort s.params.dataPort)) 0x00#8).recordWrite s.params.dataPort) := by
  obtain ⟨u, e₁, h₁, hu, -, hs⟩ := ideal_addressSet hm he hA a
  obtain ⟨-, k₁, hhd, hc, -⟩ := addressSet_ok hm h₁
  rw [hs hw] at hu
  obtain ⟨x, h₂, o₂, hx⟩ := ideal_portWrite (s := { u with phase := .writeActive }) (h := .hD) hu
    (by simp [State.handle, hhd, hD]) u.params.dataPort v
  obtain ⟨y, h₃, o₃, hy⟩ := ideal_portWrite (h := .hD) hx (by rw [o₂.init]; simp [State.handle, hhd, hD])
    (otherPort u.params.dataPort) 0x00#8
  have hp : y.params = s.params := by rw [o₃.params, o₂.params]; exact k₁.params
  have d₁ := drive_env hy .WR .high
  have d₂ := drive_env d₁ .WR .low
  rw [if_pos ⟨rfl, rfl, by simp [CtrlLines.set, driven]⟩, if_neg (by simp), drive_params, hp, k₁.params] at d₂
  refine ⟨{ ((y.drive .WR .high).drive .WR .low) with phase := .idle }, ?_, d₂⟩
  rw [byteWrite_apply hm, h₁]
  dsimp only
  rw [h₂]
  dsimp only
  rw [h₃]

end Sys2Proof.Machine
end

