-- ==== Sys2Proof/Laws/Init.lean ====
section
/-!
SUPPORT. One spec lemma for INIT's writes and one for INIT: everything they can do (40_register_driver.md R89).
-/

namespace Sys2Proof.Machine

/-- The events of writes that all succeeded. -/
def sentEvents (h : Handle) (a : ChipAddr) (ws : List (Byte × Byte)) : List Event :=
  (ws.map fun w => wEvents h (frameW a w.1 w.2) true).flatten

theorem sentEvents_cons (h : Handle) (a : ChipAddr) (w : Byte × Byte) (ws : List (Byte × Byte)) :
    sentEvents h a (w :: ws) = wEvents h (frameW a w.1 w.2) true ++ sentEvents h a ws := rfl

/-- INIT's writes: all of them, or those before the first that failed and that one. -/
theorem sendWrites_spec (h : Handle) (a : ChipAddr) (ws : List (Byte × Byte)) (s : State) :
    ∃ t, OnlyHandle h s t ∧ (t.handle h).cache = (s.handle h).cache ∧
      ((s.handle h).cslvl = .high → (t.handle h).cslvl = .high) ∧
      ((sendWrites h a ws s = .ok () t ∧ t.trace = s.trace ++ sentEvents h a ws) ∨
       (sendWrites h a ws s = .error .txFail t ∧ ∃ before w behind, ws = before ++ w :: behind ∧
          t.trace = s.trace ++ sentEvents h a before ++ wEvents h (frameW a w.1 w.2) false)) := by
  induction ws generalizing s with
  | nil => exact ⟨s, .refl .., rfl, id, .inl ⟨rfl, by simp [sentEvents]⟩⟩
  | cons w ws ih =>
    obtain ⟨r, v⟩ := w
    unfold sendWrites
    rw [bind_apply, transactW_apply]
    have o := afterW_only h (frameW a r v) s
    have ht := afterW_trace h (frameW a r v) s
    by_cases hx : txAnswer h (frameW a r v) (s.select h) = true
    · rw [if_pos hx]
      rw [hx] at ht
      obtain ⟨t, o', hk, hl, hh⟩ := ih (s.afterW h (frameW a r v))
      refine ⟨t, o.trans o', hk.trans (by simp), fun _ => hl (by simp), ?_⟩
      rcases hh with ⟨h₁, h₂⟩ | ⟨h₁, before, w, behind, hw, h₂⟩
      · exact .inl ⟨h₁, by rw [h₂, ht, sentEvents_cons, List.append_assoc]⟩
      · exact .inr ⟨h₁, (r, v) :: before, w, behind, by rw [hw]; rfl, by
          simp only [h₂, ht, sentEvents_cons, List.append_assoc]⟩
    · rw [if_neg hx]
      rw [Bool.eq_false_iff.mpr hx] at ht
      exact ⟨_, o, by simp, by simp, .inr ⟨rfl, [], (r, v), ws, rfl, by simpa [sentEvents] using ht⟩⟩

/-- What INIT leaves alone and what it sets, whether it succeeds or fails: the other handle, the lines, the session, the
caller's data; the handle's arguments and its chip-select line. -/
structure Initialized (h : Handle) (a : ChipAddr) (s t : State) : Prop where
  params : t.params = s.params
  ctrl : t.ctrl = s.ctrl
  phase : t.phase = s.phase
  result : t.result = s.result
  busy : t.busy = s.busy
  out : t.out = s.out
  buf : t.buf = s.buf
  info : t.info = s.info
  calls : t.calls = s.calls
  other : t.handle (otherHandle h) = s.handle (otherHandle h)
  chipAddr : (t.handle h).chipAddr = a
  transport : (t.handle h).transport = .present
  cs : (t.handle h).cs = some (csLineOf s.params h)
  cscfg : (t.handle h).cscfg = .outputHigh
  cslvl : (t.handle h).cslvl = .high

theorem initialized_adopt (h : Handle) (a : ChipAddr) (s : State) : Initialized h a s (adoptArguments h a s) := by
  constructor <;> cases h <;> rfl

theorem Initialized.only {h : Handle} {a : ChipAddr} {s t u : State} (i : Initialized h a s t) (o : OnlyHandle h t u)
    (hl : (u.handle h).cslvl = .high) : Initialized h a s u where
  params := o.params.trans i.params
  ctrl := o.ctrl.trans i.ctrl
  phase := o.phase.trans i.phase
  result := o.result.trans i.result
  busy := o.busy.trans i.busy
  out := o.out.trans i.out
  buf := o.buf.trans i.buf
  info := o.info.trans i.info
  calls := o.calls.trans i.calls
  other := o.other.trans i.other
  chipAddr := o.handle.1.trans i.chipAddr
  transport := o.handle.2.1.trans i.transport
  cs := o.handle.2.2.1.trans i.cs
  cscfg := o.handle.2.2.2.2.trans i.cscfg
  cslvl := hl

theorem Initialized.mark {h : Handle} {a : ChipAddr} {s t : State} (i : Initialized h a s t) :
    Initialized h a s (markInitialized h t) where
  params := by simp [i.params]
  ctrl := by simp [i.ctrl]
  phase := by simp [i.phase]
  result := by simp [i.result]
  busy := by simp [i.busy]
  out := by simp [i.out]
  buf := by simp [i.buf]
  info := by simp [i.info]
  calls := by simp [i.calls]
  other := by cases h <;> exact i.other
  chipAddr := by cases h <;> exact i.chipAddr
  transport := by cases h <;> exact i.transport
  cs := by cases h <;> exact i.cs
  cscfg := by cases h <;> exact i.cscfg
  cslvl := by cases h <;> exact i.cslvl

/-- INIT: an absent argument touches nothing; otherwise the writes and the read are sent until one fails, and a read-back
of the written value initializes the handle. -/
theorem initHandle_spec (h : Handle) (a : ChipAddr) (tp cs : Presence) (x : Byte) (s : State) :
    ((tp = .absent ∨ cs = .absent) ∧ initHandle h a tp cs x s = .error .argAbsent s) ∨
    (¬ (tp = .absent ∨ cs = .absent) ∧ ∃ t, Initialized h a s t ∧
      (((t.handle h).init = (s.handle h).init ∧ (t.handle h).cache = (s.handle h).cache ∧
        ((initHandle h a tp cs x s = .error .txFail t ∧ ∃ before w behind,
            initWrites s.params = before ++ w :: behind ∧
            t.trace = s.trace ++ [.csConfig h .outputHigh] ++ sentEvents h a before ++
              wEvents h (frameW a w.1 w.2) false) ∨
         (initHandle h a tp cs x s = .error .txRxFail t ∧
            t.trace = s.trace ++ [.csConfig h .outputHigh] ++ sentEvents h a (initWrites s.params) ++
              rEvents h (frameR a s.params.verifyReg) none) ∨
         (initHandle h a tp cs x s = .error .verifyMismatch t ∧ ∃ b, b ≠ x ∧
            t.trace = s.trace ++ [.csConfig h .outputHigh] ++ sentEvents h a (initWrites s.params) ++
              rEvents h (frameR a s.params.verifyReg) (some b)))) ∨
       ((t.handle h).init = true ∧ (t.handle h).cache = clearedCache ∧ initHandle h a tp cs x s = .ok () t ∧
          t.trace = s.trace ++ [.csConfig h .outputHigh] ++ sentEvents h a (initWrites s.params) ++
            rEvents h (frameR a s.params.verifyReg) (some x)))) := by
  by_cases ha : tp = .absent ∨ cs = .absent
  · exact .inl ⟨ha, by rw [initHandle, if_pos ha]; rfl⟩
  refine .inr ⟨ha, ?_⟩
  have e : initHandle h a tp cs x s =
      (do sendWrites h a (initWrites s.params)
          let b ← transactR h (frameR a s.params.verifyReg)
          if b = x then update (markInitialized h) else raise .verifyMismatch : Op Unit) (adoptArguments h a s) := by
    rw [initHandle, if_neg ha, update_bind, getParams_bind, adoptArguments_params]
  have hi₁ : ((adoptArguments h a s).handle h).init = (s.handle h).init := by cases h <;> rfl
  have hk₁ : ((adoptArguments h a s).handle h).cache = (s.handle h).cache := by cases h <;> rfl
  have ht₁ := adoptArguments_trace s h a
  have i₁ := initialized_adopt h a s
  obtain ⟨u, o, hk, hl, ⟨h₂, ht₂⟩ | ⟨h₂, before, w, behind, hw, ht₂⟩⟩ :=
    sendWrites_spec h a (initWrites s.params) (adoptArguments h a s)
  · have i₂ := i₁.only o (hl i₁.cslvl)
    rw [bind_ok h₂] at e
    have o₃ := afterR_only h (frameR a s.params.verifyReg) u
    have ht₃ := afterR_trace h (frameR a s.params.verifyReg) u
    have i₃ := i₂.only o₃ (by simp)
    have hk₃ : ((u.afterR h (frameR a s.params.verifyReg)).handle h).cache = (s.handle h).cache := by simp [hk]
    have hi₃ : ((u.afterR h (frameR a s.params.verifyReg)).handle h).init = (s.handle h).init := by simp [o.init]
    rw [bind_apply, transactR_apply] at e
    cases hx : rxAnswer h (frameR a s.params.verifyReg) (u.select h) with
    | none =>
      rw [hx] at e ht₃
      exact ⟨_, i₃, .inl ⟨hi₃, hk₃, .inr (.inl ⟨e, by rw [ht₃, ht₂, ht₁]⟩)⟩⟩
    | some b =>
      rw [hx] at e ht₃
      dsimp only at e
      by_cases hb : b = x
      · rw [if_pos hb] at e
        subst hb
        refine ⟨_, i₃.mark, .inr ⟨?_, ?_, e, ?_⟩⟩
        · cases h <;> rfl
        · cases h <;> rfl
        · rw [markInitialized_trace, ht₃, ht₂, ht₁]
      · rw [if_neg hb] at e
        exact ⟨_, i₃, .inl ⟨hi₃, hk₃, .inr (.inr ⟨e, b, hb, by rw [ht₃, ht₂, ht₁]⟩)⟩⟩
  · have i₂ := i₁.only o (hl i₁.cslvl)
    rw [bind_error h₂] at e
    exact ⟨u, i₂, .inl ⟨by rw [o.init, hi₁], by rw [hk, hk₁], .inl ⟨e, before, w, behind, hw, by rw [ht₂, ht₁]⟩⟩⟩

end Sys2Proof.Machine
end

