-- ==== Sys2Proof/Laws/Units.lean ====
section
/-!
SUPPORT. The induction over an operation's steps, packaged once: a reflexive and transitive relation that every unit of
the block's work satisfies holds between the state before and the state after every operation, failures included.
-/

namespace Sys2Proof.Machine

variable {α β : Type}

/-- `R` holds of every unit the port/pin layer and the bus controller are built from; `P` says which registers may be
written, `L` to which levels the control lines may be driven. -/
structure Units (P : Byte → Prop) (L : Line → LineLevel → Prop) (R : State → State → Prop) : Prop where
  refl : ∀ s, R s s
  trans : ∀ {s t u}, R s t → R t u → R s u
  write : ∀ h i v s, P i → R s (after (writeRegister h i v s))
  read : ∀ h i s, R s (after (readRegister h i s))
  log : ∀ h p sc a b s, R s (logMismatch h p sc a b s)
  ctrlEvent : ∀ line lvl s, L line (driven lvl) → R s (s.emit (.ctrl line lvl))
  setCtrl : ∀ line lvl s, L line lvl → R s (s.setCtrl line lvl)
  phase : ∀ q (s : State), R s { s with phase := q }
  delay : ∀ p (s : State), R s (s.emit (.delay p))

/-- The levels to which every transfer drives the lines: the address set, the read strobe, and `Unknown` after a failed
pin write (42_bus_controller.md R100, R101, R103). -/
structure BusLines (L : Line → LineLevel → Prop) : Prop where
  rdHigh : L .RD .high
  rdLow : L .RD .low
  wrLow : L .WR .low
  csLow : L .CS .low
  unknown : ∀ line, L line .unknown

namespace Units

variable {P : Byte → Prop} {L : Line → LineLevel → Prop} {R : State → State → Prop} (U : Units P L R)
include U

theorem bind {x : Op α} {f : α → Op β} {s : State} (hx : R s (after (x s)))
    (hf : ∀ a t, R t (after (f a t))) : R s (after ((x >>= f) s)) := by
  rw [bind_apply]
  cases h : x s with
  | ok a t => rw [h] at hx; exact U.trans hx (hf a t)
  | error c t => rw [h] at hx; exact hx

omit U in
theorem update {f : State → State} {s : State} (h : R s (f s)) : R s (after (update f s)) := h

theorem softVerify (h : Handle) (p : Port) (sc : Scope) (x : Byte) (s : State) :
    R s (after (softVerify h p sc x s)) := by
  have hr := U.read h (regIndex .gpio p) s
  unfold Machine.softVerify
  split
  · rename_i g s' e
    rw [e] at hr
    exact U.trans hr (U.log ..)
  · rename_i c s' e
    rw [e] at hr
    split <;> exact hr

theorem setMode (hP : ∀ i, P i) (h : Handle) (p : Port) (m : PortMode) (s : State) : R s (after (setMode h p m s)) :=
  U.bind (U.write _ _ _ _ (hP _)) fun _ _ => U.write _ _ _ _ (hP _)

theorem pinWrite (hP : ∀ p, P (regIndex .olat p)) (h : Handle) (n : Pin) (p : Port) (b : Bool) (s : State) :
    R s (after (pinWrite h n p b s)) :=
  U.bind (U.read ..) fun _ _ => U.bind (U.write _ _ _ _ (hP _)) fun _ _ => U.softVerify ..

theorem portWrite (hP : ∀ p, P (regIndex .olat p)) (h : Handle) (p : Port) (v : Byte) (s : State) : R s (after (portWrite h p v s)) :=
  U.bind (U.write _ _ _ _ (hP _)) fun _ _ => U.softVerify ..

theorem portRead (h : Handle) (p : Port) (s : State) : R s (after (portRead h p s)) := U.read ..

theorem ctrlByPin (hP : ∀ p, P (regIndex .olat p)) (hL : BusLines L) (line : Line) (lvl : Level)
    (hl : L line (driven lvl)) (h : Handle) (p : Port) (n : Pin) (s : State) :
    R s (after (ctrlByPin line lvl h p n s)) := by
  have hp := U.pinWrite hP h n p (lvl == .high) s
  unfold Machine.ctrlByPin
  split
  · rename_i e
    rw [e] at hp
    exact U.trans hp (U.setCtrl _ _ _ hl)
  · rename_i e
    rw [e] at hp
    exact U.trans hp (U.setCtrl _ _ _ (hL.unknown _))

theorem ctrlSet (hP : ∀ p, P (regIndex .olat p)) (hL : BusLines L) (line : Line) (lvl : Level)
    (hl : L line (driven lvl)) (s : State) : R s (after (ctrlSet line lvl s)) := by
  refine U.bind (Units.update (U.ctrlEvent _ _ _ hl)) fun _ t => ?_
  rw [getParams_bind]
  cases routeOf t.params.ctrlMap line with
  | direct => exact Units.update (U.setCtrl _ _ _ hl)
  | expPin h p n => exact U.ctrlByPin hP hL _ _ hl ..

theorem addressSet (hP : ∀ p, P (regIndex .olat p)) (hL : BusLines L) (a : Addr) (s : State) : R s (after (addressSet a s)) :=
  U.bind (Units.update (U.phase ..)) fun _ _ => U.bind (U.portWrite hP ..) fun _ _ => U.bind (U.portWrite hP ..) fun _ _ =>
    U.bind (U.ctrlSet hP hL _ _ hL.rdHigh _) fun _ _ => U.bind (U.ctrlSet hP hL _ _ hL.wrLow _) fun _ _ =>
      U.ctrlSet hP hL _ _ hL.csLow _

theorem transfer {body : Op α} {s : State} (h : R s (after (body s))) : R s (after (transfer body s)) := by
  unfold Machine.transfer
  split <;> rename_i e <;> rw [e] at h <;> exact U.trans h (U.phase ..)

theorem byteRead (hP : ∀ p, P (regIndex .olat p)) (hL : BusLines L) (a : Addr) (s : State) : R s (after (byteRead a s)) := by
  refine U.transfer (U.bind (U.addressSet hP hL ..) fun _ t => ?_)
  rw [getParams_bind]
  exact U.bind (Units.update (U.delay ..)) fun _ _ => U.bind (Units.update (U.phase ..)) fun _ _ =>
    U.bind (U.ctrlSet hP hL _ _ hL.rdLow _) fun _ _ => U.bind (Units.update (U.delay ..)) fun _ _ =>
      U.bind (U.portRead ..) fun _ _ => U.bind (U.ctrlSet hP hL _ _ hL.rdHigh _) fun _ _ => U.refl _

theorem byteWrite (hP : ∀ p, P (regIndex .olat p)) (hL : BusLines L) (hw : L .WR .high) (a : Addr) (v : Byte) (s : State) : R s (after (byteWrite a v s)) := by
  refine U.transfer (U.bind (U.addressSet hP hL ..) fun _ _ => U.bind (Units.update (U.phase ..)) fun _ t => ?_)
  rw [getParams_bind]
  exact U.bind (U.portWrite hP ..) fun _ _ => U.bind (U.portWrite hP ..) fun _ _ =>
    U.bind (U.ctrlSet hP hL _ _ hw _) fun _ _ => U.ctrlSet hP hL _ _ hL.wrLow _

theorem readRun (hP : ∀ p, P (regIndex .olat p)) (hL : BusLines L) (a : Addr) (n : Nat) (s : State) : R s (readRun a n s).state := by
  induction n generalizing a s with
  | zero => exact U.refl s
  | succ n ih =>
    have h := U.byteRead hP hL a s
    unfold Machine.readRun
    split
    · rename_i e
      rw [e] at h
      exact U.trans h (ih ..)
    · rename_i e
      rw [e] at h
      exact h

end Units

/-- `R` holds of every unit a caller operation is built from. -/
structure ExecUnits (L : Line → LineLevel → Prop) (R : State → State → Prop) : Prop
    extends Units (fun _ => True) L R where
  lines : BusLines L
  write_byte : ∀ a v s, R s (after (byteWrite a v s))
  frameW : ∀ h a r v s, R s (after (transactW h (frameW a r v) s))
  frameR : ∀ h a r s, R s (after (transactR h (frameR a r) s))
  init : ∀ h a tp cs x s, (s.handle h).init = false → R s (after (initHandle h a tp cs x s))
  destroy : ∀ h s, R s (destroyHandle h s)
  start : ∀ s : State, R s { s with busy := true }
  stop : ∀ r (s : State), R s { s with result := r, busy := false }
  storeOut : ∀ b (s : State), R s { s with out := b }
  storeBuf : ∀ n got k (s : State), R s { s with buf := bufferAfter s.buf n got s.draws, draws := k }
  storeInfo : ∀ H k (s : State), R s { s with info := parseHeader s.params.titleCap H s.draws, draws := k }
  logHeader : ∀ c (s : State), R s (s.emit (.diag (.headerReadFailed c)))

namespace ExecUnits

variable {L : Line → LineLevel → Prop} {R : State → State → Prop} (U : ExecUnits L R)
include U

theorem call {r : Option Refusal} {body : Op OpResult} {s t : State}
    (e : call r body s = .next t) (h : R { s with busy := true } (after (body { s with busy := true }))) : R s t := by
  obtain ⟨-, -, rfl⟩ := call_eq_next e
  refine U.trans (U.start s) (U.trans h ?_)
  rw [finish_eq]
  exact U.stop _ _

theorem bytesRead (a : Addr) (n : Nat) (s : State) : R s (after (bytesRead a n s)) := by
  have h := U.readRun (fun _ => trivial) U.lines a n s
  have hb := U.trans h (U.storeBuf n (Machine.readRun a n s).got
    ((Machine.readRun a n s).state.draws + (n - (Machine.readRun a n s).got.length)) _)
  unfold Machine.bytesRead
  dsimp only
  split <;> exact hb

theorem infoRead (s : State) : R s (after (infoRead s)) := by
  have h := U.readRun (fun _ => trivial) U.lines 0x0000#16 headerBlock s
  unfold Machine.infoRead
  dsimp only
  split
  · exact U.trans h (U.logHeader ..)
  · exact U.trans h (U.storeInfo ..)

/-- The induction: `R` holds across every instruction that answers a next state. -/
theorem exec {i : Instr} {s t : State} (e : exec i s = .next t) : R s t := by
  cases i <;> dsimp only [Machine.exec, execWrFrame, execRdFrame, execInit, execDestroy, execWriteReg, execReadReg,
    execSetPortMode, execWritePin, execWritePort, execReadPin, execReadPort, execIsConnected, execReadByte,
    execWriteByte, execReadBytes, execReadInfo] at e
  case wrFrame h a r v => exact U.call e (U.bind (U.frameW ..) fun _ _ => U.refl _)
  case rdFrame h a r => exact U.call e (U.bind (U.frameR ..) fun _ _ => U.refl _)
  case init h chip tp cs =>
    have hr := (call_eq_next e).2.1
    refine U.call e (U.bind (U.init _ _ _ _ _ _ ?_) fun _ _ => U.refl _)
    cases hi : (s.handle h).init
    · cases h <;> exact hi
    · exfalso
      unfold initRefusal at hr
      split_ifs at hr
  case destroy h => exact U.call e (U.bind (Units.update (U.destroy ..)) fun _ _ => U.refl _)
  case writeReg h i v => exact U.call e (U.bind (U.write _ _ _ _ trivial) fun _ _ => U.refl _)
  case readReg h i out =>
    refine U.call e ?_
    split
    · exact U.refl _
    · exact U.bind (U.read ..) fun _ _ => U.bind (Units.update (U.storeOut ..)) fun _ _ => U.refl _
  case setPortMode h p m => exact U.call e (U.bind (U.setMode (fun _ => trivial) ..) fun _ _ => U.refl _)
  case writePin h pin p value => exact U.call e (U.bind (U.pinWrite (fun _ => trivial) ..) fun _ _ => U.refl _)
  case writePort h p v => exact U.call e (U.bind (U.portWrite (fun _ => trivial) ..) fun _ _ => U.refl _)
  case readPin h pin p => exact U.call e (U.bind (U.portRead ..) fun _ _ => U.refl _)
  case readPort h p => exact U.call e (U.bind (U.portRead ..) fun _ _ => U.refl _)
  case isConnected h =>
    refine U.call e ?_
    rw [getParams_bind]
    refine U.bind ?_ fun _ _ => U.refl _
    have hr := U.read h s.params.probeReg { s with busy := true }
    unfold completes
    split <;> rename_i e <;> rw [e] at hr <;> exact hr
  case readByte a => exact U.call e (U.bind (U.byteRead (fun _ => trivial) U.lines ..) fun _ _ => U.refl _)
  case writeByte a v => exact U.call e (U.bind (U.write_byte ..) fun _ _ => U.refl _)
  case readBytes a n buf =>
    refine U.call e ?_
    split
    · exact U.refl _
    · exact U.bind (U.bytesRead ..) fun _ _ => U.refl _
  case readInfo info =>
    refine U.call e ?_
    split
    · exact U.refl _
    · exact U.bind (U.infoRead ..) fun _ _ => U.refl _

end ExecUnits

end Sys2Proof.Machine
end

