-- ==== Sys2Proof/Laws/Trace.lean ====
section
/-!
SUPPORT. What an operation appends to the trace, packaged once: a property of event lists that holds of every
transaction and of every other single event, and of two lists one after the other, holds of what every operation
appends. And the step: what holds across every operation holds across every step.
-/

namespace Sys2Proof.Machine

/-- `Q` holds of the pieces that every operation's events are made of. -/
structure TraceProp (Q : List Event → Prop) : Prop where
  nil : Q []
  append : ∀ {x y}, Q x → Q y → Q (x ++ y)
  w : ∀ h a r v ok, Q (wEvents h (frameW a r v) ok)
  r : ∀ h a r answer, Q (rEvents h (frameR a r) answer)
  ctrl : ∀ line lvl, ¬ (line = .CS ∧ lvl = .high) → Q [.ctrl line lvl]
  delay : ∀ p, Q [.delay p]
  diag : ∀ d, Q [.diag d]
  config : ∀ h c, Q [.csConfig h c]

/-- What is appended has the property. -/
def Appends (Q : List Event → Prop) (s t : State) : Prop := ∃ evs, t.trace = s.trace ++ evs ∧ Q evs

variable {Q : List Event → Prop}

theorem Appends.same (T : TraceProp Q) {s t : State} (h : t.trace = s.trace) : Appends Q s t := ⟨[], by simp [h], T.nil⟩

theorem Appends.trans (T : TraceProp Q) {s t u : State} : Appends Q s t → Appends Q t u → Appends Q s u := by
  rintro ⟨x, hx, qx⟩ ⟨y, hy, qy⟩
  exact ⟨x ++ y, by rw [hy, hx, List.append_assoc], T.append qx qy⟩

theorem Appends.transactW (T : TraceProp Q) (h : Handle) (a : ChipAddr) (r v : Byte) (s : State) :
    Appends Q s (after (transactW h (frameW a r v) s)) := by
  rw [transactW_apply]
  split <;> exact ⟨_, afterW_trace .., T.w ..⟩

theorem Appends.transactR (T : TraceProp Q) (h : Handle) (a : ChipAddr) (r : Byte) (s : State) :
    Appends Q s (after (transactR h (frameR a r) s)) := by
  rw [transactR_apply]
  split <;> exact ⟨_, afterR_trace .., T.r ..⟩

theorem Appends.writeRegister (T : TraceProp Q) (h : Handle) (i v : Byte) (s : State) :
    Appends Q s (after (writeRegister h i v s)) := by
  rcases e : Machine.writeRegister h i v s with ⟨_, t⟩ | ⟨c, t⟩
  · exact ⟨_, (writeRegister_ok e).2.2.1, T.w ..⟩
  · rcases writeRegister_error e with ⟨-, -, rfl⟩ | ⟨-, -, -, ht, -⟩
    · exact .same T rfl
    · exact ⟨_, ht, T.w ..⟩

theorem Appends.readRegister (T : TraceProp Q) (h : Handle) (i : Byte) (s : State) :
    Appends Q s (after (readRegister h i s)) := by
  rcases e : Machine.readRegister h i s with ⟨_, t⟩ | ⟨c, t⟩
  · exact ⟨_, (readRegister_ok e).2.2.1, T.r ..⟩
  · rcases readRegister_error e with ⟨-, -, rfl⟩ | ⟨-, -, -, ht, -⟩
    · exact .same T rfl
    · exact ⟨_, ht, T.r ..⟩

theorem Appends.sendWrites (T : TraceProp Q) (h : Handle) (a : ChipAddr) (ws : List (Byte × Byte)) (s : State) :
    Appends Q s (after (sendWrites h a ws s)) := by
  induction ws generalizing s with
  | nil => exact .same T rfl
  | cons w ws ih =>
    have ht := Appends.transactW T h a w.1 w.2 s
    unfold Machine.sendWrites
    rw [bind_apply]
    cases e : Machine.transactW h (Sys2Proof.frameW a w.1 w.2) s with
    | ok _ t => rw [e] at ht; exact ht.trans T (ih t)
    | error c t => rw [e] at ht; exact ht

theorem Appends.initHandle (T : TraceProp Q) (h : Handle) (a : ChipAddr) (tp cs : Presence) (x : Byte) (s : State) :
    Appends Q s (after (initHandle h a tp cs x s)) := by
  unfold Machine.initHandle
  split
  · exact .same T rfl
  rw [update_bind, getParams_bind, bind_apply]
  have h₁ : Appends Q s (adoptArguments h a s) := ⟨_, adoptArguments_trace .., T.config ..⟩
  have h₂ := h₁.trans T (Appends.sendWrites T h a (initWrites (adoptArguments h a s).params) (adoptArguments h a s))
  cases e₂ : Machine.sendWrites h a (initWrites (adoptArguments h a s).params) (adoptArguments h a s) with
  | error c u => rw [e₂] at h₂; exact h₂
  | ok _ u =>
    rw [e₂] at h₂
    dsimp only
    rw [bind_apply]
    have h₃ := h₂.trans T (Appends.transactR T h a (adoptArguments h a s).params.verifyReg u)
    cases e₃ : Machine.transactR h (Sys2Proof.frameR a (adoptArguments h a s).params.verifyReg) u with
    | error c w => rw [e₃] at h₃; exact h₃
    | ok b w =>
      rw [e₃] at h₃
      dsimp only
      split
      · exact h₃.trans T (.same T (markInitialized_trace w h))
      · exact h₃

/-- Every level but an active cartridge chip-select (10_state.md R34). -/
def NotCsHigh (line : Line) (lvl : LineLevel) : Prop := ¬ (line = .CS ∧ lvl = .high)

theorem notCsHigh_lines : BusLines NotCsHigh := by constructor <;> simp [NotCsHigh]

/-- What the bus controller appends to the trace has the property. -/
theorem TraceProp.busUnits (T : TraceProp Q) : Units (fun _ => True) NotCsHigh (Appends Q) where
  refl _ := .same T rfl
  trans := Appends.trans T
  write h i v s _ := Appends.writeRegister T h i v s
  read h i s := Appends.readRegister T h i s
  log h p sc a b s := by
    unfold logMismatch
    split
    · exact .same T rfl
    · exact ⟨_, rfl, T.diag _⟩
  ctrlEvent line lvl s hl := ⟨_, rfl, T.ctrl line lvl (by cases lvl <;> simp_all [NotCsHigh, driven])⟩
  setCtrl line lvl s _ := .same T (by simp)
  phase _ _ := .same T rfl
  delay p s := ⟨_, rfl, T.delay p⟩

/-- What every operation appends to the trace has the property. -/
theorem TraceProp.units (T : TraceProp Q) : ExecUnits NotCsHigh (Appends Q) where
  toUnits := T.busUnits
  lines := notCsHigh_lines
  write_byte := T.busUnits.byteWrite (fun _ => trivial) notCsHigh_lines (by simp [NotCsHigh])
  frameW h a r v s := Appends.transactW T h a r v s
  frameR h a r s := Appends.transactR T h a r s
  init h a tp cs x s _ := Appends.initHandle T h a tp cs x s
  destroy h s := by
    refine ⟨_, destroyHandle_trace s h, ?_⟩
    split
    · exact T.config ..
    · exact T.nil
  start _ := .same T rfl
  stop _ _ := .same T rfl
  storeOut _ _ := .same T rfl
  storeBuf _ _ _ _ := .same T rfl
  storeInfo _ _ _ := .same T rfl
  logHeader c s := ⟨_, rfl, T.diag _⟩

theorem TraceProp.exec (T : TraceProp Q) {i : Instr} {s t : State} (e : exec i s = .next t) : Appends Q s t :=
  T.units.exec e

/-- A step waits, or runs an operation on the state without the call. -/
theorem step_cases {s t : State} (e : step s = .next t) :
    (s.calls = [] ∧ t = s) ∨
      ∃ c rest i left, s.calls = c :: rest ∧ decode c.via c.bytes = .ok (i, left) ∧ exec i { s with calls := rest } = .next t := by
  unfold step at e
  split at e
  · rename_i hc
    cases e
    exact .inl ⟨hc, rfl⟩
  · rename_i c rest hc
    split at e
    · rename_i i left hd
      exact .inr ⟨c, rest, i, left, hc, hd, e⟩
    · cases e

/-- What holds across every operation, and across dropping a call, holds across every step. -/
theorem ExecUnits.step {L : Line → LineLevel → Prop} {R : State → State → Prop} (U : ExecUnits L R) (hc : ∀ (s : State) cs, R s { s with calls := cs })
    {s t : State} (e : step s = .next t) : R s t := by
  rcases step_cases e with ⟨-, rfl⟩ | ⟨c, rest, i, left, -, -, e⟩
  · exact U.refl _
  · exact U.trans (hc s rest) (U.exec e)

theorem TraceProp.step (T : TraceProp Q) {s t : State} (e : step s = .next t) : Appends Q s t :=
  T.units.step (fun _ _ => .same T rfl) e

end Sys2Proof.Machine
end

