-- ==== Sys2Proof/Laws/Invariants.lean ====
section
/-!
SUPPORT. Invariants of the control lines and of the handles, packaged once: a property that the pieces of every operation
keep is kept by every operation. And how a trace's transaction discipline splits.
-/

namespace Sys2Proof.Machine

/-! ### The control lines -/

theorem writeRegister_ctrl (h : Handle) (i v : Byte) (s : State) : (after (writeRegister h i v s)).ctrl = s.ctrl := by
  rcases e : writeRegister h i v s with ⟨_, t⟩ | ⟨c, t⟩
  · exact (writeRegister_ok e).2.1.ctrl
  · rcases writeRegister_error e with ⟨-, -, rfl⟩ | ⟨-, -, o, -⟩
    · rfl
    · exact o.ctrl

theorem readRegister_ctrl (h : Handle) (i : Byte) (s : State) : (after (readRegister h i s)).ctrl = s.ctrl := by
  rcases e : readRegister h i s with ⟨_, t⟩ | ⟨c, t⟩
  · exact (readRegister_ok e).2.1.ctrl
  · rcases readRegister_error e with ⟨-, -, rfl⟩ | ⟨-, -, o, -⟩
    · rfl
    · exact o.ctrl

theorem initHandle_ctrl (h : Handle) (a : ChipAddr) (tp cs : Presence) (x : Byte) (s : State) :
    (after (initHandle h a tp cs x s)).ctrl = s.ctrl := by
  rcases initHandle_spec h a tp cs x s with
    ⟨-, e⟩ | ⟨-, t, i, ⟨-, -, ⟨e, -⟩ | ⟨e, -⟩ | ⟨e, -⟩⟩ | ⟨-, -, e, -⟩⟩ <;> rw [e]
  · rfl
  all_goals exact i.ctrl

variable {L : Line → LineLevel → Prop} {P : CtrlLines → Prop}

/-- A property of the control lines that driving them as `L` allows keeps. -/
theorem ctrl_busUnits (hset : ∀ c line lvl, L line lvl → P c → P (c.set line lvl)) :
    Units (fun _ => True) L (fun s t => P s.ctrl → P t.ctrl) where
  refl _ := id
  trans f g := g ∘ f
  write h i v s _ hp := by rw [writeRegister_ctrl]; exact hp
  read h i s hp := by rw [readRegister_ctrl]; exact hp
  log h p sc a b s hp := by rw [logMismatch_only h h p sc a b s |>.ctrl]; exact hp
  ctrlEvent _ _ _ _ := id
  setCtrl line lvl s hl hp := by rw [State.setCtrl_ctrl]; exact hset _ _ _ hl hp
  phase _ _ := id
  delay _ _ := id

theorem ctrl_units (hL : BusLines L) (hset : ∀ c line lvl, L line lvl → P c → P (c.set line lvl))
    (hw : ∀ a v s, P s.ctrl → P (after (byteWrite a v s)).ctrl) :
    ExecUnits L (fun s t => P s.ctrl → P t.ctrl) where
  toUnits := ctrl_busUnits hset
  lines := hL
  write_byte := hw
  frameW h a r v s hp := by
    rw [transactW_apply]
    split <;> rw [after, (afterW_only h (frameW a r v) s).ctrl] <;> exact hp
  frameR h a r s hp := by
    rw [transactR_apply]
    split <;> rw [after, (afterR_only h (frameR a r) s).ctrl] <;> exact hp
  init h a tp cs x s _ hp := by rw [initHandle_ctrl]; exact hp
  destroy h s hp := by rw [destroyHandle_ctrl]; exact hp
  start _ := id
  stop _ _ := id
  storeOut _ _ := id
  storeBuf _ _ _ _ := id
  storeInfo _ _ _ := id
  logHeader _ _ := id

/-! ### The handles -/

/-- What a handle is after INIT has adopted its arguments, and after a DESTROY. -/
def HandleState.adopted (x : HandleState) : Prop :=
  x.transport = .present ∧ x.cs.isSome = true ∧ x.cscfg = .outputHigh ∧ x.cslvl = .high

def HandleState.destroyed (x : HandleState) : HandleState :=
  { x with cscfg := .released, cslvl := .unknown, cache := clearedCache, init := false }

theorem Initialized.adopted {h : Handle} {a : ChipAddr} {s t : State} (i : Initialized h a s t) : (t.handle h).adopted :=
  ⟨i.transport, by rw [i.cs]; rfl, i.cscfg, i.cslvl⟩

theorem handle_destroy (h : Handle) (s : State) :
    (destroyHandle h s).handle h = (s.handle h).destroyed ∧
      (destroyHandle h s).handle (otherHandle h) = s.handle (otherHandle h) := by
  cases h <;> (unfold destroyHandle; split <;> exact ⟨rfl, rfl⟩)

/-- A property that one handle has after and the other had before holds of both after. -/
theorem handles_of {Q : HandleState → Prop} {s t : State} (h : Handle) (hs : ∀ k, Q (s.handle k))
    (hh : Q (t.handle h)) (ho : t.handle (otherHandle h) = s.handle (otherHandle h)) : ∀ k, Q (t.handle k) := by
  intro k
  by_cases hk : k = h
  · exact hk ▸ hh
  · have : k = otherHandle h := by cases k <;> cases h <;> simp_all [otherHandle]
    rw [this, ho]
    exact hs _

/-- One event that is no part of a transaction. -/
inductive Single : List Event → Prop where
  | nil : Single []
  | ctrl (line : Line) (lvl : Level) : Single [.ctrl line lvl]
  | diag (d : Diagnostic) : Single [.diag d]
  | delay (p : Nat) : Single [.delay p]

/-- The events of one transaction. -/
inductive Transaction (h : Handle) : List Event → Prop where
  | w (bytes : List Byte) (ok : Bool) : Transaction h (wEvents h bytes ok)
  | r (bytes : List Byte) (answer : Option Byte) : Transaction h (rEvents h bytes answer)

/-- A relation that sees the parameters, the handles and the trace: it is enough that it holds across a transaction,
across what leaves the handles alone, across INIT and across DESTROY. -/
theorem rel_units {R : State → State → Prop} (refl : ∀ s, R s s) (trans : ∀ {s t u}, R s t → R t u → R s u)
    (only : ∀ h s t, OnlyHandle h s t → (t.handle h).cslvl = .high → Appends (Transaction h) s t → R s t)
    (same : ∀ s t : State, t.params = s.params → t.hA = s.hA → t.hD = s.hD → Appends Single s t → R s t)
    (init : ∀ h a tp cs x s, (s.handle h).init = false → R s (after (initHandle h a tp cs x s)))
    (destroy : ∀ h s, R s (destroyHandle h s)) : ExecUnits NotCsHigh R := by
  have quiet : ∀ s t : State, t.params = s.params → t.hA = s.hA → t.hD = s.hD → t.trace = s.trace → R s t :=
    fun s t hp hA hD ht => same s t hp hA hD ⟨[], by simp [ht], .nil⟩
  have bus : Units (fun _ => True) NotCsHigh R :=
    { refl := refl
      trans := trans
      write := fun h i v s _ => by
        rcases e : writeRegister h i v s with ⟨_, t⟩ | ⟨c, t⟩
        · obtain ⟨-, o, ht, hl, -⟩ := writeRegister_ok e
          exact only h s t o hl ⟨_, ht, .w ..⟩
        · rcases writeRegister_error e with ⟨-, -, rfl⟩ | ⟨-, -, o, ht, hl, -⟩
          · exact refl _
          · exact only h s t o hl ⟨_, ht, .w ..⟩
      read := fun h i s => by
        rcases e : readRegister h i s with ⟨_, t⟩ | ⟨c, t⟩
        · obtain ⟨-, o, ht, hl, -⟩ := readRegister_ok e
          exact only h s t o hl ⟨_, ht, .r ..⟩
        · rcases readRegister_error e with ⟨-, -, rfl⟩ | ⟨-, -, o, ht, hl, -⟩
          · exact refl _
          · exact only h s t o hl ⟨_, ht, .r ..⟩
      log := fun h p sc a b s => by
        unfold logMismatch
        split
        · exact refl _
        · exact same _ _ rfl rfl rfl ⟨_, rfl, .diag _⟩
      ctrlEvent := fun _ _ _ _ => same _ _ rfl rfl rfl ⟨_, rfl, .ctrl ..⟩
      setCtrl := fun _ _ _ _ => quiet _ _ (by simp) (by simp) (by simp) (by simp)
      phase := fun _ _ => quiet _ _ rfl rfl rfl rfl
      delay := fun _ _ => same _ _ rfl rfl rfl ⟨_, rfl, .delay _⟩ }
  exact
    { toUnits := bus
      lines := notCsHigh_lines
      write_byte := bus.byteWrite (fun _ => trivial) notCsHigh_lines (by simp [NotCsHigh])
      frameW := fun h a r v s => by
        rw [transactW_apply]
        split <;> exact only h _ _ (afterW_only h _ s) (by simp) ⟨_, afterW_trace h _ s, .w ..⟩
      frameR := fun h a r s => by
        rw [transactR_apply]
        split <;> exact only h _ _ (afterR_only h _ s) (by simp) ⟨_, afterR_trace h _ s, .r ..⟩
      init := init
      destroy := destroy
      start := fun _ => quiet _ _ rfl rfl rfl rfl
      stop := fun _ _ => quiet _ _ rfl rfl rfl rfl
      storeOut := fun _ _ => quiet _ _ rfl rfl rfl rfl
      storeBuf := fun _ _ _ _ => quiet _ _ rfl rfl rfl rfl
      storeInfo := fun _ _ _ => quiet _ _ rfl rfl rfl rfl
      logHeader := fun _ _ => same _ _ rfl rfl rfl ⟨_, rfl, .diag _⟩ }

/-- A property of handles that a register access, INIT and DESTROY keep or establish. -/
theorem handle_units {Q : HandleState → Prop} (hk : ∀ x y, HandleKept x y → y.cslvl = .high → Q x → Q y)
    (ha : ∀ x, x.adopted → Q x) (hd : ∀ x, Q x → Q x.destroyed) :
    ExecUnits NotCsHigh (fun s t => (∀ h, Q (s.handle h)) → ∀ h, Q (t.handle h)) := by
  refine rel_units (fun _ => id) (fun f g => g ∘ f) ?_ ?_ ?_ ?_
  · exact fun h s t o hl _ hs => handles_of h hs (hk _ _ o.handle hl (hs h)) o.other
  · exact fun s t _ h₁ h₂ _ hs k => by rw [State.handle_congr h₁ h₂]; exact hs k
  · intro h a tp cs x s _
    rcases initHandle_spec h a tp cs x s with
      ⟨-, e⟩ | ⟨-, t, i, ⟨-, -, ⟨e, -⟩ | ⟨e, -⟩ | ⟨e, -⟩⟩ | ⟨-, -, e, -⟩⟩ <;> rw [e]
    · exact id
    all_goals exact fun hs => handles_of h hs (ha _ i.adopted) i.other
  · exact fun h s hs => handles_of h hs (by rw [(handle_destroy h s).1]; exact hd _ (hs h)) (handle_destroy h s).2

/-! ### The transaction discipline -/

theorem busRun_append (b : BusState) (x y : List Event) :
    busRun b (x ++ y) = (busRun b x).bind fun c => busRun c y := by
  induction x generalizing b with
  | nil => rfl
  | cons e es ih =>
    rw [List.cons_append, busRun, busRun]
    cases busStep b e with
    | none => rfl
    | some c => exact ih c

end Sys2Proof.Machine
end

