-- ==== Sys2Proof/Laws/PerInstr.lean ====
section
/-!
SUPPORT. What holds of the encoding of every instruction: its first byte is the one of its table row (30_encoding.md R75,
R81), it opens a frame exactly when the instruction arrives on the wire, and the whole is no longer than a word of the table is
laid out, when a length operand takes one byte.
-/

namespace Sys2Proof.Laws

/-- The first byte of an instruction: a frame's opcode byte (R75) or a caller operation's selector (R81). -/
def firstByte : Instr → Byte
  | .wrFrame _ a _ _ => 0x40#8 ||| (a.setWidth 8 <<< 1)
  | .rdFrame _ a _ => 0x41#8 ||| (a.setWidth 8 <<< 1)
  | .init _ _ _ _ => 0x01#8
  | .destroy _ => 0x02#8
  | .writeReg _ _ _ => 0x03#8
  | .readReg _ _ _ => 0x04#8
  | .setPortMode _ _ _ => 0x05#8
  | .writePin _ _ _ _ => 0x06#8
  | .writePort _ _ _ => 0x07#8
  | .readPin _ _ _ => 0x08#8
  | .readPort _ _ => 0x09#8
  | .isConnected _ => 0x0A#8
  | .readByte _ => 0x0B#8
  | .writeByte _ _ => 0x0C#8
  | .readBytes _ _ _ => 0x0D#8
  | .readInfo _ => 0x0E#8

/-- The encoding's first byte, whether it opens a frame as its interface asks, and its length, when a length operand takes
one byte. -/
def EncodingShape.Statement (i : Instr) : Prop :=
  (encode i).head? = some (firstByte i) ∧ isFrameByte (firstByte i) = (interfaceOf i == .wire) ∧
    ((∀ start len buf, i = .readBytes start len buf → len < 128) → (encode i).length ≤ maxInstrBytes)

theorem selector_opens_no_frame : ∀ b : Byte, b.toNat < 0x0F → isFrameByte b = false := by decide
theorem leadingGroups_zero {n : Nat} (h : n < 128) : leadingGroups n (n / 128) = [] := by
  rw [Nat.div_eq_of_lt h]
  cases n <;> rfl
theorem isFrameByte_opW : ∀ a : ChipAddr, isFrameByte (0x40#8 ||| (a.setWidth 8 <<< 1)) = true := by decide
theorem isFrameByte_opR : ∀ a : ChipAddr, isFrameByte (0x41#8 ||| (a.setWidth 8 <<< 1)) = true := by decide

theorem EncodingShape.wrFrame (h : Handle) (a : ChipAddr) (r v : Byte) : Statement (.wrFrame h a r v) :=
  ⟨rfl, isFrameByte_opW a, fun _ => Nat.le_of_ble_eq_true rfl⟩

theorem EncodingShape.rdFrame (h : Handle) (a : ChipAddr) (r : Byte) : Statement (.rdFrame h a r) :=
  ⟨rfl, isFrameByte_opR a, fun _ => Nat.le_of_ble_eq_true rfl⟩

theorem EncodingShape.init (h : Handle) (chip : Byte) (tp cs : Presence) : Statement (.init h chip tp cs) :=
  ⟨rfl, selector_opens_no_frame 0x01#8 (Nat.le_of_ble_eq_true rfl), fun _ => Nat.le_of_ble_eq_true rfl⟩

theorem EncodingShape.destroy (h : Handle) : Statement (.destroy h) :=
  ⟨rfl, selector_opens_no_frame 0x02#8 (Nat.le_of_ble_eq_true rfl), fun _ => Nat.le_of_ble_eq_true rfl⟩

theorem EncodingShape.writeReg (h : Handle) (i v : Byte) : Statement (.writeReg h i v) :=
  ⟨rfl, selector_opens_no_frame 0x03#8 (Nat.le_of_ble_eq_true rfl), fun _ => Nat.le_of_ble_eq_true rfl⟩

theorem EncodingShape.readReg (h : Handle) (i : Byte) (out : Presence) : Statement (.readReg h i out) :=
  ⟨rfl, selector_opens_no_frame 0x04#8 (Nat.le_of_ble_eq_true rfl), fun _ => Nat.le_of_ble_eq_true rfl⟩

theorem EncodingShape.setPortMode (h : Handle) (p : Port) (m : PortMode) : Statement (.setPortMode h p m) :=
  ⟨rfl, selector_opens_no_frame 0x05#8 (Nat.le_of_ble_eq_true rfl), fun _ => Nat.le_of_ble_eq_true rfl⟩

theorem EncodingShape.writePin (h : Handle) (pin : Byte) (p : Port) (value : Byte) :
    Statement (.writePin h pin p value) :=
  ⟨rfl, selector_opens_no_frame 0x06#8 (Nat.le_of_ble_eq_true rfl), fun _ => Nat.le_of_ble_eq_true rfl⟩

theorem EncodingShape.writePort (h : Handle) (p : Port) (v : Byte) : Statement (.writePort h p v) :=
  ⟨rfl, selector_opens_no_frame 0x07#8 (Nat.le_of_ble_eq_true rfl), fun _ => Nat.le_of_ble_eq_true rfl⟩

theorem EncodingShape.readPin (h : Handle) (pin : Byte) (p : Port) : Statement (.readPin h pin p) :=
  ⟨rfl, selector_opens_no_frame 0x08#8 (Nat.le_of_ble_eq_true rfl), fun _ => Nat.le_of_ble_eq_true rfl⟩

theorem EncodingShape.readPort (h : Handle) (p : Port) : Statement (.readPort h p) :=
  ⟨rfl, selector_opens_no_frame 0x09#8 (Nat.le_of_ble_eq_true rfl), fun _ => Nat.le_of_ble_eq_true rfl⟩

theorem EncodingShape.isConnected (h : Handle) : Statement (.isConnected h) :=
  ⟨rfl, selector_opens_no_frame 0x0A#8 (Nat.le_of_ble_eq_true rfl), fun _ => Nat.le_of_ble_eq_true rfl⟩

theorem EncodingShape.readByte (a : Addr) : Statement (.readByte a) :=
  ⟨rfl, selector_opens_no_frame 0x0B#8 (Nat.le_of_ble_eq_true rfl), fun _ => Nat.le_of_ble_eq_true rfl⟩

theorem EncodingShape.writeByte (a : Addr) (v : Byte) : Statement (.writeByte a v) :=
  ⟨rfl, selector_opens_no_frame 0x0C#8 (Nat.le_of_ble_eq_true rfl), fun _ => Nat.le_of_ble_eq_true rfl⟩

theorem EncodingShape.readBytes (start : Addr) (len : Nat) (buf : Presence) : Statement (.readBytes start len buf) :=
  ⟨rfl, selector_opens_no_frame 0x0D#8 (Nat.le_of_ble_eq_true rfl), fun h => by
    have hl := h start len buf rfl
    simp only [encode, lengthBytes, leadingGroups_zero hl]
    exact Nat.le_of_ble_eq_true rfl⟩

theorem EncodingShape.readInfo (info : Presence) : Statement (.readInfo info) :=
  ⟨rfl, selector_opens_no_frame 0x0E#8 (Nat.le_of_ble_eq_true rfl), fun _ => Nat.le_of_ble_eq_true rfl⟩

end Sys2Proof.Laws
end

