-- ==== Sys2Proof/Laws/Pieces.lean ====
section
/-!
SUPPORT. The bus controller with its control lines wherever CTRL_MAP places them, on initialized handles or not: every
operation follows its expansion (30_encoding.md R82), to its end or up to the piece that fails.
-/

namespace Sys2Proof.Machine

variable {α β : Type} {s t : State} {c : Cause} {L M : List Piece}

/-! ### Expansions -/

theorem BusKept.handleKept (k : BusKept s t) (h : Handle) : HandleKept (s.handle h) (t.handle h) := by
  cases h
  · exact k.hA
  · exact k.hD

/-- What a piece's events are depends on nothing that a bus operation changes. -/
theorem done_congr (k : BusKept s t) (p : Piece) (evs : List Event) : p.Done t evs = p.Done s evs := by
  have hc := fun h => (k.handleKept h).1
  have hi := fun h => (k.handleKept h).2.2.2.1
  cases p <;> simp only [Piece.Done, PinWriteDone, hc, hi, k.params]

theorem cut_congr (k : BusKept s t) (p : Piece) (c : Cause) (evs : List Event) : p.Cut t c evs = p.Cut s c evs := by
  have hc := fun h => (k.handleKept h).1
  have hi := fun h => (k.handleKept h).2.2.2.1
  cases p <;> simp only [Piece.Cut, PinWriteCut, hc, hi, k.params]

theorem expands_congr (k : BusKept s t) (L : List Piece) (evs : List Event) : Expands t L evs = Expands s L evs := by
  induction L generalizing evs with
  | nil => rfl
  | cons p ps ih => simp only [Expands, done_congr k, ih]

theorem cutShort_congr (k : BusKept s t) (L : List Piece) (c : Cause) (evs : List Event) (l l' : CtrlLines) :
    CutShort t L c evs l l' = CutShort s L c evs l l' := by
  induction L generalizing evs l with
  | nil => rfl
  | cons p ps ih => simp only [CutShort, done_congr k, cut_congr k, ih]

/-! What the pieces' events are does not depend on the flag `busy`, which a caller operation sets. -/

@[simp] theorem done_with_busy (s : State) (b : Bool) (p : Piece) (evs : List Event) :
    p.Done { s with busy := b } evs = p.Done s evs := by
  cases p <;> simp [Piece.Done, PinWriteDone]

@[simp] theorem cut_with_busy (s : State) (b : Bool) (p : Piece) (c : Cause) (evs : List Event) :
    p.Cut { s with busy := b } c evs = p.Cut s c evs := by
  cases p <;> simp [Piece.Cut, PinWriteCut]

@[simp] theorem expands_with_busy (s : State) (b : Bool) (L : List Piece) (evs : List Event) :
    Expands { s with busy := b } L evs = Expands s L evs := by
  induction L generalizing evs with
  | nil => rfl
  | cons p ps ih => simp only [Expands, done_with_busy, ih]

@[simp] theorem cutShort_with_busy (s : State) (b : Bool) (L : List Piece) (c : Cause) (evs : List Event)
    (l l' : CtrlLines) : CutShort { s with busy := b } L c evs l l' = CutShort s L c evs l l' := by
  induction L generalizing evs l with
  | nil => rfl
  | cons p ps ih => simp only [CutShort, done_with_busy, cut_with_busy, ih]

theorem linesThrough_append (L M : List Piece) (l : CtrlLines) :
    linesThrough (L ++ M) l = linesThrough M (linesThrough L l) := List.foldl_append ..

theorem expands_append {x y : List Event} (hx : Expands s L x) (hy : Expands s M y) : Expands s (L ++ M) (x ++ y) := by
  induction L generalizing x with
  | nil =>
    cases hx
    exact hy
  | cons p ps ih =>
    obtain ⟨u, v, rfl, hd, hv⟩ := hx
    exact ⟨u, v ++ y, List.append_assoc .., hd, ih hv⟩

/-- A failure in the first of two runs of pieces. -/
theorem cutShort_left {evs : List Event} {l l' : CtrlLines} (h : CutShort s L c evs l l') :
    CutShort s (L ++ M) c evs l l' := by
  induction L generalizing evs l with
  | nil => exact h.elim
  | cons p ps ih =>
    rcases h with h | ⟨x, y, e, hd, hy⟩
    · exact .inl h
    · exact .inr ⟨x, y, e, hd, ih hy⟩

/-- A failure in the second of two runs of pieces. -/
theorem cutShort_right {x y : List Event} {l l' : CtrlLines} (hx : Expands s L x)
    (hy : CutShort s M c y (linesThrough L l) l') : CutShort s (L ++ M) c (x ++ y) l l' := by
  induction L generalizing x l with
  | nil =>
    cases hx
    exact hy
  | cons p ps ih =>
    obtain ⟨u, v, rfl, hd, hv⟩ := hx
    exact .inr ⟨u, v ++ y, List.append_assoc .., hd, ih hv hy⟩

theorem expands_single {p : Piece} {evs : List Event} (h : p.Done s evs) : Expands s [p] evs :=
  ⟨evs, [], (List.append_nil _).symm, h, rfl⟩

theorem cutShort_single {p : Piece} {evs : List Event} {l : CtrlLines} (h : p.Cut s c evs) :
    CutShort s [p] c evs l (p.linesCut l) := .inl ⟨h, rfl⟩

/-! ### Operations that follow an expansion -/

/-- Run in `s`, the operation emits the events of the pieces `L`, or of a beginning of them where it fails. -/
def Follows (x : Op α) (s : State) (L : List Piece) : Prop :=
  match x s with
  | .ok _ t => BusKept s t ∧ ∃ evs, t.trace = s.trace ++ evs ∧ Expands s L evs ∧ t.ctrl = linesThrough L s.ctrl
  | .error c t => BusKept s t ∧ ∃ evs, t.trace = s.trace ++ evs ∧ CutShort s L c evs s.ctrl t.ctrl

theorem Follows.ok {x : Op α} {a : α} (h : Follows x s L) (e : x s = .ok a t) :
    BusKept s t ∧ ∃ evs, t.trace = s.trace ++ evs ∧ Expands s L evs ∧ t.ctrl = linesThrough L s.ctrl := by
  unfold Follows at h
  rw [e] at h
  exact h

theorem Follows.error {x : Op α} (h : Follows x s L) (e : x s = .error c t) :
    BusKept s t ∧ ∃ evs, t.trace = s.trace ++ evs ∧ CutShort s L c evs s.ctrl t.ctrl := by
  unfold Follows at h
  rw [e] at h
  exact h

theorem follows_of_ok {x : Op α} {a : α} (e : x s = .ok a t) (k : BusKept s t) {evs : List Event}
    (ht : t.trace = s.trace ++ evs) (hx : Expands s L evs) (hc : t.ctrl = linesThrough L s.ctrl) : Follows x s L := by
  unfold Follows
  rw [e]
  exact ⟨k, evs, ht, hx, hc⟩

theorem follows_of_error {x : Op α} (e : x s = .error c t) (k : BusKept s t) {evs : List Event}
    (ht : t.trace = s.trace ++ evs) (hx : CutShort s L c evs s.ctrl t.ctrl) : Follows x s L := by
  unfold Follows
  rw [e]
  exact ⟨k, evs, ht, hx⟩

theorem Follows.bind {x : Op α} {f : α → Op β} (hx : Follows x s L)
    (hf : ∀ a t, BusKept s t → x s = .ok a t → Follows (f a) t M) : Follows (x >>= f) s (L ++ M) := by
  cases e : x s with
  | error c t =>
    obtain ⟨k, evs, ht, hc⟩ := hx.error e
    exact follows_of_error (bind_error e) k ht (cutShort_left hc)
  | ok a t =>
    obtain ⟨k, evs, ht, he, hl⟩ := hx.ok e
    have h := hf a t k e
    cases e' : f a t with
    | error c u =>
      obtain ⟨k', evs', ht', hc'⟩ := h.error e'
      rw [cutShort_congr k, hl] at hc'
      exact follows_of_error ((bind_ok e).trans e') (k.trans k') (by rw [ht', ht, List.append_assoc]) (cutShort_right he hc')
    | ok b u =>
      obtain ⟨k', evs', ht', he', hl'⟩ := h.ok e'
      rw [expands_congr k] at he'
      exact follows_of_ok ((bind_ok e).trans e') (k.trans k') (by rw [ht', ht, List.append_assoc]) (expands_append he he')
        (by rw [hl', hl, linesThrough_append])

theorem portWrite_follows (h : Handle) (p : Port) (v : Byte) (s : State) :
    Follows (portWrite h p v) s [.portWrite h p v] := by
  cases e : portWrite h p v s with
  | ok a t =>
    obtain ⟨hi, o, -, -, g, ht, hg⟩ := portWrite_ok e
    exact follows_of_ok e o.bus ht (expands_single ⟨hi, g, hg, rfl⟩) o.ctrl
  | error c t =>
    cases hi : (s.handle h).init
    · have e' := e
      rw [portWrite_uninitialized hi] at e'
      cases e'
      exact follows_of_error e (.refl s) (evs := []) (by simp) (cutShort_single (.inl ⟨hi, rfl, rfl⟩))
    · obtain ⟨o, -, ⟨rfl, -, ht⟩ | ⟨rfl, hv, -, ht⟩⟩ := portWrite_error hi e
      · exact follows_of_error e o.bus ht (o.ctrl ▸ cutShort_single (.inr ⟨hi, .inl ⟨rfl, rfl⟩⟩))
      · exact follows_of_error e o.bus ht (o.ctrl ▸ cutShort_single (.inr ⟨hi, .inr ⟨rfl, hv, rfl⟩⟩))

/-- A pin write, as a line on an expander pin uses it. -/
theorem pinWrite_cases (h : Handle) (n : Pin) (p : Port) (b : Bool) (s : State) :
    match pinWrite h n p b s with
    | .ok _ t => BusKept s t ∧ t.ctrl = s.ctrl ∧ ∃ evs, t.trace = s.trace ++ evs ∧ PinWriteDone s h p n b evs
    | .error c t => BusKept s t ∧ t.ctrl = s.ctrl ∧ ∃ evs, t.trace = s.trace ++ evs ∧ PinWriteCut s h p n b c evs := by
  cases e : pinWrite h n p b s with
  | ok a t =>
    obtain ⟨hi, o, -, cur, g, -, ht, hg⟩ := pinWrite_ok e
    simp only [List.append_assoc] at ht
    exact ⟨o.bus, o.ctrl, _, ht, hi, cur, g, hg, by simp [pinWriteEvents]⟩
  | error c t =>
    cases hi : (s.handle h).init
    · rw [pinWrite_uninitialized hi] at e
      cases e
      exact ⟨.refl s, rfl, [], by simp, .inl ⟨hi, rfl, rfl⟩⟩
    · obtain ⟨o, -, ⟨rfl, -, ht⟩ | ⟨cur, rfl, -, ht⟩ | ⟨cur, rfl, hv, -, ht⟩⟩ := pinWrite_error hi e
      · exact ⟨o.bus, o.ctrl, _, ht, .inr ⟨hi, .inl ⟨rfl, rfl⟩⟩⟩
      · rw [List.append_assoc] at ht
        exact ⟨o.bus, o.ctrl, _, ht, .inr ⟨hi, .inr (.inl ⟨cur, rfl, rfl⟩)⟩⟩
      · simp only [List.append_assoc] at ht
        exact ⟨o.bus, o.ctrl, _, ht, .inr ⟨hi, .inr (.inr ⟨cur, rfl, hv, by simp [pinWriteEvents]⟩)⟩⟩

theorem setCtrl_kept (line : Line) (lvl : LineLevel) (s : State) : BusKept s (s.setCtrl line lvl) := by
  constructor <;> simp [HandleKept]

theorem emit_kept (e : Event) (s : State) : BusKept s (s.emit e) := by
  constructor <;> simp [HandleKept]

theorem pinWriteDone_congr (k : BusKept s t) (h : Handle) (p : Port) (n : Pin) (b : Bool) (evs : List Event) :
    PinWriteDone t h p n b evs = PinWriteDone s h p n b evs := by
  simp only [PinWriteDone, (k.handleKept h).1, (k.handleKept h).2.2.2.1, k.params]

theorem pinWriteCut_congr (k : BusKept s t) (h : Handle) (p : Port) (n : Pin) (b : Bool) (c : Cause)
    (evs : List Event) : PinWriteCut t h p n b c evs = PinWriteCut s h p n b c evs := by
  simp only [PinWriteCut, (k.handleKept h).1, (k.handleKept h).2.2.2.1, k.params]

/-- CtrlSet, wherever its line is: the event always; then the line's level, or the pin write, and `Unknown` where it
failed (42_bus_controller.md R100). -/
theorem ctrlSet_follows (line : Line) (lvl : Level) (s : State) :
    Follows (ctrlSet line lvl) s [.ctrlSet line lvl] := by
  cases hr : routeOf s.params.ctrlMap line with
  | direct =>
    exact follows_of_ok (ctrlSet_apply hr) (drive_kept ..) (drive_trace ..)
      (expands_single (by simp only [Piece.Done, hr])) (drive_ctrl ..)
  | expPin h p n =>
    have e : ctrlSet line lvl s = ctrlByPin line lvl h p n (s.emit (.ctrl line lvl)) := by
      unfold ctrlSet
      rw [update_bind, getParams_bind, State.emit_params, hr]
    have w := pinWrite_cases h n p (lvl == .high) (s.emit (.ctrl line lvl))
    rw [ctrlByPin] at e
    cases e' : pinWrite h n p (lvl == .high) (s.emit (.ctrl line lvl)) with
    | ok u t =>
      rw [e'] at w e
      obtain ⟨k, hc, evs, ht, hd⟩ := w
      rw [pinWriteDone_congr (emit_kept ..)] at hd
      refine follows_of_ok e (((emit_kept ..).trans k).trans (setCtrl_kept ..)) (evs := .ctrl line lvl :: evs)
        (by simp [ht]) (expands_single ?_) ?_
      · simp only [Piece.Done, hr]
        exact ⟨evs, rfl, hd⟩
      · rw [State.setCtrl_ctrl, hc]
        rfl
    | error c t =>
      rw [e'] at w e
      obtain ⟨k, hc, evs, ht, hd⟩ := w
      rw [pinWriteCut_congr (emit_kept ..)] at hd
      refine follows_of_error e (((emit_kept ..).trans k).trans (setCtrl_kept ..)) (evs := .ctrl line lvl :: evs)
        (by simp [ht]) (.inl ⟨?_, ?_⟩)
      · simp only [Piece.Cut, hr]
        exact ⟨evs, rfl, hd⟩
      · rw [State.setCtrl_ctrl, hc]
        rfl

theorem delay_follows (k : Nat) (s : State) : Follows (delay k) s [.delay k] :=
  follows_of_ok (update_apply ..) (emit_kept ..) rfl (expands_single rfl) rfl

theorem setPhase_follows (q : Phase) (s : State) : Follows (setPhase q) s [] :=
  follows_of_ok (evs := []) (update_apply ..)
    ⟨rfl, rfl, rfl, rfl, rfl, rfl, rfl, handleKept_refl _, handleKept_refl _⟩ (by simp) rfl rfl

theorem getParams_follows (s : State) : Follows getParams s [] :=
  follows_of_ok (evs := []) (getParams_apply ..) (.refl s) (by simp) rfl rfl

theorem pure_follows (a : α) (s : State) : Follows (pure a : Op α) s [] :=
  follows_of_ok (evs := []) (pure_apply ..) (.refl s) (by simp) rfl rfl

theorem addressSet_follows (a : Addr) (s : State) : Follows (addressSet a) s (addressPieces a) :=
  (setPhase_follows ..).bind (L := []) fun _ _ _ _ =>
    (portWrite_follows ..).bind fun _ _ _ _ => (portWrite_follows ..).bind fun _ _ _ _ =>
      (ctrlSet_follows ..).bind fun _ _ _ _ => (ctrlSet_follows ..).bind fun _ _ _ _ => ctrlSet_follows ..

/-- An address set that fails with its lines `Direct`: how far its expansion got (42_bus_controller.md R101). -/
theorem addressSet_cut {a : Addr} (hm : s.params.ctrlMap = .direct) (hi : s.hA.init = true)
    (e : addressSet a s = .error c t) :
    ∃ evs, t.trace = s.trace ++ evs ∧ evs.any isCtrl = false ∧ CutShort s (addressPieces a) c evs s.ctrl t.ctrl := by
  obtain ⟨-, -, -, -, -, evs, ht, hev, -⟩ := addressSet_error hm hi e
  obtain ⟨-, evs', ht', hc⟩ := (addressSet_follows a s).error e
  cases List.append_cancel_left (ht'.symm.trans ht)
  exact ⟨_, ht, hev, hc⟩

/-- What a caller operation leaves alone whose body keeps what a bus transfer keeps and ends `Idle`. -/
theorem finish_busFrame {r : EStateM.Result Cause State OpResult} (k : BusKept { s with busy := true } (after r))
    (hp : (after r).phase = .idle) : BusFrame s (finish r) ∧ CallerDataKept s (finish r) :=
  ⟨⟨⟨by simp [k.params], by simp [k.calls], by simp⟩, by simpa using hp, by simpa using k.hA, by simpa using k.hD⟩,
    by simp [k.out], by simp [k.buf], by simp [k.info]⟩

theorem idle_kept (s : State) : BusKept s { s with phase := .idle } :=
  ⟨rfl, rfl, rfl, rfl, rfl, rfl, rfl, handleKept_refl _, handleKept_refl _⟩

theorem transfer_follows {x : Op α} (h : Follows x s L) : Follows (transfer x) s L := by
  unfold Follows transfer at *
  cases e : x s with
  | ok a t =>
    rw [e] at h
    exact ⟨h.1.trans (idle_kept t), h.2⟩
  | error c t =>
    rw [e] at h
    exact ⟨h.1.trans (idle_kept t), h.2⟩

/-- WRITE_BYTE (42_bus_controller.md R104). -/
theorem byteWrite_follows (a : Addr) (v : Byte) (s : State) : Follows (byteWrite a v) s (writePieces s.params a v) := by
  refine transfer_follows ((addressSet_follows a s).bind fun _ t k _ => ?_)
  rw [← k.params]
  refine (setPhase_follows ..).bind (L := []) fun _ u k _ => ?_
  rw [← k.params]
  refine (getParams_follows u).bind (L := []) fun p w _ e => ?_
  cases e
  exact (portWrite_follows ..).bind fun _ _ _ _ => (portWrite_follows ..).bind fun _ _ _ _ =>
    (ctrlSet_follows ..).bind fun _ _ _ _ => ctrlSet_follows ..

theorem byteWrite_phase (a : Addr) (v : Byte) (s : State) : (after (byteWrite a v s)).phase = .idle := by
  unfold byteWrite transfer
  split <;> rfl

theorem byteRead_phase (a : Addr) (s : State) : (after (byteRead a s)).phase = .idle := by
  unfold byteRead transfer
  split <;> rfl

/-! ### Reads: the expansion carries the byte received -/

/-- Run in `s`, the operation that answers `d` emits the events of the pieces `L d`; a failing one those of a beginning
of them, whichever byte would have come. -/
def Samples (x : Op Byte) (s : State) (L : Byte → List Piece) : Prop :=
  match x s with
  | .ok d t => BusKept s t ∧ ∃ evs, t.trace = s.trace ++ evs ∧ Expands s (L d) evs ∧ t.ctrl = linesThrough (L d) s.ctrl
  | .error c t => BusKept s t ∧ ∃ evs, t.trace = s.trace ++ evs ∧ ∃ d, CutShort s (L d) c evs s.ctrl t.ctrl

theorem Samples.ok {x : Op Byte} {L : Byte → List Piece} {d : Byte} (h : Samples x s L) (e : x s = .ok d t) :
    BusKept s t ∧ ∃ evs, t.trace = s.trace ++ evs ∧ Expands s (L d) evs ∧ t.ctrl = linesThrough (L d) s.ctrl := by
  unfold Samples at h
  rw [e] at h
  exact h

theorem Samples.error {x : Op Byte} {L : Byte → List Piece} (h : Samples x s L) (e : x s = .error c t) :
    BusKept s t ∧ ∃ evs, t.trace = s.trace ++ evs ∧ ∃ d, CutShort s (L d) c evs s.ctrl t.ctrl := by
  unfold Samples at h
  rw [e] at h
  exact h

theorem samples_of_ok {x : Op Byte} {L : Byte → List Piece} {d : Byte} (e : x s = .ok d t) (k : BusKept s t)
    {evs : List Event} (ht : t.trace = s.trace ++ evs) (hx : Expands s (L d) evs)
    (hc : t.ctrl = linesThrough (L d) s.ctrl) : Samples x s L := by
  unfold Samples
  rw [e]
  exact ⟨k, evs, ht, hx, hc⟩

theorem samples_of_error {x : Op Byte} {L : Byte → List Piece} (e : x s = .error c t) (k : BusKept s t)
    {evs : List Event} (ht : t.trace = s.trace ++ evs) (d : Byte) (hx : CutShort s (L d) c evs s.ctrl t.ctrl) :
    Samples x s L := by
  unfold Samples
  rw [e]
  exact ⟨k, evs, ht, d, hx⟩

/-- An operation before the sample. -/
theorem Follows.samples {x : Op α} {f : α → Op Byte} {N : Byte → List Piece} (hx : Follows x s L)
    (hf : ∀ a t, BusKept s t → x s = .ok a t → Samples (f a) t N) : Samples (x >>= f) s fun d => L ++ N d := by
  cases e : x s with
  | error c t =>
    obtain ⟨k, evs, ht, hc⟩ := hx.error e
    exact samples_of_error (bind_error e) k ht 0#8 (cutShort_left hc)
  | ok a t =>
    obtain ⟨k, evs, ht, he, hl⟩ := hx.ok e
    have h := hf a t k e
    cases e' : f a t with
    | error c u =>
      obtain ⟨k', evs', ht', d, hc'⟩ := h.error e'
      rw [cutShort_congr k, hl] at hc'
      exact samples_of_error ((bind_ok e).trans e') (k.trans k') (by rw [ht', ht, List.append_assoc]) d
        (cutShort_right he hc')
    | ok d u =>
      obtain ⟨k', evs', ht', he', hl'⟩ := h.ok e'
      rw [expands_congr k] at he'
      exact samples_of_ok ((bind_ok e).trans e') (k.trans k') (by rw [ht', ht, List.append_assoc])
        (expands_append he he') (by rw [hl', hl, linesThrough_append])

theorem portRead_samples (h : Handle) (p : Port) (s : State) :
    Samples (portRead h p) s fun d => [.portRead h p d] := by
  cases e : portRead h p s with
  | ok d t =>
    obtain ⟨hi, o, ht, -⟩ := readRegister_ok e
    exact samples_of_ok e o.bus ht (expands_single ⟨hi, rfl⟩) o.ctrl
  | error c t =>
    rcases readRegister_error e with ⟨hi, rfl, rfl⟩ | ⟨hi, rfl, o, ht, -⟩
    · exact samples_of_error e (.refl _) (evs := []) (by simp) 0#8 (cutShort_single (.inl ⟨hi, rfl, rfl⟩))
    · exact samples_of_error e o.bus ht 0#8 (o.ctrl ▸ cutShort_single (.inr ⟨hi, rfl, rfl⟩))

/-- An operation behind the sample, which keeps its byte. -/
theorem Samples.keep {x : Op Byte} {y : Op Unit} {N : Byte → List Piece} (hx : Samples x s N)
    (hy : ∀ t, Follows y t L) : Samples (do let d ← x; y; pure d) s fun d => N d ++ L := by
  cases e : x s with
  | error c t =>
    obtain ⟨k, evs, ht, d, hc⟩ := hx.error e
    exact samples_of_error (bind_error e) k ht d (cutShort_left hc)
  | ok d t =>
    obtain ⟨k, evs, ht, he, hl⟩ := hx.ok e
    cases e' : y t with
    | error c u =>
      obtain ⟨k', evs', ht', hc'⟩ := (hy t).error e'
      rw [cutShort_congr k, hl] at hc'
      exact samples_of_error ((bind_ok e).trans (bind_error e')) (k.trans k') (by rw [ht', ht, List.append_assoc]) d
        (cutShort_right he hc')
    | ok v u =>
      obtain ⟨k', evs', ht', he', hl'⟩ := (hy t).ok e'
      rw [expands_congr k] at he'
      exact samples_of_ok ((bind_ok e).trans (bind_ok e')) (k.trans k') (by rw [ht', ht, List.append_assoc])
        (expands_append he he') (by rw [hl', hl, linesThrough_append])

theorem transfer_samples {x : Op Byte} {N : Byte → List Piece} (h : Samples x s N) : Samples (transfer x) s N := by
  unfold Samples transfer at *
  cases e : x s with
  | ok a t =>
    rw [e] at h
    exact ⟨h.1.trans (idle_kept t), h.2⟩
  | error c t =>
    rw [e] at h
    exact ⟨h.1.trans (idle_kept t), h.2⟩

/-- READ_BYTE (42_bus_controller.md R103). -/
theorem byteRead_samples (a : Addr) (s : State) : Samples (byteRead a) s (readPieces s.params a) := by
  refine transfer_samples ((addressSet_follows a s).samples fun _ t k _ => ?_)
  rw [← k.params]
  refine (getParams_follows t).samples (L := []) fun p u _ e => ?_
  cases e
  exact (delay_follows ..).samples fun _ _ _ _ => (setPhase_follows ..).samples (L := []) fun _ _ _ _ =>
    (ctrlSet_follows ..).samples fun _ _ _ _ => (delay_follows ..).samples fun _ _ _ _ =>
      (portRead_samples ..).keep fun _ => ctrlSet_follows ..

/-- What a run of `n` byte reads leaves: the bytes received are those its expansion carries; a failure cuts the next
byte's expansion short (42_bus_controller.md R105). -/
theorem readRun_pieces (a : Addr) (n : Nat) (s : State) :
    let r := readRun a n s
    BusKept s r.state ∧ (s.phase = .idle → r.state.phase = .idle) ∧ ∃ x, Expands s (runPieces s.params a r.got) x ∧
      match r.failed with
      | none => r.got.length = n ∧ r.state.trace = s.trace ++ x ∧
          r.state.ctrl = linesThrough (runPieces s.params a r.got) s.ctrl
      | some c => r.got.length < n ∧ ∃ y d, r.state.trace = s.trace ++ (x ++ y) ∧
          CutShort s (readPieces s.params (a + BitVec.ofNat 16 r.got.length) d) c y
            (linesThrough (runPieces s.params a r.got) s.ctrl) r.state.ctrl := by
  induction n generalizing a s with
  | zero => exact ⟨.refl s, id, [], rfl, rfl, by simp [readRun], rfl⟩
  | succ n ih =>
    have hs := byteRead_samples a s
    have hp := byteRead_phase a s
    dsimp only
    unfold readRun
    cases e : byteRead a s with
    | error c t =>
      obtain ⟨k, evs, ht, d, hc⟩ := hs.error e
      rw [e] at hp
      exact ⟨k, fun _ => hp, [], rfl, Nat.succ_pos n, evs, d, ht, by simpa [runPieces, linesThrough] using hc⟩
    | ok d t =>
      obtain ⟨k, evs, ht, he, hl⟩ := hs.ok e
      rw [e] at hp
      obtain ⟨k', hp', x, hx, h'⟩ := ih (a + 1#16) t
      rw [expands_congr k, k.params] at hx
      refine ⟨k.trans k', fun _ => hp' hp, evs ++ x, expands_append he hx, ?_⟩
      dsimp only at h' ⊢
      cases hf : (readRun (a + 1#16) n t).failed with
      | none =>
        rw [hf] at h'
        obtain ⟨h₁, h₂, h₃⟩ := h'
        refine ⟨by simp [h₁], by rw [h₂, ht, List.append_assoc], ?_⟩
        rw [h₃, hl, k.params, runPieces, linesThrough_append]
      | some c =>
        rw [hf] at h'
        obtain ⟨h₁, y, d', h₂, h₃⟩ := h'
        refine ⟨by simpa using h₁, y, d', by rw [h₂, ht]; simp, ?_⟩
        rw [cutShort_congr k, k.params, hl] at h₃
        rw [runPieces, linesThrough_append, List.length_cons]
        have hadd : a + BitVec.ofNat 16 ((readRun (a + 1#16) n t).got.length + 1) =
            a + 1#16 + BitVec.ofNat 16 (readRun (a + 1#16) n t).got.length := by
          apply BitVec.eq_of_toNat_eq
          simp only [BitVec.toNat_add, BitVec.toNat_ofNat]
          omega
        rw [hadd]
        exact h₃

/-! ### The record of a READ_INFO -/

/-- The record parsed from a header is the header's, whatever the free values are (43_header_parser.md R109). -/
theorem parseHeader_parsed (cap : Nat) (H : List Byte) (d : Nat) : ParsedFrom cap H (parseHeader cap H d) :=
  ⟨rfl, rfl, rfl, rfl, fun h => if_pos h, rfl, rfl, rfl, rfl⟩

end Sys2Proof.Machine
end

