-- ==== Sys2Proof/Tests/Slice0.lean ====
section
/-!
SUPPORT. The model's own tests: ill-formed terms, spec words through the decoder, and one step per test on small states.
Expected values are those of spec/95_test_vectors.md, named in each comment, or written out by hand from the rules.
-/

namespace Sys2Proof.Tests

open Sys2Proof.Machine

/-! ### WellFormed refuses -/

theorem test_wf_refuses_chip_8 : wellFormed (.init .hA 8#8 .present .present) = false := by decide
theorem test_wf_refuses_pin_8_write : wellFormed (.writePin .hD 8#8 .A 1#8) = false := by decide
theorem test_wf_refuses_pin_value_2 : wellFormed (.writePin .hD 0#8 .A 2#8) = false := by decide
theorem test_wf_refuses_pin_8_read : wellFormed (.readPin .hD 8#8 .A) = false := by decide

/-! ### Words of the spec through the decoder -/

/-- EN2: chip 5, register 0x14, value 0xA5 is 0x4A14A5; then the handle byte. -/
theorem test_decode_wrFrame :
    decode .wire [0x4A#8, 0x14#8, 0xA5#8, 1#8] = .ok (.wrFrame .hD 5#3 0x14#8 0xA5#8, []) := by decide
/-- EN3: chip 7, register 0x13 is 0x4F13. -/
theorem test_decode_rdFrame : decode .wire [0x4F#8, 0x13#8, 0#8] = .ok (.rdFrame .hA 7#3 0x13#8, []) := by decide
/-- EN2 as a word of the opcode table: bits 23:16 are the first byte on the wire. -/
theorem test_table_wrFrame : decodeTableWord 24 0x4A14A5 = some (.wrFrame .hA 5#3 0x14#8 0xA5#8) := by decide
theorem test_table_rdFrame : decodeTableWord 16 0x4F13 = some (.rdFrame .hA 7#3 0x13#8) := by decide
theorem test_decode_init :
    decode .caller [0x01#8, 1#8, 7#8, 0#8, 1#8] = .ok (.init .hD 7#8 .present .absent, []) := by decide
theorem test_decode_destroy : decode .caller [0x02#8, 1#8] = .ok (.destroy .hD, []) := by decide
theorem test_decode_writeReg : decode .caller [0x03#8, 1#8, 0x14#8, 0x5A#8] = .ok (.writeReg .hD 0x14#8 0x5A#8, []) := by decide
theorem test_decode_readReg : decode .caller [0x04#8, 0#8, 0x12#8, 1#8] = .ok (.readReg .hA 0x12#8 .absent, []) := by decide
theorem test_decode_setPortMode :
    decode .caller [0x05#8, 1#8, 1#8, 2#8] = .ok (.setPortMode .hD .B .inputPullup, []) := by decide
theorem test_decode_writePin :
    decode .caller [0x06#8, 1#8, 3#8, 0#8, 1#8] = .ok (.writePin .hD 3#8 .A 1#8, []) := by decide
theorem test_decode_writePort : decode .caller [0x07#8, 0#8, 1#8, 0x3C#8] = .ok (.writePort .hA .B 0x3C#8, []) := by decide
theorem test_decode_readPin : decode .caller [0x08#8, 1#8, 7#8, 0#8] = .ok (.readPin .hD 7#8 .A, []) := by decide
theorem test_decode_readPort : decode .caller [0x09#8, 1#8, 0#8] = .ok (.readPort .hD .A, []) := by decide
theorem test_decode_isConnected : decode .caller [0x0A#8, 1#8] = .ok (.isConnected .hD, []) := by decide
theorem test_decode_readByte : decode .caller [0x0B#8, 0x01#8, 0x34#8] = .ok (.readByte 0x0134#16, []) := by decide
theorem test_decode_writeByte : decode .caller [0x0C#8, 0x20#8, 0x00#8, 0x01#8] = .ok (.writeByte 0x2000#16 1#8, []) := by decide
theorem test_decode_readBytes :
    decode .caller [0x0D#8, 0xFF#8, 0xFF#8, 0x83#8, 0x00#8, 0#8] = .ok (.readBytes 0xFFFF#16 0x180 .present, []) ∧
      decode .caller [0x0D#8, 0#8, 0#8, 0x7F#8, 1#8] = .ok (.readBytes 0#16 127 .absent, []) := by decide
/-- log 3: a length of 65 bits has bytes, and no length has a leading group of zeros. -/
theorem test_decode_readBytes_wide :
    encode (.readBytes 0#16 (2 ^ 64) .present) =
        [0x0D#8, 0#8, 0#8, 0x82#8, 0x80#8, 0x80#8, 0x80#8, 0x80#8, 0x80#8, 0x80#8, 0x80#8, 0x80#8, 0x00#8, 0#8] ∧
      decode .caller (encode (.readBytes 0#16 (2 ^ 64) .present)) = .ok (.readBytes 0#16 (2 ^ 64) .present, []) ∧
      decode .caller [0x0D#8, 0#8, 0#8, 0x80#8, 0x01#8, 0#8] = .error .paddedLength := by decide
theorem test_decode_readInfo : decode .caller [0x0E#8, 1#8] = .ok (.readInfo .absent, []) := by decide
/-- EN10: selectors 0x0F and 0x00 are refused. -/
theorem test_decode_refuses_selector_0F : decode .caller [0x0F#8] = .error (.unknownSelector 0x0F#8) := by decide
theorem test_decode_refuses_selector_00 : decode .caller [0x00#8] = .error (.unknownSelector 0x00#8) := by decide
/-- R83: a frame's first byte is no selector, with operands behind it or alone in a word of the table; a selector opens no
frame. -/
theorem test_decode_keeps_the_interfaces_apart :
    decode .caller [0x40#8, 0x14#8, 0xA5#8, 0#8] = .error (.unknownSelector 0x40#8) ∧
      decode .caller [0x4F#8, 0x13#8, 0#8] = .error (.unknownSelector 0x4F#8) ∧
      decodeTableWord 8 0x40 = none ∧ decodeTableWord 8 0x4F = none ∧
      decode .wire [0x02#8, 1#8] = .error (.notAFrame 0x02#8) := by decide
/-- EN9 and PP21: chip address 8, pin 8 and pin value 2 are refused; so is a third port. -/
theorem test_decode_refuses_chip_8 : decode .caller [0x01#8, 0#8, 8#8, 0#8, 0#8] = .error (.chipAbove7 8#8) := by decide
theorem test_decode_refuses_pin_8 : decode .caller [0x06#8, 1#8, 8#8, 0#8, 1#8] = .error (.pinAbove7 8#8) := by decide
theorem test_decode_refuses_value_2 : decode .caller [0x06#8, 1#8, 0#8, 0#8, 2#8] = .error (.pinValueNotBit 2#8) := by decide
theorem test_decode_refuses_port_2 : decode .caller [0x09#8, 0#8, 2#8] = .error (.badPort 2#8) := by decide
theorem test_decode_refuses_short_call : decode .caller [0x03#8, 0#8, 0x14#8] = .error .truncated := by decide

/-! ### Small states: the ideal environment of 20_memory.md R54 -/

/-- 22 registers, all 0x00. -/
def zeros : Vector Byte 22 := Vector.replicate 22 0#8

/-- 22 registers, 0x00 but for those named. -/
def regsWith (ws : List (Byte × Byte)) : Vector Byte 22 := ws.foldl (fun r w => setReg22 r w.1 w.2) zeros

/-- A handle as INIT leaves it. -/
def ready (chip : ChipAddr) (line : Nat) : HandleState := ⟨chip, .present, some line, zeros, true, .outputHigh, .high⟩

/-- The ideal environment with registers and ROM given. -/
def idealModel (ra rd : List (Byte × Byte)) (rom : Memory) : EnvModel := .ideal ⟨regsWith ra, regsWith rd, rom, []⟩

/-- Both handles initialized, every line Direct, the parameters at their defaults. -/
def session (v : VerifyReadFail) (script : List Reply) (m : EnvModel) : State :=
  { State.construct (Params.standard v .direct) with
    hA := ready 0#3 0, hD := ready 1#3 1, env := ⟨script, m⟩ }

/-- Neither handle initialized; caches 0x00 so that a test can read them. -/
def fresh (script : List Reply) (m : EnvModel) : State :=
  { session .fail script m with
    hA := { ready 0#3 0 with init := false, cscfg := .unconfigured, cslvl := .unknown }
    hD := { ready 1#3 1 with init := false, cscfg := .unconfigured, cslvl := .unknown } }

/-- What a test reads of a next state. -/
def nextOf {α : Type} (f : State → α) (o : Host.Outcome State Fault Refusal) : Option α :=
  match o with
  | .next t => some (f t)
  | .fault _ => none
  | .refused _ => none

/-- The refusal of an outcome. -/
def refusedWith (o : Host.Outcome State Fault Refusal) : Option Refusal :=
  match o with
  | .next _ => none
  | .fault _ => none
  | .refused r => some r

/-- `W(h, bytes)` and `W!(h, bytes)` of 95_test_vectors.md. -/
def W (h : Handle) (bytes : List Byte) (ok : Bool := true) : List Event :=
  [.acquire, .csDrive h .low, .tx h bytes ok, .csDrive h .high, .release]

/-- `R(h, bytes) → x` of 95_test_vectors.md. -/
def R (h : Handle) (bytes : List Byte) (x : Byte) : List Event :=
  [.acquire, .csDrive h .low, .txRx h bytes 1 (some [x]), .csDrive h .high, .release]

/-- `R!(h, bytes)` of 95_test_vectors.md. -/
def Rfail (h : Handle) (bytes : List Byte) : List Event :=
  [.acquire, .csDrive h .low, .txRx h bytes 1 none, .csDrive h .high, .release]

/-- Trace and result. -/
def seen (t : State) : List Event × Option OpResult := (t.trace, t.result)

/-! ### The register driver -/

/-- RG2. -/
theorem test_writeReg_RG2 :
    nextOf (fun t => (seen t, getReg22 t.hD.cache 0x14#8)) (exec (.writeReg .hD 0x14#8 0x5A#8)
      (session .fail [] (idealModel [] [] []))) =
    some ((W .hD [0x42#8, 0x14#8, 0x5A#8], some .ok), 0x5A#8) := by decide

/-- RG3: the failed write leaves the cache; deselect and release still happen. -/
theorem test_writeReg_RG3 :
    nextOf (fun t => (seen t, getReg22 t.hD.cache 0x14#8))
      (exec (.writeReg .hD 0x14#8 0x77#8)
        ((session .fail [.fail] (idealModel [] [] [])).setCache .hD 0x14#8 0x5A#8)) =
    some ((W .hD [0x42#8, 0x14#8, 0x77#8] false, some (.fail .txFail)), 0x5A#8) := by decide

/-- RG6. -/
theorem test_readReg_RG6 :
    nextOf (fun t => (seen t, t.out)) (exec (.readReg .hD 0x14#8 .present)
      (session .fail [] (idealModel [] [(0x14#8, 0x5A#8)] []))) =
    some ((R .hD [0x43#8, 0x14#8] 0x5A#8, some (.okByte 0x5A#8)), 0x5A#8) := by decide

/-- RG7: presence is checked before initialization. -/
theorem test_readReg_RG7 :
    nextOf seen (exec (.readReg .hD 0x14#8 .absent) (fresh [] .free)) = some ([], some (.fail .argAbsent)) := by decide

/-- RG10: 31 events, `init[hA]`, the cache 0x00 although the chip holds 0x08 at 0x0A, GPPUA untouched. -/
theorem test_init_RG10 :
    nextOf (fun t => (seen t, t.hA.init, t.hA.cache, t.hA.cscfg, t.hA.cslvl))
      (exec (.init .hA 0#8 .present .present) (fresh [] (idealModel [(0x00#8, 0xFF#8), (0x0C#8, 0xFF#8)] [] []))) =
    some (([Event.csConfig .hA .outputHigh] ++ W .hA [0x40#8, 0x0A#8, 0x08#8] ++ W .hA [0x40#8, 0x00#8, 0x00#8] ++
      W .hA [0x40#8, 0x01#8, 0x00#8] ++ W .hA [0x40#8, 0x14#8, 0x00#8] ++ W .hA [0x40#8, 0x15#8, 0x00#8] ++
      R .hA [0x41#8, 0x00#8] 0x00#8, some .ok), true, zeros, .outputHigh, .high) := by decide

/-- RG13: the third Tx fails; no rollback of the chip-select configuration. -/
theorem test_init_RG13 :
    nextOf (fun t => (seen t, t.hA.init, t.hA.cscfg))
      (exec (.init .hA 0#8 .present .present) (fresh [.byEnv, .byEnv, .fail] (idealModel [] [] []))) =
    some (([Event.csConfig .hA .outputHigh] ++ W .hA [0x40#8, 0x0A#8, 0x08#8] ++ W .hA [0x40#8, 0x00#8, 0x00#8] ++
      W .hA [0x40#8, 0x01#8, 0x00#8] false, some (.fail .txFail)), false, .outputHigh) := by decide

/-- RG17. -/
theorem test_destroy_RG17 :
    nextOf (fun t => (seen t, t.hD)) (exec (.destroy .hD)
      ((session .fail [] .free).setCache .hD 0x14#8 0x5A#8)) =
    some (([.csConfig .hD .released], some .noResult),
      ⟨1#3, .present, some 1, zeros, false, .released, .unknown⟩) := by decide

/-- RG16: refused, not failed. -/
theorem test_init_RG16 :
    refusedWith (exec (.init .hA 0#8 .present .present) (session .fail [] .free)) = some .alreadyInitialized := by decide

/-- A frame is one transaction: a write frame to chip 5 by the line of hD (30_encoding.md EN2). -/
theorem test_wrFrame :
    nextOf seen (exec (.wrFrame .hD 5#3 0x14#8 0xA5#8) (fresh [.ok 0#8] .free)) =
    some (W .hD [0x4A#8, 0x14#8, 0xA5#8], some .ok) := by decide

/-- A read frame to chip 7 by the line of hA (EN3), answered 0x99. -/
theorem test_rdFrame :
    nextOf seen (exec (.rdFrame .hA 7#3 0x13#8) (fresh [.ok 0x99#8] .free)) =
    some (R .hA [0x4F#8, 0x13#8] 0x99#8, some (.okByte 0x99#8)) := by decide

/-! ### The port/pin layer -/

/-- PP3. -/
theorem test_setPortMode_PP3 :
    nextOf (fun t => (seen t, getReg22 t.hD.cache 0x01#8, getReg22 t.hD.cache 0x0D#8))
      (exec (.setPortMode .hD .B .inputPullup) (session .fail [] (idealModel [] [] []))) =
    some ((W .hD [0x42#8, 0x01#8, 0xFF#8] ++ W .hD [0x42#8, 0x0D#8, 0xFF#8], some .ok), 0xFF#8, 0xFF#8) := by decide

/-- PP4: the direction stays when the pull-up write fails. -/
theorem test_setPortMode_PP4 :
    nextOf (fun t => (seen t, getReg22 t.hD.cache 0x00#8))
      (exec (.setPortMode .hD .A .input) (session .fail [.byEnv, .fail] (idealModel [] [] []))) =
    some ((W .hD [0x42#8, 0x00#8, 0xFF#8] ++ W .hD [0x42#8, 0x0C#8, 0x00#8] false, some (.fail .txFail)), 0xFF#8) := by
  decide

/-- PP7: clears bit 0 of 0xFF. -/
theorem test_writePin_PP7 :
    nextOf (fun t => (seen t, getReg22 t.hD.cache 0x15#8))
      (exec (.writePin .hD 0#8 .B 0#8) (session .fail [] (idealModel [] [(0x15#8, 0xFF#8)] []))) =
    some ((R .hD [0x43#8, 0x15#8] 0xFF#8 ++ W .hD [0x42#8, 0x15#8, 0xFE#8] ++ R .hD [0x43#8, 0x13#8] 0xFE#8,
      some .ok), 0xFE#8) := by decide

/-- PP9: an input pin; the mismatch is a diagnostic. -/
theorem test_writePin_PP9 :
    nextOf seen (exec (.writePin .hD 3#8 .A 1#8) (session .fail [] (idealModel [] [(0x00#8, 0xFF#8)] []))) =
    some (R .hD [0x43#8, 0x14#8] 0x00#8 ++ W .hD [0x42#8, 0x14#8, 0x08#8] ++ R .hD [0x43#8, 0x12#8] 0x00#8 ++
      [.diag (.mismatch .hD .A (.pin 3#3) 1#8 0#8)], some .ok) := by decide

/-- PP14: low nibble input. -/
theorem test_writePort_PP14 :
    nextOf seen (exec (.writePort .hD .B 0xFF#8) (session .fail [] (idealModel [] [(0x01#8, 0x0F#8)] []))) =
    some (W .hD [0x42#8, 0x15#8, 0xFF#8] ++ R .hD [0x43#8, 0x13#8] 0xF0#8 ++
      [.diag (.mismatch .hD .B .port 0xFF#8 0xF0#8)], some .ok) := by decide

/-- PP12, on a port write: a failed verification read under `Soft` is Ok without a diagnostic. -/
theorem test_writePort_soft :
    nextOf seen (exec (.writePort .hD .A 0x08#8) (session .soft [.byEnv, .fail] (idealModel [] [] []))) =
    some (W .hD [0x42#8, 0x14#8, 0x08#8] ++ Rfail .hD [0x43#8, 0x12#8], some .ok) := by decide

/-- PP15 and PP16. -/
theorem test_readPin_PP15 :
    nextOf seen (exec (.readPin .hD 7#8 .A) (session .fail [] (idealModel [] [(0x14#8, 0x80#8)] []))) =
    some (R .hD [0x43#8, 0x12#8] 0x80#8, some (.okBit true)) := by decide
theorem test_readPin_PP16 :
    nextOf (fun t => t.result) (exec (.readPin .hD 6#8 .A) (session .fail [] (idealModel [] [(0x14#8, 0x80#8)] []))) =
    some (some (.okBit false)) := by decide

/-- PP17. -/
theorem test_readPort_PP17 :
    nextOf seen (exec (.readPort .hD .A) (session .fail [] (idealModel [] [(0x14#8, 0xC3#8)] []))) =
    some (R .hD [0x43#8, 0x12#8] 0xC3#8, some (.okByte 0xC3#8)) := by decide

/-- PP19 and PP20. -/
theorem test_isConnected_PP19 :
    nextOf seen (exec (.isConnected .hD) (session .fail [.fail] .free)) =
    some (Rfail .hD [0x43#8, 0x00#8], some (.answer false)) := by decide
theorem test_isConnected_PP20 :
    nextOf seen (exec (.isConnected .hD) (fresh [] .free)) = some ([], some (.answer false)) := by decide

/-! ### The bus controller -/

/-- The ROM of the vectors BC1 to BC9. -/
def rom : Memory := [(0x0000, 0x31#8), (0x0001, 0x32#8), (0x0134, 0x54#8), (0x0135, 0x45#8), (0xFFFF, 0xAA#8)]

/-- The start of BC1 to BC9: port A of hD is an input. -/
def busSession (script : List Reply) : State := session .fail script (idealModel [] [(0x00#8, 0xFF#8)] rom)

/-- BC1. -/
theorem test_readByte_BC1 :
    nextOf (fun t => (seen t, t.ctrl, t.phase)) (exec (.readByte 0x0134#16) (busSession [])) =
    some ((W .hA [0x40#8, 0x14#8, 0x34#8] ++ R .hA [0x41#8, 0x12#8] 0x34#8 ++ W .hA [0x40#8, 0x15#8, 0x01#8] ++
      R .hA [0x41#8, 0x13#8] 0x01#8 ++ [.ctrl .RD .high, .ctrl .WR .low, .ctrl .CS .low, .delay 0, .ctrl .RD .low,
      .delay 0] ++ R .hD [0x43#8, 0x12#8] 0x54#8 ++ [.ctrl .RD .high], some (.okByte 0x54#8)),
      ⟨.high, .low, .low⟩, .idle) := by decide

/-- BC3: the data read fails; RD stays asserted, the phase is Idle. -/
theorem test_readByte_BC3 :
    nextOf (fun t => (t.result, t.ctrl, t.phase))
      (exec (.readByte 0x0134#16) (busSession [.byEnv, .byEnv, .byEnv, .byEnv, .fail])) =
    some (some (.fail .txRxFail), ⟨.low, .low, .low⟩, .idle) := by decide

/-- BC5: the cartridge records the write; 8 transactions. -/
theorem test_writeByte_BC5 :
    nextOf (fun t => (t.result, t.ctrl, transactions t.trace, t.env.model))
      (exec (.writeByte 0x2000#16 0x01#8) (session .fail [] (idealModel [] [] rom))) =
    some (some .ok, ⟨.high, .low, .low⟩, 8,
      .ideal ⟨regsWith [(0x15#8, 0x20#8)], regsWith [(0x14#8, 0x01#8)], rom, [(0x2000#16, 0x01#8)]⟩) := by decide

/-- BC12: hD not initialized; RD stays asserted behind the address set. -/
theorem test_readByte_BC12 :
    nextOf (fun t => (t.result, t.ctrl, transactions t.trace, t.trace.getLast?))
      (exec (.readByte 0x0000#16) { busSession [] with hD := { ready 1#3 1 with init := false } }) =
    some (some (.fail .notInitialized), ⟨.low, .low, .low⟩, 4, some (.delay 0)) := by decide

/-- BC13: hD not initialized; no WR pulse. -/
theorem test_writeByte_BC13 :
    nextOf (fun t => (t.result, t.ctrl, transactions t.trace))
      (exec (.writeByte 0x0000#16 0x55#8)
        { busSession [] with hD := { ready 1#3 1 with init := false } }) =
    some (some (.fail .notInitialized), ⟨.high, .low, .low⟩, 4) := by decide

/-- BC7: the addresses wrap. -/
theorem test_readBytes_BC7 :
    nextOf (fun t => (t.result, t.buf)) (exec (.readBytes 0xFFFF#16 3 .present) (busSession [])) =
    some (some .ok, [(0, 0xAA#8), (1, 0x31#8), (2, 0x32#8)]) := by decide

/-- P4, shortened: the second byte's data read fails (the 10th transport call); the first byte is kept. -/
theorem test_readBytes_P4 :
    nextOf (fun t => (t.result, t.buf.read 0, t.ctrl.rd))
      (exec (.readBytes 0xFFFF#16 2 .present) (busSession (List.replicate 9 .byEnv ++ [.fail]))) =
    some (some (.fail .txRxFail), 0xAA#8, .low) := by decide

/-! ### The header parser -/

/-- A header with bytes from 0x134 on; the rest 0x00. -/
def headerFrom134 (bs : List Byte) : List Byte := List.replicate 0x134 0#8 ++ bs

/-- "TETRIS". -/
def tetris : List Byte := [0x54#8, 0x45#8, 0x54#8, 0x52#8, 0x49#8, 0x53#8]

/-- TI1. -/
theorem test_title_TI1 : titleExtract 17 (headerFrom134 tetris) = tetris ++ List.replicate 11 0#8 := by decide
/-- TI3: 0x01 ends the scan. -/
theorem test_title_TI3 : titleExtract 17 (headerFrom134 [0x41#8, 0x42#8, 0x01#8, 0x43#8, 0x44#8]) =
    [0x41#8, 0x42#8] ++ List.replicate 15 0#8 := by decide
/-- TI4: sixteen letters and the terminator. -/
theorem test_title_TI4 : titleExtract 17 (headerFrom134 ((List.range 17).map fun i => BitVec.ofNat 8 (0x41 + i))) =
    ((List.range 16).map fun i => BitVec.ofNat 8 (0x41 + i)) ++ [0#8] := by decide
/-- TI6: all seven symbols, `-`, `.`, `_` and space are copied. -/
theorem test_title_TI6 : titleScan [0x23#8, 0x24#8, 0x25#8, 0x26#8, 0x27#8, 0x28#8, 0x29#8, 0x2D#8, 0x2E#8, 0x5F#8, 0x20#8]
    = [0x23#8, 0x24#8, 0x25#8, 0x26#8, 0x27#8, 0x28#8, 0x29#8, 0x2D#8, 0x2E#8, 0x5F#8, 0x20#8] := by decide
/-- TI9: a colon is stored as an underscore. -/
theorem test_title_TI9 : titleScan [0x3A#8, 0x41#8] = [0x5F#8, 0x41#8] := by decide
/-- TI7, TI8, TI11, TI13: the terminating values named there. -/
theorem test_title_terminators :
    [0x21#8, 0x2F#8, 0x40#8, 0x5B#8, 0x7B#8, 0x60#8, 0x80#8, 0x2A#8, 0x2B#8, 0x2C#8].map titleChar =
    List.replicate 10 none := by decide
/-- BA1 and BA2: adjacent codes 0x02 and 0x1A have no battery. -/
theorem test_battery_BA : [0x03#8, 0xFF#8, 0x02#8, 0x1A#8].map hasBattery = [true, true, false, false] := by decide
/-- RS2: code 16. -/
theorem test_romSize_RS2 : romBanks (romSize 16#8 0#32) = 65536#32 ∧ romSize 16#8 0#32 = 0x80000000#32 := by decide
/-- L1-3. -/
theorem test_ramSize_L1_3 : [0#8, 1#8, 2#8, 3#8, 4#8, 0xFF#8].map (fun c => (ramSize c, ramBanks (ramSize c))) =
    [(0#32, 0#32), (2048#32, 0#32), (8192#32, 1#32), (32768#32, 4#32), (0#32, 0#32), (0#32, 0#32)] := by decide
/-- CK3: all 0xFF. -/
theorem test_checksum_CK3 : checksum (headerFrom134 (List.replicate 40 0xFF#8)) = 0xE7#8 := by decide
/-- CK6. -/
theorem test_checksum_CK6 :
    checksum (headerFrom134 (tetris ++ List.replicate 13 0#8 ++ [0x13#8, 0x02#8, 0x03#8])) = 0xF3#8 := by decide

/-- RI1. -/
theorem test_readInfo_RI1 :
    nextOf seen (exec (.readInfo .absent) (busSession [])) = some ([], some (.fail .argAbsent)) := by decide

/-- RI2: the 5th transaction of byte 0x0000 fails; the diagnostic follows, the record is as before. -/
theorem test_readInfo_RI2 :
    nextOf (fun t => (t.result, t.trace.getLast?, transactions t.trace, t.info))
      (exec (.readInfo .present) (busSession [.byEnv, .byEnv, .byEnv, .byEnv, .fail])) =
    some (some (.fail .txRxFail), some (.diag (.headerReadFailed .txRxFail)), 5, CartInfo.blank 17) := by decide

/-! ### Boundaries of the statements with several clauses -/

/-- R110: the ends of every copied range and the values beside them. -/
theorem test_titleChar_boundaries :
    [0x1F#8, 0x20#8, 0x22#8, 0x23#8, 0x29#8, 0x2F#8, 0x30#8, 0x39#8, 0x3A#8, 0x3B#8, 0x40#8, 0x41#8, 0x5A#8, 0x61#8,
      0x7A#8].map titleChar =
    [none, some 0x20#8, none, some 0x23#8, some 0x29#8, none, some 0x30#8, some 0x39#8, some 0x5F#8, none, none,
      some 0x41#8, some 0x5A#8, some 0x61#8, some 0x7A#8] := by decide
/-- R116: the first code of the free range takes the free value, and the banks follow from it. -/
theorem test_romSize_17 : romSize 17#8 0x12345#32 = 0x12345#32 ∧ romBanks (romSize 17#8 0x12345#32) = 2#32 := by decide
/-- R79: the eight register indices. -/
theorem test_regIndex :
    [(RegKind.iodir, Port.A), (.iodir, .B), (.gppu, .A), (.gppu, .B), (.gpio, .A), (.gpio, .B), (.olat, .A),
      (.olat, .B)].map (fun x => regIndex x.1 x.2) =
    [0x00#8, 0x01#8, 0x0C#8, 0x0D#8, 0x12#8, 0x13#8, 0x14#8, 0x15#8] := by decide

/-! ### Witnesses: the hypotheses of each statement can be met together -/

/-- Both handles initialized as a trace of two INITs leaves them, one WRITE_BYTE pending, the rest as `busSession`. -/
def running : State :=
  { busSession [] with
    trace := [.csConfig .hA .outputHigh, .csConfig .hD .outputHigh]
    calls := [requestOf (.writeByte 0x2000#16 0x01#8)] }

/-- What the statements about one operation on an initialized handle, or on an uninitialized one, assume. -/
theorem witness_operation_premises :
    (busSession []).busy = false ∧ (busSession []).hA.init = true ∧ (busSession []).hD.init = true ∧
      (fresh [] .free).busy = false ∧ (fresh [] .free).hA.init = false ∧ (fresh [] .free).hD.init = false ∧
      (fresh [] .free).phase = .idle := by decide

/-- The transfers' statements assume `Direct` lines, a canonical buffer and a length that fits, 0 and the greatest. -/
theorem witness_transfer_premises :
    (busSession []).params.ctrlMap = .direct ∧ Memory.wf (busSession []).buf ∧ (busSession []).ctrl.wr ≠ .high ∧
      0 < 2 ^ (busSession []).params.lenWidth ∧ 2 ^ 32 - 1 < 2 ^ (busSession []).params.lenWidth ∧
      getReg22 (regsWith [(0x00#8, 0xFF#8)]) (regIndex .iodir (busSession []).params.dataPort) = 0xFF#8 := by decide

/-- The statements about the ideal environment assume it, with nothing fixed in advance. -/
theorem witness_ideal_premises :
    (busSession []).env = ⟨[], .ideal ⟨zeros, regsWith [(0x00#8, 0xFF#8)], rom, []⟩⟩ ∧
      (fresh [] (idealModel [] [] rom)).env = ⟨[], .ideal ⟨zeros, zeros, rom, []⟩⟩ ∧
      (fresh [] (idealModel [] [] rom)).params = Params.standard .fail .direct := by decide

theorem witness_DecodeOfEncodeIsTheInstruction :
    WellFormed (.writePin .hD 7#8 .B 1#8) ∧ WellFormed (.init .hA 7#8 .present .absent) ∧
      WellFormed (.readBytes 0xFFFF#16 (2 ^ 65) .present) := by decide

theorem witness_DecodedBytesAreTheEncoding :
    decode .wire [0x4F#8, 0x13#8, 1#8, 0xAA#8] = .ok (.rdFrame .hD 7#3 0x13#8, [0xAA#8]) := by decide

/-- Each clause at the ends of its range: selectors, first bytes of the wire, and operand bytes 8 and 2. -/
theorem witness_UnknownSelectorsAreRefused :
    (∀ b ∈ [0x00#8, 0x0F#8, 0x40#8, 0x4F#8, 0xFF#8], b.toNat = 0 ∨ 0x0E < b.toNat) ∧
      (∀ b ∈ [0x00#8, 0x3F#8, 0x50#8, 0xFF#8], (b : Byte).extractLsb' 4 4 ≠ 0b0100#4) ∧
      ({ running with calls := [⟨.caller, [0x0F#8]⟩, ⟨.wire, [0x3F#8]⟩] } : State).calls =
        [⟨.caller, [0x0F#8]⟩, ⟨.wire, [0x3F#8]⟩] ∧
      7 < (8#8 : Byte).toNat ∧ 1 < (2#8 : Byte).toNat := by decide

theorem witness_StepRunsTheDecodedCall :
    running.calls = requestOf (.writeByte 0x2000#16 0x01#8) :: [] ∧
      decode .caller (encode (.writeByte 0x2000#16 0x01#8)) = .ok (.writeByte 0x2000#16 0x01#8, []) ∧
      (busSession []).calls = [] := by decide

theorem witness_OperationsRunExactlyWhenNotRefused :
    refusedWith (exec (.destroy .hA) { running with busy := true }) = some .overlappingCall ∧
      refusedWith (exec (.readPin .hA 8#8 .A) running) = some .pinAbove7 ∧
      refusedWith (exec (.readBytes 0#16 (2 ^ 32) .present) running) = some .lengthTooWide ∧
      (nextOf (fun t => t.busy) (exec (.readPin .hA 7#8 .A) running)).isSome = true := by decide

theorem witness_InitConfiguresVerifiesAndClearsTheCache :
    (7#8 : Byte).toNat < 8 ∧ (State.handle (fresh [] .free) .hA).init = false ∧
      lastWritten (initWrites (fresh [] .free).params) (fresh [] .free).params.verifyReg = some 0x00#8 := by decide

/-- RG14: the read-back differs, `VerifyMismatch`, and the handle is not initialized. -/
theorem test_init_mismatch :
    nextOf (fun t => (t.result, t.hA.init)) (exec (.init .hA 7#8 .present .present)
      (fresh [.ok 0#8, .ok 0#8, .ok 0#8, .ok 0#8, .ok 0#8, .ok 0xFF#8] .free)) =
    some (some (.fail .verifyMismatch), false) := by decide

theorem witness_WritePinReadsModifiesWritesAndVerifies :
    (7 : Nat) < 8 ∧ (7#8 : Byte).toNat < 8 ∧ (1#8 : Byte).toNat < 2 ∧
      (State.handle (busSession []) .hD).init = true := by decide

/-- RD on pin 2 of port B of `hD`; the other lines `Direct`. -/
def pinSession (script : List Reply) : State :=
  { busSession script with params := Params.standard .fail ⟨.expPin .hD .B 2#3, .direct, .direct⟩ }

theorem witness_LinesFollowTheirEventsWhereverTheyAreDriven :
    Quiet (pinSession []) ∧ 2 ^ 32 - 1 < 2 ^ (pinSession []).params.lenWidth ∧ Memory.wf (pinSession []).buf :=
  ⟨⟨rfl, rfl⟩, by decide, by decide⟩

/-- R100: RD on pin 2 of port B of `hD` is driven by writes of that latch bit, 1 for high and 0 for low; R146: the address
set and the strobes of a `READ_BYTE` leave the latch as the last of them wrote it. -/
theorem test_readByte_by_pin :
    nextOf (fun t => (t.result, t.ctrl, t.trace.filter fun e => isCtrl e || e matches .tx .hD _ _,
        getReg22 t.hD.cache 0x15#8)) (exec (.readByte 0x0134#16) (pinSession [])) =
    some (some (.okByte 0x54#8), ⟨.high, .low, .low⟩, [.ctrl .RD .high, .tx .hD [0x42#8, 0x15#8, 0x04#8] true,
      .ctrl .WR .low, .ctrl .CS .low, .ctrl .RD .low, .tx .hD [0x42#8, 0x15#8, 0x00#8] true, .ctrl .RD .high,
      .tx .hD [0x42#8, 0x15#8, 0x04#8] true], 0x04#8) := by decide

/-- R100: a failed pin write leaves its line `Unknown` and ends the transfer; one that fails before any line leaves the
lines. -/
theorem test_readByte_by_pin_fails :
    nextOf (fun t => (t.result, t.ctrl, t.trace.filter isCtrl))
        (exec (.readByte 0x0134#16) { pinSession [.byEnv, .byEnv, .byEnv, .byEnv, .fail] with ctrl := ⟨.high, .low, .low⟩ }) =
      some (some (.fail .txRxFail), ⟨.unknown, .low, .low⟩, [.ctrl .RD .high]) ∧
    nextOf (fun t => (t.result, t.ctrl)) (exec (.readByte 0x0134#16)
        { pinSession [.fail] with ctrl := ⟨.high, .low, .low⟩ }) =
      some (some (.fail .txFail), ⟨.high, .low, .low⟩) := by decide

theorem witness_BusOperationsNeverChangeDirectionOrPullup :
    isBusOperation (.writeByte 0x2000#16 1#8) = true ∧
      ∃ t, exec (.writeByte 0x2000#16 1#8) (busSession []) = .next t := ⟨rfl, _, rfl⟩

theorem witness_TransactionCountsOfTheTransfers_byte :
    nextOf (fun t => t.result) (exec (.readByte 0#16) (busSession [])) = some (some (.okByte 0x31#8)) ∧
      nextOf (fun t => t.result) (exec (.writeByte 0#16 1#8) (busSession [])) = some (some .ok) ∧
      nextOf (fun t => t.result) (exec (.readBytes 0#16 1 .present) (busSession [])) = some (some .ok) := by decide

theorem witness_TransactionCountsOfTheTransfers_info :
    ∃ t, exec (.readInfo .present) (busSession []) = .next t ∧ t.result = some .ok := by
  obtain ⟨t, h, -⟩ := ideal_infoRead (s := { busSession [] with busy := true })
    (e := ⟨zeros, regsWith [(0x00#8, 0xFF#8)], rom, []⟩) rfl rfl rfl rfl (by decide)
  exact ⟨_, exec_next rfl rfl, by rw [finish_result, bodyOf, if_neg (by decide), bind_ok h]; rfl⟩

theorem witness_TitleStopsAtTheFirstTerminatingByte : 17 ≤ 17 ∧ (16 : Nat) < 17 ∧ (0 : Nat) < 17 := by decide

theorem witness_RomSizeOfTheCodes : (16#8 : Byte).toNat ≤ 16 ∧ 16 < (17#8 : Byte).toNat := by decide

/-- Two headers that differ below 0x134 only. -/
theorem witness_ChecksumSumsExactlyItsRange :
    headerByte [] 0 ≠ headerByte [1#8] 0 ∧ ∀ o, 0x134 ≤ o → o ≤ 0x14C → headerByte [] o = headerByte [1#8] o := by
  refine ⟨by decide, fun o h _ => ?_⟩
  obtain ⟨k, rfl⟩ := Nat.exists_eq_add_of_le' (Nat.lt_of_lt_of_le (by decide : 0 < 0x134) h)
  simp [headerByte]

theorem witness_UninitializedHandlesFailWithoutAnEvent :
    (fresh [] .free).busy = false ∧ (State.handle (fresh [] .free) .hA).init = false ∧ (7#8 : Byte).toNat < 8 ∧
      (1#8 : Byte).toNat < 2 ∧ (fresh [] .free).phase = .idle ∧ Memory.wf (fresh [] .free).buf ∧
      0 < 2 ^ 32 - 1 ∧ 2 ^ 32 - 1 < 2 ^ (fresh [] .free).params.lenWidth := by decide

/-- The transfers that reach the uninitialized `hD`, behind an address set that succeeds and one that does not. -/
theorem witness_UninitializedHandlesFailWithoutAnEvent_behind_the_address_set :
    let s := fun script => { busSession script with hD := { ready 1#3 1 with init := false } }
    (∀ script, Quiet (s script) ∧ (s script).params.ctrlMap = .direct ∧ (s script).hA.init = true ∧
      (s script).hD.init = false) ∧
      nextOf (fun t => t.result) (exec (.readByte 0#16) (s [.fail])) = some (some (.fail .txFail)) :=
  ⟨fun _ => ⟨⟨rfl, rfl⟩, rfl, rfl, rfl⟩, by decide⟩

theorem witness_AbsentArgumentsTouchNothing :
    (fresh [] .free).busy = false ∧ 2 ^ 32 - 1 < 2 ^ (fresh [] .free).params.lenWidth ∧
      Runs (fresh [] .free) (.init .hA 7#8 .absent .present) :=
  ⟨rfl, by decide, by decide, rfl, 0#8, by decide⟩

/-- A run in which a transport call does fail. -/
theorem witness_NoTransportCallFollowsAFailedOne :
    (busSession [.fail]).params.verifyReadFail = .fail ∧
      nextOf (fun t => t.trace.any isFailedTransport) (exec (.readByte 0#16) (busSession [.fail])) = some true := by
  decide

theorem running_step : ∃ t, step running = .next t := ⟨_, rfl⟩

theorem witness_StepKeepsTheTransactionDiscipline : Disciplined running.trace ∧ ∃ t, step running = .next t :=
  ⟨by decide, running_step⟩
theorem witness_StepKeepsEveryFrameWellFormed :
    running.trace.all frameFormed = true ∧ ∃ t, step running = .next t := ⟨by decide, running_step⟩
theorem witness_StepNeverActivatesTheCartridgeChipSelect :
    (running.trace.all csInactive = true ∧ running.ctrl.cs ≠ .high) ∧ ∃ t, step running = .next t :=
  ⟨by decide, running_step⟩
theorem witness_StepLeavesEveryChipDeselected :
    (∀ h, (running.handle h).cslvl ≠ .low) ∧ ∃ t, step running = .next t :=
  ⟨fun h => by cases h <;> decide, running_step⟩
theorem witness_AtMostOneChipSelectIsLow :
    Disciplined running.trace ∧ ∃ t, step running = .next t ∧ [.csConfig .hA .outputHigh] <+: t.trace :=
  ⟨by decide, _, rfl, by decide⟩
theorem witness_StepKeepsInitializedHandlesReady :
    (∀ h, HandleReady (running.handle h)) ∧ ∃ t, step running = .next t :=
  ⟨fun h => by cases h <;> exact fun _ => ⟨rfl, rfl, rfl, rfl⟩, running_step⟩
theorem witness_StepKeepsMemoriesCanonical : MemoriesCanonical running ∧ ∃ t, step running = .next t :=
  ⟨⟨by decide, by show Memory.wf rom; decide⟩, running_step⟩
theorem witness_StepEndsIdle : Quiet running ∧ ∃ t, step running = .next t := ⟨⟨rfl, rfl⟩, running_step⟩
theorem witness_StepKeepsChipSelectsInStepWithTheTrace :
    ChipSelectsFollowTrace running ∧ ∃ t, step running = .next t :=
  ⟨fun h => by cases h <;> exact ⟨rfl, rfl, rfl⟩, running_step⟩
theorem witness_StepReleasesTheWriteStrobe :
    (running.params.ctrlMap.wr = .direct ∧ running.ctrl.wr ≠ .high) ∧ ∃ t, step running = .next t :=
  ⟨by decide, running_step⟩

theorem witness_CacheIsTheReplayOfSuccessfulWrites :
    ∃ t, exec (.writeReg .hD 0x14#8 0x5A#8) (busSession []) = .next t ∧ t.hD.cache ≠ (busSession []).hD.cache :=
  ⟨_, rfl, by decide⟩

theorem witness_OnlyInitAndDestroyChangeTheInitializedFlag :
    nextOf (fun t => (t.hA.init, t.hA.chipAddr)) (exec (.init .hA 5#8 .present .present) (fresh [] (idealModel [] [] []))) =
        some (true, 5#3) ∧
      nextOf (fun t => t.hA.init) (exec (.destroy .hA) (busSession [])) = some false := by decide

theorem witness_IdealStoreThenLoadReturnsTheValue :
    (0x15#8 : Byte).toNat < 22 ∧ (0x15#8 : Byte) ≠ regIndex .gpio .A ∧ (0x15#8 : Byte) ≠ regIndex .gpio .B ∧
      (nextOf (fun t => t.busy) (exec (.writeReg .hD 0x15#8 0x5A#8) (busSession []))).isSome = true := by decide

end Sys2Proof.Tests
end

section
/-!
PROOF. The transaction discipline of the trace (20_memory.md R61, R68; 40_register_driver.md R85): whole transactions and
the single events between them are disciplined, and so is one disciplined list behind another. So an operation appends a
disciplined list, and the trace stays disciplined.
-/

namespace Sys2Proof.Machine

theorem disciplined_append {x y : List Event} (hx : Disciplined x) (hy : Disciplined y) : Disciplined (x ++ y) := by
  rw [Disciplined, busRun_append, hx]
  exact hy

/-- A write transaction selects, addresses and deselects the one handle `h`, whatever the chip's answer. -/
theorem disciplined_wEvents (h : Handle) (bytes : List Byte) (ok : Bool) : Disciplined (wEvents h bytes ok) := by
  simp [Disciplined, wEvents, busRun, busStep]

theorem disciplined_rEvents (h : Handle) (bytes : List Byte) (answer : Option Byte) :
    Disciplined (rEvents h bytes answer) := by
  simp [Disciplined, rEvents, busRun, busStep]

/-- The events of every operation are made of disciplined pieces. -/
theorem disciplined_traceProp : TraceProp Disciplined where
  nil := rfl
  append := disciplined_append
  w h a r v ok := disciplined_wEvents h (frameW a r v) ok
  r h a r answer := disciplined_rEvents h (frameR a r) answer
  ctrl _ _ _ := rfl
  delay _ := rfl
  diag _ := rfl
  config _ _ := rfl

/-- What a step appends to the trace is itself a sequence of whole transactions. -/
theorem step_appends_disciplined {s t : State} (e : step s = .next t) : Appends Disciplined s t :=
  disciplined_traceProp.step e

/-- Settles O38: a step appends a disciplined list of events to the disciplined trace. -/
theorem stepKeepsTheTransactionDiscipline : Obligations.StepKeepsTheTransactionDiscipline := by
  intro s t hs e
  obtain ⟨evs, ht, hevs⟩ := step_appends_disciplined e
  rw [ht]
  exact disciplined_append hs hevs

end Sys2Proof.Machine
end

section
/-!
PROOF. The opcode bytes (30_encoding.md R75, R76): the fixed bits 0b0100, the chip address and the RW bit lie side by side,
so the byte's number is the sum of theirs.
-/

namespace Sys2Proof

/-- The chip address stands in bits 3:1, so it counts twice its number. -/
theorem chipField_toNat (a : ChipAddr) : (a.setWidth 8 <<< 1).toNat = 2 * a.toNat := by
  have := a.isLt
  simp only [BitVec.toNat_shiftLeft, BitVec.toNat_setWidth, Nat.shiftLeft_eq]
  omega

/-- The bits 0b0100 lie above the chip field, so putting them together is adding. -/
theorem opW_toNat (a : ChipAddr) : (opW a).toNat = 0x40 + 2 * a.toNat := by
  have hlow : 2 * a.toNat < 2 ^ 6 := by have := a.isLt; omega
  rw [opW, BitVec.toNat_or, chipField_toNat]
  exact (Nat.two_pow_add_eq_or_of_lt hlow 1).symm

/-- The RW bit lies below the chip field. -/
theorem opR_toNat (a : ChipAddr) : (opR a).toNat = 0x41 + 2 * a.toNat := by
  have hlow : 2 * a.toNat + 1 < 2 ^ 6 := by have := a.isLt; omega
  have hbit : 2 * a.toNat ||| 1 = 2 * a.toNat + 1 := (Nat.two_pow_add_eq_or_of_lt (i := 1) (by decide) a.toNat).symm
  calc (opR a).toNat
      = (0x40 ||| 1) ||| 2 * a.toNat := by rw [opR, BitVec.toNat_or, chipField_toNat]; rfl
    _ = 0x40 ||| (2 * a.toNat + 1) := by rw [Nat.or_assoc, Nat.or_comm 1, hbit]
    _ = 0x40 + (2 * a.toNat + 1) := (Nat.two_pow_add_eq_or_of_lt hlow 1).symm
    _ = 0x41 + 2 * a.toNat := by omega

/-- Settles O1: the numbers of both opcode bytes, and that their fields read back. -/
theorem opcodeBytesOfEveryChipAddress : Obligations.OpcodeBytesOfEveryChipAddress := by
  intro a
  obtain ⟨hframeW, hchipW, hreadW⟩ := opW_fields a
  obtain ⟨hframeR, hchipR, hreadR⟩ := opR_fields a
  exact ⟨opW_toNat a, opR_toNat a, rfl, rfl, hframeW, hframeR, hchipW, hchipR, hreadW, hreadR⟩

end Sys2Proof
end

section
/-!
PROOF. READ_REG and DESTROY (40_register_driver.md R88, R90). READ_REG is the shared register read and, where it succeeds,
one more change, of the caller's cell, which is no part of the frame; DESTROY is one change of its handle and the trace.
-/

namespace Sys2Proof.Machine

variable {h : Handle} {i b : Byte} {s t : State} {c : Cause} {p : Params}

/-! ### READ_REG -/

/-- The caller's cell is no part of what an access to a handle has to leave alone. -/
theorem handleFrame_setOut (f : HandleFrame h s t) (b : Byte) : HandleFrame h s { t with out := b } := by
  simpa [HandleFrame, LinesKept, SessionKept] using f

/-- The body of a read that succeeds ends with the byte in the caller's cell. -/
theorem readRegBody_ok (e : readRegister h i s = .ok b t) :
    bodyOf p (.readReg h i .present) s = .ok (.okByte b) { t with out := b } :=
  bind_ok e

/-- The body of a read that fails ends where the read does, before the cell is written. -/
theorem readRegBody_error (e : readRegister h i s = .error c t) :
    bodyOf p (.readReg h i .present) s = .error c t :=
  bind_error e

/-- The chip's answer decides how a read on an initialized handle ends. -/
theorem readRegister_answered (hi : (s.handle h).init = true)
    (ha : rxAnswer h (frameR (s.handle h).chipAddr i) (s.select h) = some b) : ∃ t, readRegister h i s = .ok b t :=
  ⟨_, by rw [readRegister_apply hi, ha]⟩

theorem readRegister_unanswered (hi : (s.handle h).init = true)
    (ha : rxAnswer h (frameR (s.handle h).chipAddr i) (s.select h) = none) :
    ∃ t, readRegister h i s = .error .txRxFail t :=
  ⟨_, by rw [readRegister_apply hi, ha]⟩

/-- A `Fail` that comes before any event is all that such a READ_REG leaves. -/
theorem exec_readReg_unchanged {out : Presence} (hb : s.busy = false)
    (e : bodyOf s.params (.readReg h i out) { s with busy := true } = .error c { s with busy := true }) :
    exec (.readReg h i out) s = .next { s with result := some (.fail c) } := by
  rw [exec_next hb rfl, e, finish_error_unchanged hb]

/-- Settles O13: the two early failures leave only their result; behind them the read's transaction is answered with a
byte, which goes into the cell, or not, and then the cell stays. -/
theorem readRegReceivesOneByteIntoTheCallersCell : Obligations.ReadRegReceivesOneByteIntoTheCallersCell := by
  intro h i s hb
  refine ⟨fun _ => rfl, exec_readReg_unchanged hb rfl, fun hi => ?uninitialized, fun hi => ?initialized⟩
  case uninitialized =>
    exact exec_readReg_unchanged hb (readRegBody_error (readRegister_uninitialized (by simpa using hi) i))
  case initialized =>
    have hi' : (State.handle { s with busy := true } h).init = true := by simpa using hi
    refine ⟨_, _, exec_next hb rfl, rfl, ?_⟩
    cases ha : rxAnswer h [opR (s.handle h).chipAddr, i] (atFirstCall h s) with
    | some b =>
      obtain ⟨t, e⟩ := readRegister_answered hi' (i := i) (by simpa [frameR, atFirstCall] using ha)
      obtain ⟨-, only, htrace, hlvl, hcache⟩ := readRegister_ok e
      obtain ⟨-, hbuf, hinfo⟩ := only.callerData (r := .ok (.okByte b) t)
      have hframe : HandleFrame h s (finish (.ok (.okByte b) t)) := only.handleFrame hlvl
      rw [readRegBody_ok e]
      exact ⟨by simpa [frameR] using htrace, rfl, rfl, by simpa using hcache, handleFrame_setOut hframe b, hbuf, hinfo⟩
    | none =>
      obtain ⟨t, e⟩ := readRegister_unanswered hi' (i := i) (by simpa [frameR, atFirstCall] using ha)
      rcases readRegister_error e with ⟨hu, -⟩ | ⟨-, -, only, htrace, hlvl, hcache⟩
      · rw [hi'] at hu
        cases hu
      · obtain ⟨hout, hbuf, hinfo⟩ := only.callerData (r := .error .txRxFail t)
        rw [readRegBody_error e]
        exact ⟨by simpa [frameR] using htrace, rfl, hout, by simpa using hcache, only.handleFrame hlvl, hbuf, hinfo⟩

/-! ### DESTROY -/

/-- DESTROY has no refusal of its own and no call that may fail. -/
theorem exec_destroy (hb : s.busy = false) :
    exec (.destroy h) s = .next (finish (.ok .noResult (destroyHandle h { s with busy := true }))) :=
  exec_next hb rfl

/-- Settles O15: the change `destroyHandle` makes is the whole operation. -/
theorem destroyReleasesTheLineAndClearsTheHandle : Obligations.DestroyReleasesTheLineAndClearsTheHandle := by
  intro h s hb
  refine ⟨_, exec_destroy hb, rfl, ?trace, rfl, ?handle, ?other, ?lines, ?session, ?callerData, ?env, ?draws⟩
  case trace => simp
  case handle => simp [clearedCache]
  case other => simp
  case lines => simp [LinesKept]
  case session => simp [SessionKept]
  case callerData => simp [CallerDataKept]
  case env => simp
  case draws => simp

end Sys2Proof.Machine
end

section
/-!
PROOF. The port and pin layer's mode and its reads (41_port_pin.md R93, R96 to R98). SET_PORT_MODE is two register writes, the
second behind the first; READ_PIN, READ_PORT and IS_CONNECTED are one format-R transaction each and differ only in the result
they make of its answer.
-/

namespace Sys2Proof.Machine

variable {h : Handle} {p : Port} {m : PortMode} {i : Instr} {s t : State} {c : Cause} {bytes : List Byte}
  {r : EStateM.Result Cause State OpResult}

/-! ### Operations on an uninitialized handle -/

/-- An operation whose body touches nothing leaves its result alone behind. -/
theorem exec_unchanged (hb : s.busy = false) (hr : refusalOf s i = none)
    (e : bodyOf s.params i { s with busy := true } = r) (ha : after r = { s with busy := true }) :
    exec i s = .next { s with result := some (resultOf r) } := by
  rw [exec_next hb hr, e]
  cases r <;> cases ha <;> simp [finish, ← hb]

/-! ### SET_PORT_MODE -/

theorem setMode_uninitialized (hi : (s.handle h).init = false) : setMode h p m s = .error .notInitialized s :=
  bind_error (writeRegister_uninitialized hi _ _)

/-- A mode setting that succeeds: both registers are written and cached. -/
theorem setMode_ok {u : Unit} (e : setMode h p m s = .ok u t) :
    OnlyHandle h s t ∧ (t.handle h).cslvl = .high ∧
      (t.handle h).cache = setReg22 (setReg22 (s.handle h).cache (regIndex .iodir p) (modeDirection m))
        (regIndex .gppu p) (modePullup m) ∧
      t.trace = s.trace ++ wEvents h (frameW (s.handle h).chipAddr (regIndex .iodir p) (modeDirection m)) true ++
        wEvents h (frameW (s.handle h).chipAddr (regIndex .gppu p) (modePullup m)) true := by
  obtain ⟨_, w, hdirection, hpullup⟩ := bind_eq_ok e
  obtain ⟨-, o, ht, -, hk⟩ := writeRegister_ok hdirection
  obtain ⟨-, o', ht', hl', hk'⟩ := writeRegister_ok hpullup
  exact ⟨o.trans o', hl', by rw [hk', hk], by rw [ht', ht, o.chipAddr]⟩

/-- A mode setting that fails on an initialized handle: at the direction write, which is then all that was sent, or at the
pull-up write, behind a direction that stays. -/
theorem setMode_error (hi : (s.handle h).init = true) (e : setMode h p m s = .error c t) :
    c = .txFail ∧ OnlyHandle h s t ∧ (t.handle h).cslvl = .high ∧
      (((t.handle h).cache = (s.handle h).cache ∧
          t.trace = s.trace ++
            wEvents h (frameW (s.handle h).chipAddr (regIndex .iodir p) (modeDirection m)) false) ∨
       ((t.handle h).cache = setReg22 (s.handle h).cache (regIndex .iodir p) (modeDirection m) ∧
          t.trace = s.trace ++
            wEvents h (frameW (s.handle h).chipAddr (regIndex .iodir p) (modeDirection m)) true ++
            wEvents h (frameW (s.handle h).chipAddr (regIndex .gppu p) (modePullup m)) false)) := by
  rcases bind_eq_error e with hdirection | ⟨_, w, hdirection, hpullup⟩
  · rcases writeRegister_error hdirection with ⟨hu, -⟩ | ⟨-, hc, o, ht, hl, hk⟩
    · simp [hi] at hu
    · exact ⟨hc, o, hl, .inl ⟨hk, ht⟩⟩
  · obtain ⟨-, o, ht, -, hk⟩ := writeRegister_ok hdirection
    rcases writeRegister_error hpullup with ⟨hu, -⟩ | ⟨-, hc, o', ht', hl', hk'⟩
    · simp [o.init, hi] at hu
    · exact ⟨hc, o.trans o', hl', .inr ⟨hk'.trans hk, by rw [ht', ht, o.chipAddr]⟩⟩

/-- Settles O16: the mode setting succeeds, or fails at one of its two writes. -/
theorem setPortModeWritesDirectionThenPullup : Obligations.SetPortModeWritesDirectionThenPullup := by
  intro h p m s hb
  refine ⟨rfl, fun hi => ?uninitialized, fun hi => ⟨_, exec_next hb rfl, ?initialized⟩⟩
  case uninitialized =>
    exact exec_unchanged (r := .error .notInitialized _) hb rfl (bind_error (setMode_uninitialized (by simpa using hi))) rfl
  case initialized =>
    cases e : setMode h p m { s with busy := true } with
    | ok u t =>
      obtain ⟨only, hl, hk, ht⟩ := setMode_ok e
      have hbody : bodyOf s.params (.setPortMode h p m) { s with busy := true } = .ok .ok t := bind_ok e
      rw [hbody]
      exact ⟨only.handleFrame hl, only.callerData (r := .ok .ok t),
        .inr (.inr ⟨by simpa [frameW] using ht, rfl, by simpa using hk⟩)⟩
    | error c t =>
      obtain ⟨rfl, only, hl, hcut⟩ := setMode_error (by simpa using hi) e
      have hbody : bodyOf s.params (.setPortMode h p m) { s with busy := true } = .error .txFail t := bind_error e
      rw [hbody]
      refine ⟨only.handleFrame hl, only.callerData (r := .error .txFail t), ?_⟩
      rcases hcut with ⟨hk, ht⟩ | ⟨hk, ht⟩
      · exact .inl ⟨by simpa [frameW] using ht, rfl, by simpa using hk⟩
      · exact .inr (.inl ⟨by simpa [frameW] using ht, rfl, by simpa using hk⟩)

/-! ### Operations that are one register read -/

/-- What a caller operation leaves that ends behind one format-R transaction, whatever the answer. -/
theorem finish_afterR (ha : after r = State.afterR h bytes { s with busy := true }) :
    (finish r).trace = s.trace ++ rEvents h bytes (rxAnswer h bytes (atFirstCall h s)) ∧
      ((finish r).handle h).cache = (s.handle h).cache ∧ HandleFrame h s (finish r) ∧ CallerDataKept s (finish r) := by
  have only : OnlyHandle h { s with busy := true } (after r) := ha ▸ afterR_only ..
  exact ⟨by simp [ha, atFirstCall], by simp [ha], only.handleFrame (by simp [ha]), only.callerData⟩

/-- A register read whose byte goes into the result: the state is that behind its transaction. -/
theorem readThen_after (hi : (s.handle h).init = true) (j : Byte) (f : Byte → OpResult) :
    after ((readRegister h j >>= fun b => pure (f b)) s) = s.afterR h (frameR (s.handle h).chipAddr j) := by
  rw [bind_apply, readRegister_apply hi]
  cases rxAnswer h (frameR (s.handle h).chipAddr j) (s.select h) <;> rfl

/-- A register read whose byte goes into the result: the result is made of the answer. -/
theorem readThen_result (hi : (s.handle h).init = true) (j : Byte) (f : Byte → OpResult) :
    resultOf ((readRegister h j >>= fun b => pure (f b)) s) =
      (rxAnswer h (frameR (s.handle h).chipAddr j) (s.select h)).elim (.fail .txRxFail) f := by
  rw [bind_apply, readRegister_apply hi]
  cases rxAnswer h (frameR (s.handle h).chipAddr j) (s.select h) <;> rfl

/-- An operation that is one register read whose byte goes into the result, on an initialized handle. -/
theorem exec_readThen {j : Byte} {f : Byte → OpResult} (hb : s.busy = false) (hr : refusalOf s i = none)
    (hbody : bodyOf s.params i = readRegister h j >>= fun b => pure (f b)) (hi : (s.handle h).init = true) :
    ∃ t, exec i s = .next t ∧
      t.trace = s.trace ++ rEvents h [opR (s.handle h).chipAddr, j]
        (rxAnswer h [opR (s.handle h).chipAddr, j] (atFirstCall h s)) ∧
      t.result = some ((rxAnswer h [opR (s.handle h).chipAddr, j] (atFirstCall h s)).elim (.fail .txRxFail) f) ∧
      (t.handle h).cache = (s.handle h).cache ∧ HandleFrame h s t ∧ CallerDataKept s t := by
  have hi' : (State.handle { s with busy := true } h).init = true := by simpa using hi
  have hresult := readThen_result hi' j f
  rw [State.handle_with_busy] at hresult
  obtain ⟨htrace, hrest⟩ := finish_afterR (readThen_after hi' j f)
  rw [State.handle_with_busy] at htrace
  refine ⟨_, exec_next hb hr, ?_⟩
  rw [hbody]
  exact ⟨htrace, by rw [finish_result, hresult]; rfl, hrest⟩

/-- A pin in range is the number its three low bits spell. -/
theorem pinBit_setWidth {pin : Byte} (hp : pin.toNat < 8) (g : Byte) : pinBit g (pin.setWidth 3) = g.getLsbD pin.toNat := by
  rw [pinBit, BitVec.toNat_setWidth, Nat.mod_eq_of_lt hp]

/-- Settles O19: both operations are the read of the port's GPIO register and differ in the result made of its byte. -/
theorem pinAndPortReadsSampleTheGpioRegister : Obligations.PinAndPortReadsSampleTheGpioRegister := by
  intro h p pin s hb hpin
  have hr : refusalOf s (.readPin h pin p) = none := if_pos hpin
  refine ⟨rfl, rfl, fun hi => ?pinUninitialized, fun hi => ?portUninitialized, fun hi => ⟨?pin, ?port⟩⟩
  case pinUninitialized =>
    exact exec_unchanged (r := .error .notInitialized _) hb hr
      (bind_error (readRegister_uninitialized (by simpa using hi) _)) rfl
  case portUninitialized =>
    exact exec_unchanged (r := .error .notInitialized _) hb rfl
      (bind_error (readRegister_uninitialized (by simpa using hi) _)) rfl
  case pin =>
    obtain ⟨t, e, htrace, hresult, hrest⟩ := exec_readThen (f := fun g => .okBit (pinBit g (pin.setWidth 3))) hb hr rfl hi
    refine ⟨t, e, htrace, ?_, hrest⟩
    rw [hresult]
    cases rxAnswer h [opR (s.handle h).chipAddr, regIndex .gpio p] (atFirstCall h s) with
    | none => rfl
    | some g => exact congrArg (fun b => some (OpResult.okBit b)) (pinBit_setWidth hpin g)
  case port =>
    obtain ⟨t, e, htrace, hresult, hrest⟩ := exec_readThen (i := .readPort h p) (f := .okByte) hb rfl rfl hi
    refine ⟨t, e, htrace, ?_, hrest⟩
    rw [hresult]
    cases rxAnswer h [opR (s.handle h).chipAddr, regIndex .gpio p] (atFirstCall h s) <;> rfl

/-! ### IS_CONNECTED -/

theorem completes_readRegister_uninitialized (hi : (s.handle h).init = false) (j : Byte) :
    completes (readRegister h j) s = .ok false s := by
  rw [completes, readRegister_uninitialized hi]

/-- A read completes exactly when the environment answers a byte. -/
theorem completes_readRegister (hi : (s.handle h).init = true) (j : Byte) :
    completes (readRegister h j) s =
      .ok (rxAnswer h (frameR (s.handle h).chipAddr j) (s.select h)).isSome
        (s.afterR h (frameR (s.handle h).chipAddr j)) := by
  rw [completes, readRegister_apply hi]
  cases rxAnswer h (frameR (s.handle h).chipAddr j) (s.select h) <;> rfl

/-- The answer of IS_CONNECTED is whether the read of PROBE_REG completes. -/
theorem isConnectedBody {q : Params} {b : Bool} (e : completes (readRegister h s.params.probeReg) s = .ok b t) :
    bodyOf q (.isConnected h) s = .ok (.answer b) t := by
  rw [bodyOf, getParams_bind, bind_ok e, pure_apply]

/-- Settles O20: the operation ends behind the read of PROBE_REG, completed or not, and before any event where the handle is
uninitialized. -/
theorem isConnectedAnswersWhetherAReadCompletes : Obligations.IsConnectedAnswersWhetherAReadCompletes := by
  intro h s hb
  refine ⟨rfl, fun hi => ?uninitialized, fun hi => ⟨_, _, exec_next hb rfl, rfl, ?initialized⟩⟩
  case uninitialized =>
    exact exec_unchanged hb rfl (isConnectedBody (completes_readRegister_uninitialized (by simpa using hi) _)) rfl
  case initialized =>
    rw [isConnectedBody (completes_readRegister (by simpa using hi) _), State.handle_with_busy]
    obtain ⟨htrace, hrest⟩ := finish_afterR (s := s) (h := h) (r := .ok (.answer _) _) rfl
    exact ⟨htrace, rfl, hrest⟩

end Sys2Proof.Machine
end

section
/-!
PROOF. The title (43_header_parser.md R110, R111). The buffer holds the scanned characters and zeros behind them, so a position
of it is one of the scan; and the scan reaches a position exactly when no byte up to it terminates.
-/

namespace Sys2Proof.Machine

variable {b c : Byte} {bs : List Byte}

/-- The classes of R110 by the numbers of their bytes. -/
theorem copyClass_iff (b : Byte) : copyClass b = true ↔
    (0x30 ≤ b.toNat ∧ b.toNat ≤ 0x39) ∨ (0x41 ≤ b.toNat ∧ b.toNat ≤ 0x5A) ∨ (0x61 ≤ b.toNat ∧ b.toNat ≤ 0x7A) ∨
      (0x23 ≤ b.toNat ∧ b.toNat ≤ 0x29) ∨ b.toNat = 0x2D ∨ b.toNat = 0x2E ∨ b.toNat = 0x5F ∨ b.toNat = 0x20 := by
  simp [copyClass, BitVec.le_def, ← BitVec.toNat_inj, or_assoc]

theorem titleScan_cons_of_none (h : titleChar b = none) : titleScan (b :: bs) = [] := by rw [titleScan, h]

theorem titleScan_cons_of_some (h : titleChar b = some c) : titleScan (b :: bs) = c :: titleScan bs := by
  rw [titleScan, h]

/-- The scan reaches position `i` exactly when no byte up to it terminates. -/
theorem titleScan_getD (bs : List Byte) (i : Nat) : (titleScan bs).getD i 0#8 =
    if i < bs.length ∧ ∀ j, j ≤ i → (titleChar (bs.getD j 0#8)).isSome = true
    then (titleChar (bs.getD i 0#8)).getD 0#8 else 0#8 := by
  induction bs generalizing i with
  | nil => simp [titleScan]
  | cons b bs ih =>
    cases hb : titleChar b with
    | none =>
      have hstop : ¬ ∀ j, j ≤ i → (titleChar ((b :: bs).getD j 0#8)).isSome = true :=
        fun hall => by simpa [hb] using hall 0 (Nat.zero_le i)
      rw [titleScan_cons_of_none hb, if_neg fun h => hstop h.2, List.getD_nil]
    | some c =>
      rw [titleScan_cons_of_some hb]
      cases i with
      | zero => simp [hb]
      | succ i =>
        have hreach : (∀ j, j ≤ i + 1 → (titleChar ((b :: bs).getD j 0#8)).isSome = true) ↔
            ∀ j, j ≤ i → (titleChar (bs.getD j 0#8)).isSome = true := by
          rw [← Nat.and_forall_add_one]
          simp [hb]
        simp only [hreach, List.getD_cons_succ, List.length_cons, Nat.add_lt_add_iff_right, ih]

theorem titleField_length (H : List Byte) : (titleField H).length = 16 := by simp [titleField]

theorem titleField_getD (H : List Byte) {j : Nat} (hj : j < 16) : (titleField H).getD j 0#8 = headerByte H (0x134 + j) := by
  simp [titleField, hj]

theorem titleExtract_length (cap : Nat) (H : List Byte) : (titleExtract cap H).length = cap := by
  simp only [titleExtract, List.length_take, List.length_append, List.length_replicate]
  omega

/-- Behind the scanned characters stand zeros, as `getD` reads them behind the scan's end. -/
theorem titleExtract_getD (H : List Byte) {cap i : Nat} (hi : i < cap) :
    (titleExtract cap H).getD i 0#8 = (titleScan (titleField H)).getD i 0#8 := by
  simp only [titleExtract, List.getD_eq_getElem?_getD, List.getElem?_take_of_lt hi]
  rcases Nat.lt_or_ge i (titleScan (titleField H)).length with hin | hout
  · rw [List.getElem?_append_left hin]
  · rw [List.getElem?_append_right hout, List.getElem?_eq_none hout, List.getElem?_replicate]
    split <;> rfl

/-- Settles O28: the classes by their numbers, and every position by the scan of the title field. -/
theorem titleStopsAtTheFirstTerminatingByte : Obligations.TitleStopsAtTheFirstTerminatingByte := by
  refine ⟨fun b => ?classes, fun cap H _ => ⟨titleExtract_length cap H, fun i hi => ?position⟩⟩
  case classes => simp only [titleChar, copyClass_iff, ← BitVec.toNat_inj, BitVec.toNat_ofNat, Nat.reducePow, Nat.reduceMod]
  case position =>
    rw [titleExtract_getD H hi, titleScan_getD, titleField_length]
    by_cases h16 : i < 16
    · have hreach : (∀ j, j ≤ i → (titleChar ((titleField H).getD j 0#8)).isSome = true) ↔
          ∀ j, j ≤ i → (titleChar (headerByte H (0x134 + j))).isSome = true :=
        forall₂_congr fun j hj => by rw [titleField_getD H (Nat.lt_of_le_of_lt hj h16)]
      simp only [hreach, titleField_getD H h16]
    · rw [if_neg fun h => h16 h.1, if_neg fun h => h16 h.1]

end Sys2Proof.Machine
end

section
/-!
PROOF. The sizes, the flags and the type of a header (43_header_parser.md R112 to R117), by the numbers of their bytes.
-/

namespace Sys2Proof.Machine

/-! ### Sizes -/

/-- The largest size of the table, of code 16, still fits 32 bits. -/
theorem romSize_toNat {c : Byte} (hc : c.toNat ≤ 16) (free : Word32) : (romSize c free).toNat = 32768 * 2 ^ c.toNat := by
  have hfit : 32768 * 2 ^ c.toNat < 2 ^ 32 := by
    calc 32768 * 2 ^ c.toNat ≤ 32768 * 2 ^ 16 := Nat.mul_le_mul_left _ (Nat.pow_le_pow_right (by decide) hc)
      _ < 2 ^ 32 := by decide
  rw [romSize, if_pos hc, BitVec.toNat_shiftLeft, Nat.shiftLeft_eq]
  exact Nat.mod_eq_of_lt hfit

theorem romBanks_toNat (size : Word32) : (romBanks size).toNat = size.toNat / 32768 := BitVec.toNat_udiv

theorem ramBanks_toNat (size : Word32) : (ramBanks size).toNat = size.toNat / 8192 := BitVec.toNat_udiv

theorem ramSize_toNat (c : Byte) : (ramSize c).toNat =
    if c.toNat = 1 then 2048 else if c.toNat = 2 then 8192 else if c.toNat = 3 then 32768 else 0 := by
  simp only [ramSize, ← BitVec.toNat_inj, BitVec.toNat_ofNat, Nat.reducePow, Nat.reduceMod]
  split_ifs <;> rfl

/-- Settles O29: the shift of a code up to 16 loses no bit, and the banks are the size's quotient. -/
theorem romSizeOfTheCodes : Obligations.RomSizeOfTheCodes := by
  intro c free
  refine ⟨fun hc => ⟨romSize_toNat hc free, ?banks⟩, fun hc => if_neg (Nat.not_le_of_lt hc), romBanks_toNat _⟩
  case banks => rw [romBanks_toNat, romSize_toNat hc, Nat.mul_div_cancel_left _ (by decide)]

/-- Settles O30: the table by the code's number, and the banks as the size's quotient. -/
theorem ramSizeOfTheCodes : Obligations.RamSizeOfTheCodes :=
  fun c => ⟨ramSize_toNat c, ramBanks_toNat _⟩

/-! ### Flags and type -/

/-- A byte is a battery code exactly when its number is one of theirs. -/
theorem hasBattery_iff (t : Byte) : hasBattery t = true ↔ t.toNat ∈ batteryCodes.map BitVec.toNat := by
  rw [hasBattery, List.contains_iff_mem, List.mem_map_of_injective BitVec.toNat_injective]

theorem isSuperByte_iff (b : Byte) : isSuperByte b = true ↔ b.toNat = 3 := by
  rw [isSuperByte, beq_iff_eq, ← BitVec.toNat_inj]
  rfl

theorem typeName_named : typeName 0x13#8 = "MBC3+RAM+BATTERY" := if_pos rfl

/-- Settles O31: the flags by the numbers of their bytes; the record's fields are the parser's own. -/
theorem batteryAndSuperFlags : Obligations.BatteryAndSuperFlags :=
  ⟨hasBattery_iff, isSuperByte_iff, fun _ _ _ => ⟨rfl, rfl, rfl⟩, typeName_named⟩

end Sys2Proof.Machine
end

section
/-!
PROOF. The decoders against the encoder (30_encoding.md sections 1 and 3). Each reader of operand bytes accepts exactly the
bytes the encoder writes for its operand, so a selector's operands are read off and written back operand by operand.
-/

namespace Sys2Proof

variable {α β : Type} {bs rest : List Byte} {b : Byte} {i : Instr}

/-! ### Readers accept exactly what the encoder writes -/

theorem parser_bind_eq_ok_iff {x : Parser α} {f : α → Parser β} {y : β} :
    (x >>= f) bs = .ok (y, rest) ↔ ∃ a mid, x bs = .ok (a, mid) ∧ f a mid = .ok (y, rest) :=
  ⟨parser_bind_eq_ok, fun ⟨_, _, hx, hf⟩ => (parser_bind_of_ok hx).trans hf⟩

theorem nextByte_eq_ok_iff : nextByte bs = .ok (b, rest) ↔ bs = b :: rest :=
  ⟨nextByte_eq_ok, fun e => e ▸ nextByte_cons b rest⟩

theorem nextHandle_eq_ok_iff {h : Handle} : nextHandle bs = .ok (h, rest) ↔ bs = handleByte h :: rest :=
  ⟨nextHandle_eq_ok, fun e => e ▸ nextHandle_cons h rest⟩

theorem nextPort_eq_ok_iff {p : Port} : nextPort bs = .ok (p, rest) ↔ bs = portByte p :: rest :=
  ⟨nextPort_eq_ok, fun e => e ▸ nextPort_cons p rest⟩

theorem nextMode_eq_ok_iff {m : PortMode} : nextMode bs = .ok (m, rest) ↔ bs = modeByte m :: rest :=
  ⟨nextMode_eq_ok, fun e => e ▸ nextMode_cons m rest⟩

theorem nextPresence_eq_ok_iff {x : Presence} : nextPresence bs = .ok (x, rest) ↔ bs = presenceByte x :: rest :=
  ⟨nextPresence_eq_ok, fun e => e ▸ nextPresence_cons x rest⟩

theorem nextChip_eq_ok_iff : nextChip bs = .ok (b, rest) ↔ chipInRange b ∧ bs = b :: rest :=
  ⟨nextChip_eq_ok, fun ⟨hb, e⟩ => e ▸ nextChip_cons hb rest⟩

theorem nextPin_eq_ok_iff : nextPin bs = .ok (b, rest) ↔ pinInRange b ∧ bs = b :: rest :=
  ⟨nextPin_eq_ok, fun ⟨hb, e⟩ => e ▸ nextPin_cons hb rest⟩

theorem nextPinValue_eq_ok_iff : nextPinValue bs = .ok (b, rest) ↔ pinValueInRange b ∧ bs = b :: rest :=
  ⟨nextPinValue_eq_ok, fun ⟨hb, e⟩ => e ▸ nextPinValue_cons hb rest⟩

theorem nextAddr_eq_ok_iff {a : Addr} : nextAddr bs = .ok (a, rest) ↔ bs = natBytes 2 a.toNat ++ rest :=
  ⟨nextAddr_eq_ok, fun e => e ▸ nextAddr_natBytes a rest⟩

theorem nextLength_eq_ok_iff {n : Nat} : nextLength 0 bs = .ok (n, rest) ↔ bs = lengthBytes n ++ rest :=
  ⟨nextLength_eq_ok, fun e => e ▸ nextLength_lengthBytes n rest⟩

/-! ### From the encoding to the instruction -/

/-- A frame's encoding is read back on the wire. -/
theorem decodeFrame_opW (h : Handle) (a : ChipAddr) (r v : Byte) (rest : List Byte) :
    decodeFrame (opW a) (r :: v :: handleByte h :: rest) = .ok (.wrFrame h a r v, rest) := by
  obtain ⟨-, hchip, hread⟩ := opW_fields a
  simp [decodeFrame, hread, hchip, parser_bind_apply, parser_map_apply]

theorem decodeFrame_opR (h : Handle) (a : ChipAddr) (r : Byte) (rest : List Byte) :
    decodeFrame (opR a) (r :: handleByte h :: rest) = .ok (.rdFrame h a r, rest) := by
  obtain ⟨-, hchip, hread⟩ := opR_fields a
  simp [decodeFrame, hread, hchip, parser_bind_apply, parser_map_apply]

/-- Settles O5: by the instruction, each operand read back by its own reader. -/
theorem decodeOfEncodeIsTheInstruction : Obligations.DecodeOfEncodeIsTheInstruction := by
  intro i rest hw
  cases i <;> simp only [interfaceOf, encode, List.cons_append, List.nil_append, List.append_assoc, decode_caller,
      decodeOperation, BitVec.toNat_ofNat, Nat.reducePow, Nat.reduceMod]
  case wrFrame h a r v => exact (decode_opW ..).trans (decodeFrame_opW h a r v rest)
  case rdFrame h a r => exact (decode_opR ..).trans (decodeFrame_opR h a r rest)
  case init h chip tp cs =>
    have hchip : chipInRange chip := of_decide_eq_true hw
    simp [parser_bind_apply, parser_map_apply, nextChip_cons hchip]
  case writePin h pin p value =>
    obtain ⟨hpin, hvalue⟩ := Bool.and_eq_true_iff.mp hw
    simp [parser_bind_apply, parser_map_apply, nextPin_cons (of_decide_eq_true hpin),
      nextPinValue_cons (of_decide_eq_true hvalue)]
  case readPin h pin p =>
    have hpin : pinInRange pin := of_decide_eq_true hw
    simp [parser_bind_apply, parser_map_apply, nextPin_cons hpin]
  case readBytes a n buf => simp [parser_bind_apply, parser_map_apply, nextLength_lengthBytes]
  all_goals simp [parser_bind_apply, parser_map_apply]

/-! ### From the bytes to the encoding -/

theorem selector_cases {b : Byte} (h : ¬ (b.toNat = 0 ∨ 0x0E < b.toNat)) :
    b ∈ [0x01#8, 0x02#8, 0x03#8, 0x04#8, 0x05#8, 0x06#8, 0x07#8,
      0x08#8, 0x09#8, 0x0A#8, 0x0B#8, 0x0C#8, 0x0D#8, 0x0E#8] := by
  revert b
  decide

/-- Operand bytes that a selector's readers accept are those of a well-formed caller operation with that selector. -/
theorem decodeOperation_eq_ok (e : decodeOperation b bs = .ok (i, rest)) :
    WellFormed i ∧ interfaceOf i = .caller ∧ b :: bs = encode i ++ rest := by
  by_cases hunknown : b.toNat = 0 ∨ 0x0E < b.toNat
  · rw [decodeOperation_unknown hunknown] at e
    cases e
  have hb := selector_cases hunknown
  simp only [List.mem_cons, List.not_mem_nil, or_false] at hb
  rcases hb with rfl | rfl | rfl | rfl | rfl | rfl | rfl | rfl | rfl | rfl | rfl | rfl | rfl | rfl
  all_goals
    simp only [decodeOperation, BitVec.toNat_ofNat, Nat.reducePow, Nat.reduceMod,
      parser_bind_eq_ok_iff, nextByte_eq_ok_iff, nextHandle_eq_ok_iff, nextPort_eq_ok_iff, nextMode_eq_ok_iff,
      nextPresence_eq_ok_iff, nextChip_eq_ok_iff, nextPin_eq_ok_iff, nextPinValue_eq_ok_iff, nextAddr_eq_ok_iff,
      nextLength_eq_ok_iff, parser_pure_apply, Except.ok.injEq, Prod.mk.injEq] at e
  · obtain ⟨h, _, rfl, a, _, ⟨ha, rfl⟩, tp, _, rfl, cs, _, rfl, rfl, rfl⟩ := e
    exact ⟨decide_eq_true ha, rfl, rfl⟩
  · obtain ⟨h, _, rfl, rfl, rfl⟩ := e
    exact ⟨rfl, rfl, rfl⟩
  · obtain ⟨h, _, rfl, i, _, rfl, v, _, rfl, rfl, rfl⟩ := e
    exact ⟨rfl, rfl, rfl⟩
  · obtain ⟨h, _, rfl, i, _, rfl, out, _, rfl, rfl, rfl⟩ := e
    exact ⟨rfl, rfl, rfl⟩
  · obtain ⟨h, _, rfl, p, _, rfl, m, _, rfl, rfl, rfl⟩ := e
    exact ⟨rfl, rfl, rfl⟩
  · obtain ⟨h, _, rfl, n, _, ⟨hn, rfl⟩, p, _, rfl, v, _, ⟨hv, rfl⟩, rfl, rfl⟩ := e
    exact ⟨Bool.and_eq_true_iff.mpr ⟨decide_eq_true hn, decide_eq_true hv⟩, rfl, rfl⟩
  · obtain ⟨h, _, rfl, p, _, rfl, v, _, rfl, rfl, rfl⟩ := e
    exact ⟨rfl, rfl, rfl⟩
  · obtain ⟨h, _, rfl, n, _, ⟨hn, rfl⟩, p, _, rfl, rfl, rfl⟩ := e
    exact ⟨decide_eq_true hn, rfl, rfl⟩
  · obtain ⟨h, _, rfl, p, _, rfl, rfl, rfl⟩ := e
    exact ⟨rfl, rfl, rfl⟩
  · obtain ⟨h, _, rfl, rfl, rfl⟩ := e
    exact ⟨rfl, rfl, rfl⟩
  · obtain ⟨a, _, rfl, rfl, rfl⟩ := e
    exact ⟨rfl, rfl, rfl⟩
  · obtain ⟨a, _, rfl, v, _, rfl, rfl, rfl⟩ := e
    exact ⟨rfl, rfl, rfl⟩
  · obtain ⟨a, _, rfl, n, _, rfl, buf, _, rfl, rfl, rfl⟩ := e
    exact ⟨rfl, rfl, by simp [encode]⟩
  · obtain ⟨info, _, rfl, rfl, rfl⟩ := e
    exact ⟨rfl, rfl, rfl⟩

/-- The bytes behind a frame's first byte that its reader accepts are those of the frame with that first byte. -/
theorem decodeFrame_eq_ok (hframe : isFrameByte b = true) (e : decodeFrame b bs = .ok (i, rest)) :
    WellFormed i ∧ interfaceOf i = .wire ∧ b :: bs = encode i ++ rest := by
  have hb := frameByte_eq hframe
  unfold decodeFrame at e
  split at e
  case isTrue hread =>
    simp only [parser_bind_eq_ok_iff, nextByte_eq_ok_iff, nextHandle_eq_ok_iff, parser_pure_apply, Except.ok.injEq,
      Prod.mk.injEq] at e
    obtain ⟨r, _, rfl, h, left, rfl, rfl, rfl⟩ := e
    rw [if_pos hread] at hb
    exact ⟨rfl, rfl, congrArg (· :: r :: handleByte h :: left) hb⟩
  case isFalse hread =>
    simp only [parser_bind_eq_ok_iff, nextByte_eq_ok_iff, nextHandle_eq_ok_iff, parser_pure_apply, Except.ok.injEq,
      Prod.mk.injEq] at e
    obtain ⟨r, _, rfl, v, _, rfl, h, left, rfl, rfl, rfl⟩ := e
    rw [if_neg hread] at hb
    exact ⟨rfl, rfl, congrArg (· :: r :: v :: handleByte h :: left) hb⟩

/-- Settles O6: the first byte is a selector or opens a frame, and the readers behind it take their operands' bytes. -/
theorem decodedBytesAreTheEncoding : Obligations.DecodedBytesAreTheEncoding := by
  intro via bytes rest i e
  obtain _ | ⟨b, bs⟩ := bytes
  · cases e
  cases via with
  | caller =>
    rw [decode_caller] at e
    exact decodeOperation_eq_ok e
  | wire =>
    rw [decode_wire] at e
    split at e
    case isTrue hframe => exact decodeFrame_eq_ok hframe e
    case isFalse => cases e

/-! ### Fixed words, register indices and addresses -/

/-- Settles O4: each of the six words is decoded. -/
theorem specWordsDecode : Obligations.SpecWordsDecode := ⟨rfl, rfl, rfl, rfl, rfl, rfl⟩

/-- Settles O2: the eight indices and the six bytes. -/
theorem registerIndicesAndModeBytes : Obligations.RegisterIndicesAndModeBytes := by
  refine ⟨fun k p => ?indices, ⟨rfl, rfl⟩, ⟨rfl, rfl⟩, rfl, rfl⟩
  case indices => cases k <;> cases p <;> rfl

/-- Settles O3: the halves are the remainder and the quotient by 256, and side by side they are the address. -/
theorem addressSplitsIntoLowAndHighByte : Obligations.AddressSplitsIntoLowAndHighByte := by
  intro a
  have := a.isLt
  refine ⟨by simp [Machine.addrLow], ?high, Machine.joinAddr_split a⟩
  case high =>
    rw [Machine.addrHigh, BitVec.extractLsb'_toNat, Nat.shiftRight_eq_div_pow]
    omega

/-! ### Refused bytes -/

theorem decode_unknownSelector (h : b.toNat = 0 ∨ 0x0E < b.toNat) :
    decode .caller (b :: bs) = .error (.unknownSelector b) := by
  rw [decode_caller, decodeOperation_unknown h, reject_apply]

theorem decode_notAFrame (h : b.extractLsb' 4 4 ≠ 0b0100#4) : decode .wire (b :: bs) = .error (.notAFrame b) := by
  rw [decode_wire, if_neg (by simpa [isFrameByte] using h)]

/-- A step refuses a pending request that its interface's decoder refuses. -/
theorem step_of_undecodable {s : Machine.State} {c : Call} {behind : List Call} {e : DecodeError}
    (hcalls : s.calls = c :: behind) (hd : decode c.via c.bytes = .error e) :
    Machine.step s = .refused (.undecodable e) := by
  simp only [Machine.step, hcalls, hd]

theorem nextChip_above (h : 7 < b.toNat) : nextChip (b :: bs) = .error (.chipAbove7 b) := by
  rw [nextChip, parser_bind_of_ok (nextByte_cons ..), if_neg (Nat.not_lt.mpr h), reject_apply]

theorem nextPin_above (h : 7 < b.toNat) : nextPin (b :: bs) = .error (.pinAbove7 b) := by
  rw [nextPin, parser_bind_of_ok (nextByte_cons ..), if_neg (Nat.not_lt.mpr h), reject_apply]

theorem nextPort_above (h : 1 < b.toNat) : nextPort (b :: bs) = .error (.badPort b) := by
  have hA : b ≠ 0#8 := by rintro rfl; contradiction
  have hB : b ≠ 1#8 := by rintro rfl; contradiction
  rw [nextPort, parser_bind_of_ok (nextByte_cons ..), if_neg hA, if_neg hB, reject_apply]

/-- Settles O7: a first byte by its interface's decoder, an operand by its own reader behind the handle's. -/
theorem unknownSelectorsAreRefused : Obligations.UnknownSelectorsAreRefused := by
  refine ⟨fun b bs s rest => ⟨fun h hcalls => ?selector, fun h hcalls => ?frame⟩,
    fun h x bs => ⟨fun hx => ?above7, fun hx => ?port⟩⟩
  case selector => exact ⟨decode_unknownSelector h, step_of_undecodable hcalls (decode_unknownSelector h)⟩
  case frame => exact ⟨decode_notAFrame h, step_of_undecodable hcalls (decode_notAFrame h)⟩
  case above7 =>
    refine ⟨?_, ?_, ?_⟩ <;> rw [decode_caller]
    · simp [decodeOperation, parser_bind_apply, nextChip_above hx]
    · simp [decodeOperation, parser_bind_apply, nextPin_above hx]
    · simp [decodeOperation, parser_bind_apply, nextPin_above hx]
  case port =>
    refine ⟨?_, ?_⟩ <;> rw [decode_caller]
    · simp [decodeOperation, parser_bind_apply, nextPort_above hx]
    · simp [decodeOperation, parser_bind_apply, parser_map_apply, nextPort_above hx]

/-- Settles O8: the queue's head decides what a step does. -/
theorem stepRunsTheDecodedCall : Obligations.StepRunsTheDecodedCall := by
  refine ⟨fun s c rest i left hcalls hd => ?_, fun s hcalls => ?_⟩
  · simp only [Machine.step, hcalls, hd]
  · simp only [Machine.step, hcalls]

end Sys2Proof
end

section
/-!
PROOF. Which operations run (60_exceptions.md R127, R128): a caller operation is refused when another is in progress, else by its
own refusal, and that is absent exactly where `Runs` holds.
-/

namespace Sys2Proof.Machine

variable {i : Instr} {s : State} {h : Handle} {chip : Byte} {ws : List (Byte × Byte)} {q : Byte}

/-- A register has a last written value exactly when some write names it. -/
theorem lastWritten_isSome_iff : (lastWritten ws q).isSome = true ↔ ∃ v, (q, v) ∈ ws := by
  induction ws with
  | nil => simp [lastWritten]
  | cons w ws ih =>
    obtain ⟨r, v⟩ := w
    by_cases hr : r = q
    · simp [lastWritten, hr]
    · simp [lastWritten, hr, Ne.symm hr, ih]

theorem initRefusal_eq_none_iff : initRefusal h chip s = none ↔
    chipInRange chip ∧ (s.handle h).init = false ∧ ∃ v, (s.params.verifyReg, v) ∈ initWrites s.params := by
  rw [← lastWritten_isSome_iff, initRefusal]
  split_ifs <;> simp_all [Option.isSome_iff_ne_none]

/-- An instruction's own refusal is absent exactly where its operands and the state meet `Runs`. -/
theorem refusalOf_eq_none_iff : refusalOf s i = none ↔ Runs s i := by
  cases i with
  | init h chip tp cs => exact initRefusal_eq_none_iff
  | writePin h pin p value => simp [refusalOf, Runs, pinRefusal, pinValueRefusal]
  | readPin h pin p => simp [refusalOf, Runs, pinRefusal]
  | readBytes a n buf => simp [refusalOf, Runs, lengthRefusal]
  | _ => exact iff_of_true rfl trivial

theorem answersNext_exec_iff : AnswersNext (exec i s) ↔ s.busy = false ∧ Runs s i := by
  rw [← refusalOf_eq_none_iff]
  refine ⟨fun ⟨t, e⟩ => ?_, fun ⟨hb, hr⟩ => ⟨_, exec_next hb hr⟩⟩
  obtain ⟨hb, hr, -⟩ := exec_eq_next e
  exact ⟨hb, hr⟩

/-- The machine has no fault: an instruction answers a next state or is refused. -/
theorem exec_next_or_refused (i : Instr) (s : State) : AnswersNext (exec i s) ∨ ∃ r, exec i s = .refused r := by
  rcases e : exec i s with t | f | r
  · exact .inl ⟨t, rfl⟩
  · cases f
  · exact .inr ⟨r, rfl⟩

/-- Settles O9: a call answers a next state without a refusal, and the flag is looked at before the operands. -/
theorem operationsRunExactlyWhenNotRefused : Obligations.OperationsRunExactlyWhenNotRefused := fun i s =>
  ⟨answersNext_exec_iff, fun hb => (exec_eq_call i s).trans (call_busy hb),
    fun hn => (exec_next_or_refused i s).resolve_left hn⟩

end Sys2Proof.Machine
end

section
/-!
PROOF. The register driver's writes: WR_FRAME, RD_FRAME, WRITE_REG and INIT (40_register_driver.md R85, R87, R89). Each is the
shared transaction or the shared spec of INIT behind the start of a caller operation, which sets a flag only.
-/

namespace Sys2Proof.Machine

variable {h : Handle} {a : ChipAddr} {i r v x : Byte} {s t : State} {bytes : List Byte}
  {e : EStateM.Result Cause State OpResult}

/-! ### Bare frames -/

/-- What a caller operation leaves that ends behind one format-W transaction, whatever the answer. -/
theorem finish_afterW (ha : after e = State.afterW h bytes { s with busy := true }) :
    (finish e).trace = s.trace ++ wEvents h bytes (txAnswer h bytes (atFirstCall h s)) ∧
      ((finish e).handle h).cache = (s.handle h).cache ∧ HandleFrame h s (finish e) ∧ CallerDataKept s (finish e) := by
  have only : OnlyHandle h { s with busy := true } (after e) := ha ▸ afterW_only ..
  exact ⟨by simp [ha, atFirstCall], by simp [ha], only.handleFrame (by simp [ha]), only.callerData⟩

theorem wrFrameBody_after (p : Params) (s : State) :
    after (bodyOf p (.wrFrame h a r v) s) = s.afterW h (frameW a r v) := by
  rw [bodyOf, bind_apply, transactW_apply]
  cases txAnswer h (frameW a r v) (s.select h) <;> rfl

theorem wrFrameBody_result (p : Params) (s : State) :
    resultOf (bodyOf p (.wrFrame h a r v) s) =
      if txAnswer h (frameW a r v) (s.select h) then .ok else .fail .txFail := by
  rw [bodyOf, bind_apply, transactW_apply]
  cases txAnswer h (frameW a r v) (s.select h) <;> rfl

theorem rdFrameBody_after (p : Params) (s : State) :
    after (bodyOf p (.rdFrame h a r) s) = s.afterR h (frameR a r) := by
  rw [bodyOf, bind_apply, transactR_apply]
  cases rxAnswer h (frameR a r) (s.select h) <;> rfl

theorem rdFrameBody_result (p : Params) (s : State) :
    resultOf (bodyOf p (.rdFrame h a r) s) = match rxAnswer h (frameR a r) (s.select h) with
      | some b => .okByte b
      | none => .fail .txRxFail := by
  rw [bodyOf, bind_apply, transactR_apply]
  cases rxAnswer h (frameR a r) (s.select h) <;> rfl

/-- Settles O10: the body ends behind its one transaction, whose answer is the result. -/
theorem writeFrameIsOneTransaction : Obligations.WriteFrameIsOneTransaction := by
  intro h a r v s hb
  obtain ⟨htrace, hrest⟩ := finish_afterW (s := s) (wrFrameBody_after (h := h) (a := a) (r := r) (v := v) s.params _)
  exact ⟨_, exec_next hb rfl, htrace, by rw [finish_result, wrFrameBody_result]; rfl, hrest⟩

/-- Settles O11: the body ends behind its one transaction, whose answer is the result. -/
theorem readFrameIsOneTransaction : Obligations.ReadFrameIsOneTransaction := by
  intro h a r s hb
  obtain ⟨htrace, hrest⟩ := finish_afterR (s := s) (rdFrameBody_after (h := h) (a := a) (r := r) s.params _)
  exact ⟨_, exec_next hb rfl, htrace, by rw [finish_result, rdFrameBody_result]; rfl, hrest⟩

/-! ### WRITE_REG -/

theorem writeRegister_answered (hi : (s.handle h).init = true)
    (ha : txAnswer h (frameW (s.handle h).chipAddr i v) (s.select h) = true) : ∃ t, writeRegister h i v s = .ok () t :=
  ⟨_, by rw [writeRegister_apply hi, if_pos ha]⟩

theorem writeRegister_unanswered (hi : (s.handle h).init = true)
    (ha : txAnswer h (frameW (s.handle h).chipAddr i v) (s.select h) = false) :
    ∃ t, writeRegister h i v s = .error .txFail t :=
  ⟨_, by rw [writeRegister_apply hi, ha, if_neg Bool.false_ne_true]⟩

/-- Settles O12: before any event on an uninitialized handle, else one write transaction, cached where it succeeds. -/
theorem writeRegSendsOneFrameAndCachesOnSuccess : Obligations.WriteRegSendsOneFrameAndCachesOnSuccess := by
  intro h i v s hb
  refine ⟨rfl, fun hi => ?uninitialized, fun hi => ⟨_, _, exec_next hb rfl, rfl, ?initialized⟩⟩
  case uninitialized =>
    exact exec_unchanged (r := .error .notInitialized _) hb rfl
      (bind_error (writeRegister_uninitialized (by simpa using hi) i v)) rfl
  case initialized =>
    have hi' : (State.handle { s with busy := true } h).init = true := by simpa using hi
    cases ha : txAnswer h [opW (s.handle h).chipAddr, i, v] (atFirstCall h s) with
    | true =>
      obtain ⟨t, e⟩ := writeRegister_answered hi' (i := i) (v := v) (by simpa [frameW, atFirstCall] using ha)
      obtain ⟨-, only, htrace, hlvl, hcache⟩ := writeRegister_ok e
      have hbody : bodyOf s.params (.writeReg h i v) { s with busy := true } = .ok .ok t := bind_ok e
      rw [hbody]
      refine ⟨by simpa [frameW] using htrace, rfl, fun k hk => ?_, only.handleFrame hlvl, only.callerData (r := .ok .ok t)⟩
      simp [hcache, setReg22_get]
    | false =>
      obtain ⟨t, e⟩ := writeRegister_unanswered hi' (i := i) (v := v) (by simpa [frameW, atFirstCall] using ha)
      rcases writeRegister_error e with ⟨hu, -⟩ | ⟨-, -, only, htrace, hlvl, hcache⟩
      · simp [hi] at hu
      have hbody : bodyOf s.params (.writeReg h i v) { s with busy := true } = .error .txFail t := bind_error e
      rw [hbody]
      refine ⟨by simpa [frameW] using htrace, rfl, fun k hk => ?_, only.handleFrame hlvl,
        only.callerData (r := .error .txFail t)⟩
      simp [hcache]

/-! ### INIT -/

/-- What an INIT sets and leaves alone, before what is particular to one of its ends. -/
theorem Initialized.finish_and {P : Prop} (k : Initialized h a { s with busy := true } (after e)) (hP : P) :
    (finish e).handle (otherHandle h) = s.handle (otherHandle h) ∧ LinesKept s (finish e) ∧ SessionKept s (finish e) ∧
      CallerDataKept s (finish e) ∧ ((finish e).handle h).chipAddr = a ∧ ((finish e).handle h).transport = .present ∧
      ((finish e).handle h).cs = some (csLineOf s.params h) ∧ ((finish e).handle h).cscfg = .outputHigh ∧
      ((finish e).handle h).cslvl = .high ∧ P := by
  simp [k.other, LinesKept, k.ctrl, k.phase, SessionKept, k.params, k.calls, CallerDataKept, k.out, k.buf, k.info,
    k.chipAddr, k.transport, k.cs, k.cscfg, k.cslvl, hP]

/-- An INIT on an initialized handle, with operands in their types, is refused as such. -/
theorem initRefusal_initialized (hchip : chipInRange i) (hi : (s.handle h).init = true) :
    initRefusal h i s = some .alreadyInitialized := by
  rw [initRefusal, if_neg (not_not_intro hchip), if_pos hi]

/-- Settles O14: the refusal, the early failure, and behind them the four ends of INIT. -/
theorem initConfiguresVerifiesAndClearsTheCache : Obligations.InitConfiguresVerifiesAndClearsTheCache := by
  intro h chip s x hb hchip hx
  have hr : ∀ tp cs, (s.handle h).init = false → refusalOf s (.init h chip tp cs) = none := fun tp cs hi =>
    initRefusal_eq_none_iff.mpr ⟨hchip, hi, lastWritten_isSome_iff.mp (by simp [hx])⟩
  have hbody : ∀ tp cs, bodyOf s.params (.init h chip tp cs) =
      initHandle h (chip.setWidth 3) tp cs x >>= fun _ => pure .ok := fun tp cs => by rw [bodyOf, hx]; rfl
  refine ⟨fun _ _ => rfl, rfl, fun hi tp cs => ?initialized, fun hi => ⟨fun tp cs habsent => ?absent,
    _, exec_next hb (hr _ _ hi), ?runs⟩⟩
  case initialized =>
    rw [exec_eq_call, show refusalOf s (.init h chip tp cs) = _ from initRefusal_initialized hchip hi]
    simp [call, hb]
  case absent =>
    refine exec_unchanged (r := .error .argAbsent _) hb (hr _ _ hi) ?_ rfl
    rcases initHandle_spec h (chip.setWidth 3) tp cs x { s with busy := true } with ⟨-, e⟩ | ⟨hpresent, -⟩
    · rw [hbody, bind_error e]
    · exact absurd habsent hpresent
  case runs =>
    rw [hbody]
    rcases initHandle_spec h (chip.setWidth 3) .present .present x { s with busy := true } with ⟨habsent, -⟩ |
      ⟨-, t, k, ⟨hinit, hcache, ⟨e, before, w, behind, hw, htrace⟩ | ⟨e, htrace⟩ | ⟨e, b, hne, htrace⟩⟩ |
        ⟨hinit, hcache, e, htrace⟩⟩
    · simp at habsent
    · rw [bind_error e]
      exact k.finish_and (e := .error .txFail t)
        (.inl ⟨before, w, behind, hw, htrace, rfl, by simpa [hi] using hinit, by simpa using hcache⟩)
    · rw [bind_error e]
      exact k.finish_and (e := .error .txRxFail t)
        (.inr (.inl ⟨htrace, rfl, by simpa [hi] using hinit, by simpa using hcache⟩))
    · rw [bind_error e]
      exact k.finish_and (e := .error .verifyMismatch t)
        (.inr (.inr (.inl ⟨b, hne, htrace, rfl, by simpa [hi] using hinit, by simpa using hcache⟩)))
    · rw [bind_ok e]
      exact k.finish_and (e := .ok .ok t)
        (.inr (.inr (.inr ⟨htrace, rfl, by simpa using hinit, by simpa [clearedCache] using hcache⟩)))

end Sys2Proof.Machine
end

section
/-!
PROOF. WRITE_PIN and WRITE_PORT (41_port_pin.md R92, R94, R95): the bits of the byte written, and the shared specs of the two
writes behind the start of a caller operation.
-/

namespace Sys2Proof.Machine

variable {h : Handle} {s t : State} {c : Cause}

/-! ### Bits of a pin -/

/-- The mask of a pin has the pin's bit and no other. -/
theorem pinMask_getLsbD (n : Pin) {k : Nat} (hk : k < 8) : (pinMask n).getLsbD k = decide (k = n.toNat) := by
  rw [pinMask, BitVec.getLsbD_shiftLeft, BitVec.getLsbD_one, Bool.eq_iff_iff]
  simp only [Bool.and_eq_true, Bool.not_eq_true', decide_eq_true_eq, decide_eq_false_iff_not]
  omega

/-- Setting or clearing a pin's bit keeps the seven others. -/
theorem withPin_getLsbD (cur : Byte) (n : Pin) (b : Bool) {k : Nat} (hk : k < 8) :
    (withPin cur n b).getLsbD k = if k = n.toNat then b else cur.getLsbD k := by
  cases b
  · rw [withPin, if_neg Bool.false_ne_true, BitVec.getLsbD_and, BitVec.getLsbD_not, pinMask_getLsbD n hk]
    by_cases hn : k = n.toNat <;> simp [hn, hk]
  · rw [withPin, if_pos rfl, BitVec.getLsbD_or, pinMask_getLsbD n hk]
    by_cases hn : k = n.toNat <;> simp [hn]

/-- A pin verification compares the pin's bit. -/
theorem observe_pin (n : Pin) (g : Byte) : observe (.pin n) g = if g.getLsbD n.toNat then 1#8 else 0#8 := rfl

/-! ### Ends of the two writes -/

/-- The verification read of a write that succeeds may have failed only where that is soft. -/
theorem verified_result {g : Option Byte} {v : VerifyReadFail} (hg : g = none → v = .soft) :
    some OpResult.ok = some (if g = none ∧ v = .fail then .fail .txRxFail else .ok) := by
  rw [if_neg]
  rintro ⟨hnone, rfl⟩
  cases hg hnone

/-- The ends of a port write on an initialized handle, run as a caller operation. -/
theorem portWrite_ends (hi : (s.handle h).init = true) (p : Port) (v : Byte) :
    let r := (do portWrite h p v; pure OpResult.ok : Op OpResult) s
    OnlyHandle h s (after r) ∧ ((after r).handle h).cslvl = .high ∧
      (((finish r).trace = s.trace ++ wEvents h (frameW (s.handle h).chipAddr (regIndex .olat p) v) false ∧
          (finish r).result = some (.fail .txFail) ∧ ((finish r).handle h).cache = (s.handle h).cache) ∨
       (∃ g, (finish r).trace = s.trace ++ wEvents h (frameW (s.handle h).chipAddr (regIndex .olat p) v) true ++
            verifyEvents h (s.handle h).chipAddr p .port v g ∧
          ((finish r).handle h).cache = setReg22 (s.handle h).cache (regIndex .olat p) v ∧
          (finish r).result = some (if g = none ∧ s.params.verifyReadFail = .fail then .fail .txRxFail else .ok))) := by
  simp only [finish_handle, finish_trace, List.append_assoc]
  cases e : portWrite h p v s with
  | ok u t =>
    obtain ⟨-, only, hl, hk, g, ht, hg⟩ := portWrite_ok e
    rw [bind_ok e]
    exact ⟨only, hl, .inr ⟨g, ht, hk, verified_result hg⟩⟩
  | error c t =>
    obtain ⟨only, hl, ⟨rfl, hk, ht⟩ | ⟨rfl, hfail, hk, ht⟩⟩ := portWrite_error hi e <;> rw [bind_error e]
    · exact ⟨only, hl, .inl ⟨ht, rfl, hk⟩⟩
    · exact ⟨only, hl, .inr ⟨none, ht, hk, by rw [if_pos ⟨rfl, hfail⟩]; rfl⟩⟩

/-- The ends of a pin write on an initialized handle, run as a caller operation. -/
theorem pinWrite_ends (hi : (s.handle h).init = true) (n : Pin) (p : Port) (b : Bool) :
    let r := (do pinWrite h n p b; pure OpResult.ok : Op OpResult) s
    let latchRead := rEvents h (frameR (s.handle h).chipAddr (regIndex .olat p))
    let latchWrite := fun cur => wEvents h (frameW (s.handle h).chipAddr (regIndex .olat p) (withPin cur n b))
    OnlyHandle h s (after r) ∧ ((after r).handle h).cslvl = .high ∧
      (((finish r).trace = s.trace ++ latchRead none ∧ (finish r).result = some (.fail .txRxFail) ∧
          ((finish r).handle h).cache = (s.handle h).cache) ∨
       (∃ cur, (finish r).trace = s.trace ++ latchRead (some cur) ++ latchWrite cur false ∧
          (finish r).result = some (.fail .txFail) ∧ ((finish r).handle h).cache = (s.handle h).cache) ∨
       (∃ cur g, (finish r).trace = s.trace ++ latchRead (some cur) ++ latchWrite cur true ++
            verifyEvents h (s.handle h).chipAddr p (.pin n) (bitByte b) g ∧
          ((finish r).handle h).cache = setReg22 (s.handle h).cache (regIndex .olat p) (withPin cur n b) ∧
          (finish r).result = some (if g = none ∧ s.params.verifyReadFail = .fail then .fail .txRxFail else .ok))) := by
  simp only [finish_handle, finish_trace]
  cases e : pinWrite h n p b s with
  | ok u t =>
    obtain ⟨-, only, hl, cur, g, hk, ht, hg⟩ := pinWrite_ok e
    rw [bind_ok e]
    exact ⟨only, hl, .inr (.inr ⟨cur, g, ht, hk, verified_result hg⟩)⟩
  | error c t =>
    obtain ⟨only, hl, ⟨rfl, hk, ht⟩ | ⟨cur, rfl, hk, ht⟩ | ⟨cur, rfl, hfail, hk, ht⟩⟩ := pinWrite_error hi e <;>
      rw [bind_error e]
    · exact ⟨only, hl, .inl ⟨ht, rfl, hk⟩⟩
    · exact ⟨only, hl, .inr (.inl ⟨cur, ht, rfl, hk⟩)⟩
    · exact ⟨only, hl, .inr (.inr ⟨cur, none, ht, hk, by rw [if_pos ⟨rfl, hfail⟩]; rfl⟩)⟩

/-- Settles O17: the latch read, the latch write or the verification ends the operation. -/
theorem writePinReadsModifiesWritesAndVerifies : Obligations.WritePinReadsModifiesWritesAndVerifies := by
  refine ⟨fun cur n b k hk => withPin_getLsbD cur n b hk, observe_pin, fun h pin p value s hb hpin hvalue => ?_⟩
  have hr : refusalOf s (.writePin h pin p value) = none := refusalOf_eq_none_iff.mpr ⟨hpin, hvalue⟩
  refine ⟨rfl, fun hi => ?uninitialized, fun hi => ⟨_, exec_next hb hr, ?initialized⟩⟩
  case uninitialized =>
    exact exec_unchanged (r := .error .notInitialized _) hb hr
      (bind_error (pinWrite_uninitialized (by simpa using hi) _ _)) rfl
  case initialized =>
    obtain ⟨only, hl, hend⟩ := pinWrite_ends (s := { s with busy := true }) (h := h) (by simpa using hi)
      (pin.setWidth 3) p (value == 1#8)
    simp only [State.handle_with_busy] at hend
    exact ⟨only.handleFrame hl, only.callerData, hend⟩

/-- Settles O18: the latch write or the verification ends the operation. -/
theorem writePortWritesTheLatchAndVerifies : Obligations.WritePortWritesTheLatchAndVerifies := by
  refine ⟨fun _ => rfl, fun h p v s hb =>
    ⟨rfl, fun hi => ?uninitialized, fun hi => ⟨_, exec_next hb rfl, ?initialized⟩⟩⟩
  case uninitialized =>
    exact exec_unchanged (r := .error .notInitialized _) hb rfl
      (bind_error (portWrite_uninitialized (by simpa using hi) _)) rfl
  case initialized =>
    obtain ⟨only, hl, hend⟩ := portWrite_ends (s := { s with busy := true }) (h := h) (by simpa using hi) p v
    simp only [State.handle_with_busy] at hend
    exact ⟨only.handleFrame hl, only.callerData, hend⟩

end Sys2Proof.Machine
end

section
/-!
PROOF. Relations across whole operations, other than INIT and DESTROY: the shadow cache as the replay of the write frames
(10_state.md R21), what the handles keep (R24), and which registers the bus controller writes (42_bus_controller.md R107). One
induction serves the three: a relation that every unit of an operation's work satisfies holds across the operation.
-/

namespace Sys2Proof.Machine

variable {P : Byte → Prop} {R : State → State → Prop} {i : Instr} {s t : State} {h k : Handle}

/-! ### The induction -/

/-- A relation that every unit of the bus controller's work satisfies, and that sees the parameters, the handles and the trace
only, holds across the body of a bus operation. -/
theorem Units.busBody (U : Units P NotCsHigh R) (hP : ∀ p, P (regIndex .olat p))
    (quiet : ∀ s t : State, t.params = s.params → t.hA = s.hA → t.hD = s.hD → t.trace = s.trace → R s t)
    (diag : ∀ d (s : State), R s (s.emit (.diag d))) (hi : isBusOperation i = true) (p : Params) (s : State) :
    R s (after (bodyOf p i s)) := by
  have hrun := U.readRun hP notCsHigh_lines
  cases i <;> cases hi
  case readByte a => exact U.bind (U.byteRead hP notCsHigh_lines a s) fun _ _ => U.refl _
  case writeByte a v =>
    exact U.bind (U.byteWrite hP notCsHigh_lines (by simp [NotCsHigh]) a v s) fun _ _ => U.refl _
  case readBytes a n buf =>
    cases buf with
    | absent => exact U.refl _
    | present =>
      refine U.bind (x := bytesRead a n) ?_ fun _ _ => U.refl _
      rw [bytesRead]
      dsimp only
      split <;> exact U.trans (hrun a n s) (quiet _ _ rfl rfl rfl rfl)
  case readInfo info =>
    cases info with
    | absent => exact U.refl _
    | present =>
      refine U.bind (x := infoRead) ?_ fun _ _ => U.refl _
      rw [infoRead]
      dsimp only
      split
      · exact U.trans (hrun _ _ s) (diag _ _)
      · exact U.trans (hrun _ _ s) (quiet _ _ rfl rfl rfl rfl)

/-- Such a relation holds across every operation that has neither INIT's nor DESTROY's own effects. -/
theorem Units.exec (U : Units (fun _ => True) NotCsHigh R)
    (quiet : ∀ s t : State, t.params = s.params → t.hA = s.hA → t.hD = s.hD → t.trace = s.trace → R s t)
    (diag : ∀ d (s : State), R s (s.emit (.diag d)))
    (frameR : ∀ h a r s, R s (after (transactR h (frameR a r) s)))
    (frameW : ∀ h a r v s, i = .wrFrame h a r v → R s (after (transactW h (frameW a r v) s)))
    (hinit : ∀ h c tp cs, i ≠ .init h c tp cs) (hdestroy : ∀ h, i ≠ .destroy h) (e : exec i s = .next t) : R s t := by
  obtain ⟨-, -, rfl⟩ := exec_eq_next e
  have hbody : ∀ u, R u (after (bodyOf s.params i u)) := by
    intro u
    cases i with
    | init h c tp cs => exact absurd rfl (hinit h c tp cs)
    | destroy h => exact absurd rfl (hdestroy h)
    | wrFrame h a r v => exact U.bind (frameW h a r v u rfl) fun _ _ => U.refl _
    | rdFrame h a r => exact U.bind (frameR h a r u) fun _ _ => U.refl _
    | writeReg h i v => exact U.bind (U.write h i v u trivial) fun _ _ => U.refl _
    | readReg h i out =>
      cases out with
      | absent => exact U.refl _
      | present => exact U.bind (U.read h i u) fun _ _ => quiet _ _ rfl rfl rfl rfl
    | setPortMode h p m => exact U.bind (U.setMode (fun _ => trivial) h p m u) fun _ _ => U.refl _
    | writePin h pin p v => exact U.bind (U.pinWrite (fun _ => trivial) h _ p _ u) fun _ _ => U.refl _
    | writePort h p v => exact U.bind (U.portWrite (fun _ => trivial) h p v u) fun _ _ => U.refl _
    | readPin h pin p => exact U.bind (U.portRead h p u) fun _ _ => U.refl _
    | readPort h p => exact U.bind (U.portRead h p u) fun _ _ => U.refl _
    | isConnected h =>
      rw [bodyOf, getParams_bind]
      refine U.bind ?_ fun _ _ => U.refl _
      have hread := U.read h u.params.probeReg u
      unfold completes
      split <;> rename_i e <;> rwa [e] at hread
    | readByte a => exact U.busBody (fun _ => trivial) quiet diag rfl _ u
    | writeByte a v => exact U.busBody (fun _ => trivial) quiet diag rfl _ u
    | readBytes a n buf => exact U.busBody (fun _ => trivial) quiet diag rfl _ u
    | readInfo info => exact U.busBody (fun _ => trivial) quiet diag rfl _ u
  have hstart : R s { s with busy := true } := quiet _ _ rfl rfl rfl rfl
  exact U.trans hstart (U.trans (hbody _) (quiet _ _ (by simp) (by simp) (by simp) (by simp)))

/-! ### The shadow cache (10_state.md R21) -/

/-- The events appended, replayed, take each cache from what it was to what it is. -/
def Replays (s t : State) : Prop :=
  ∃ evs, t.trace = s.trace ++ evs ∧ ∀ h, (t.handle h).cache = evs.foldl (replayWrite h) (s.handle h).cache

theorem Replays.trans {u : State} : Replays s t → Replays t u → Replays s u := by
  rintro ⟨x, hx, hcx⟩ ⟨y, hy, hcy⟩
  exact ⟨x ++ y, by rw [hy, hx, List.append_assoc], fun h => by rw [hcy, hcx, List.foldl_append]⟩

/-- Where the caches stay, it is enough that no appended event is a successful write. -/
theorem Replays.of_cache_eq {evs : List Event} (ht : t.trace = s.trace ++ evs)
    (hc : ∀ h, (t.handle h).cache = (s.handle h).cache)
    (hevs : ∀ (h : Handle) c, evs.foldl (replayWrite h) c = c) : Replays s t :=
  ⟨evs, ht, fun h => by rw [hc, hevs]⟩

theorem Replays.quiet {s t : State} (hA : t.hA = s.hA) (hD : t.hD = s.hD) (ht : t.trace = s.trace) : Replays s t :=
  .of_cache_eq (evs := []) (by simp [ht]) (fun h => by rw [State.handle_congr hA hD]) fun _ _ => rfl

/-- A write transaction replayed: the handle's cache takes the value where the chip acknowledged it. -/
theorem replay_wEvents (h k : Handle) (a : ChipAddr) (r v : Byte) (ok : Bool) (c : Vector Byte 22) :
    (wEvents h (frameW a r v) ok).foldl (replayWrite k) c = if ok = true ∧ h = k then setReg22 c r v else c := by
  cases ok <;> simp [wEvents, frameW, replayWrite]

theorem replay_rEvents (h k : Handle) (bytes : List Byte) (answer : Option Byte) (c : Vector Byte 22) :
    (rEvents h bytes answer).foldl (replayWrite k) c = c := rfl

/-- A register access keeps the other handle's cache. -/
theorem OnlyHandle.cache_other (o : OnlyHandle h s t) (hk : k ≠ h) : (t.handle k).cache = (s.handle k).cache := by
  rw [(otherHandle_cases h k).resolve_left hk, o.other]

theorem OnlyHandle.cache_eq (o : OnlyHandle h s t) (hh : (t.handle h).cache = (s.handle h).cache) (k : Handle) :
    (t.handle k).cache = (s.handle k).cache := by
  by_cases hk : k = h
  · rw [hk, hh]
  · exact o.cache_other hk

theorem replays_writeRegister (h : Handle) (i v : Byte) (s : State) : Replays s (after (writeRegister h i v s)) := by
  rcases e : writeRegister h i v s with ⟨_, t⟩ | ⟨c, t⟩
  · obtain ⟨-, o, ht, -, hc⟩ := writeRegister_ok e
    refine ⟨_, ht, fun k => ?_⟩
    rw [replay_wEvents]
    by_cases hk : k = h
    · rw [if_pos ⟨rfl, hk.symm⟩, hk]
      exact hc
    · rw [if_neg fun hw => hk hw.2.symm]
      exact o.cache_other hk
  · rcases writeRegister_error e with ⟨-, -, rfl⟩ | ⟨-, -, o, ht, -, hc⟩
    · exact .quiet rfl rfl rfl
    · exact .of_cache_eq ht (o.cache_eq hc) fun k c => by simp [replay_wEvents]

theorem replays_readRegister (h : Handle) (i : Byte) (s : State) : Replays s (after (readRegister h i s)) := by
  rcases e : readRegister h i s with ⟨_, t⟩ | ⟨c, t⟩
  · obtain ⟨-, o, ht, -, hc⟩ := readRegister_ok e
    exact .of_cache_eq ht (o.cache_eq hc) fun _ _ => rfl
  · rcases readRegister_error e with ⟨-, -, rfl⟩ | ⟨-, -, o, ht, -, hc⟩
    · exact .quiet rfl rfl rfl
    · exact .of_cache_eq ht (o.cache_eq hc) fun _ _ => rfl

theorem replays_transactR (h : Handle) (a : ChipAddr) (r : Byte) (s : State) :
    Replays s (after (transactR h (frameR a r) s)) := by
  rw [transactR_apply]
  split <;> exact .of_cache_eq (afterR_trace ..) ((afterR_only h _ s).cache_eq (by simp)) fun _ _ => rfl

/-- An event that is no write leaves the caches alone. -/
theorem replays_emit {e : Event} (he : ∀ (h : Handle) c, replayWrite h c e = c) (s : State) : Replays s (s.emit e) :=
  .of_cache_eq rfl (fun h => by rw [State.emit_handle]) he

theorem replays_units : Units (fun _ => True) NotCsHigh Replays where
  refl _ := .quiet rfl rfl rfl
  trans := .trans
  write h i v s _ := replays_writeRegister h i v s
  read h i s := replays_readRegister h i s
  log h p sc a b s := by
    unfold logMismatch
    split
    · exact .quiet rfl rfl rfl
    · exact replays_emit (fun _ _ => rfl) s
  ctrlEvent _ _ s _ := replays_emit (fun _ _ => rfl) s
  setCtrl _ _ _ _ := .quiet (by simp) (by simp) (by simp)
  phase _ _ := .quiet rfl rfl rfl
  delay _ s := replays_emit (fun _ _ => rfl) s

/-- Settles O49: every unit's events, replayed, are its effect on the caches. -/
theorem cacheIsTheReplayOfSuccessfulWrites : Obligations.CacheIsTheReplayOfSuccessfulWrites := by
  intro i s t hinit hdestroy hframe e
  exact replays_units.exec (fun _ _ _ hA hD ht => .quiet hA hD ht) (fun _ s => replays_emit (fun _ _ => rfl) s)
    replays_transactR (fun h a r v _ hi => absurd hi (hframe h a r v)) hinit hdestroy e

/-! ### The initialized flags and the chip addresses (10_state.md R24) -/

/-- Both handles keep all but their caches and levels. -/
def HandlesKept (s t : State) : Prop := ∀ h, HandleKept (s.handle h) (t.handle h)

theorem HandlesKept.quiet (hA : t.hA = s.hA) (hD : t.hD = s.hD) : HandlesKept s t := fun h => by
  rw [State.handle_congr hA hD]
  exact handleKept_refl _

theorem OnlyHandle.handlesKept (o : OnlyHandle h s t) : HandlesKept s t := o.bus.handleKept

/-! What a register access, in all its ends, leaves alone. -/

theorem writeRegister_only (h : Handle) (i v : Byte) (s : State) : OnlyHandle h s (after (writeRegister h i v s)) := by
  rcases e : writeRegister h i v s with ⟨_, t⟩ | ⟨c, t⟩
  · exact (writeRegister_ok e).2.1
  · rcases writeRegister_error e with ⟨-, -, rfl⟩ | ⟨-, -, o, -⟩
    · exact .refl ..
    · exact o

theorem readRegister_only (h : Handle) (i : Byte) (s : State) : OnlyHandle h s (after (readRegister h i s)) := by
  rcases e : readRegister h i s with ⟨_, t⟩ | ⟨c, t⟩
  · exact (readRegister_ok e).2.1
  · rcases readRegister_error e with ⟨-, -, rfl⟩ | ⟨-, -, o, -⟩
    · exact .refl ..
    · exact o

theorem transactW_only (h : Handle) (bytes : List Byte) (s : State) : OnlyHandle h s (after (transactW h bytes s)) := by
  rw [transactW_apply]
  split <;> exact afterW_only ..

theorem transactR_only (h : Handle) (bytes : List Byte) (s : State) : OnlyHandle h s (after (transactR h bytes s)) := by
  rw [transactR_apply]
  split <;> exact afterR_only ..

theorem handlesKept_units : Units (fun _ => True) NotCsHigh HandlesKept where
  refl _ _ := handleKept_refl _
  trans x y h := handleKept_trans (x h) (y h)
  write h i v s _ := (writeRegister_only h i v s).handlesKept
  read h i s := (readRegister_only h i s).handlesKept
  log h p sc a b s := (logMismatch_only h h p sc a b s).handlesKept
  ctrlEvent _ _ _ _ := .quiet rfl rfl
  setCtrl _ _ _ _ := .quiet (by simp) (by simp)
  phase _ _ := .quiet rfl rfl
  delay _ _ := .quiet rfl rfl

theorem exec_handlesKept (hinit : ∀ h c tp cs, i ≠ .init h c tp cs) (hdestroy : ∀ h, i ≠ .destroy h)
    (e : exec i s = .next t) : HandlesKept s t :=
  handlesKept_units.exec (fun _ _ _ hA hD _ => .quiet hA hD) (fun _ _ => .quiet rfl rfl)
    (fun h _ _ s => (transactR_only h _ s).handlesKept) (fun h _ _ _ s _ => (transactW_only h _ s).handlesKept)
    hinit hdestroy e

/-- An INIT that runs: the other handle stays, and its own, uninitialized before, is initialized after exactly on `Ok`. -/
theorem exec_init_flags {c : Byte} {tp cs : Presence} (e : exec (.init h c tp cs) s = .next t) :
    t.handle (otherHandle h) = s.handle (otherHandle h) ∧ (s.handle h).init = false ∧
      ((t.handle h).init = true → t.result = some .ok) := by
  obtain ⟨-, hr, rfl⟩ := exec_eq_next e
  have hi : (s.handle h).init = false := (refusalOf_eq_none_iff.mp hr).2.1
  rw [bodyOf]
  rcases initHandle_spec h (c.setWidth 3) tp cs _ { s with busy := true } with
    ⟨-, e⟩ | ⟨-, t, k, ⟨hflag, -, ⟨e, -⟩ | ⟨e, -⟩ | ⟨e, -⟩⟩ | ⟨-, -, e, -⟩⟩
  · rw [bind_error e]
    exact ⟨by simp, hi, fun h => by simp [hi] at h⟩
  · rw [bind_error e]
    exact ⟨by simp [k.other], hi, fun h => by simp [hflag, hi] at h⟩
  · rw [bind_error e]
    exact ⟨by simp [k.other], hi, fun h => by simp [hflag, hi] at h⟩
  · rw [bind_error e]
    exact ⟨by simp [k.other], hi, fun h => by simp [hflag, hi] at h⟩
  · rw [bind_ok e]
    exact ⟨by simp [k.other], hi, fun _ => rfl⟩

/-- A DESTROY leaves the other handle and its own chip address; its own flag is false after. -/
theorem exec_destroy_flags (e : exec (.destroy h) s = .next t) :
    t.handle (otherHandle h) = s.handle (otherHandle h) ∧ (t.handle h).chipAddr = (s.handle h).chipAddr ∧
      (t.handle h).init = false := by
  rw [exec_destroy (exec_eq_next e).1] at e
  cases e
  simp

/-- Settles O50: INIT and DESTROY change their own handle only, every other operation keeps flags and addresses. -/
theorem onlyInitAndDestroyChangeTheInitializedFlag : Obligations.OnlyInitAndDestroyChangeTheInitializedFlag := by
  intro i s t h e
  have kept : HandleKept (s.handle h) (t.handle h) →
      ((s.handle h).init = false → (t.handle h).init = true → ∃ c tp cs, i = .init h c tp cs ∧ t.result = some .ok) ∧
      ((s.handle h).init = true → (t.handle h).init = false → i = .destroy h) ∧
      ((t.handle h).chipAddr ≠ (s.handle h).chipAddr → ∃ c tp cs, i = .init h c tp cs) := by
    rintro ⟨hchip, -, -, hinit, -⟩
    exact ⟨fun h₀ h₁ => by simp [hinit, h₀] at h₁, fun h₁ h₀ => by simp [hinit, h₁] at h₀, fun hne => absurd hchip hne⟩
  cases i with
  | init k c tp cs =>
    obtain ⟨hother, hi, hok⟩ := exec_init_flags e
    rcases otherHandle_cases k h with rfl | rfl
    · exact ⟨fun _ h₁ => ⟨c, tp, cs, rfl, hok h₁⟩, fun h₁ => by simp [hi] at h₁, fun _ => ⟨c, tp, cs, rfl⟩⟩
    · exact kept (hother ▸ handleKept_refl _)
  | destroy k =>
    obtain ⟨hother, hchip, hi⟩ := exec_destroy_flags e
    rcases otherHandle_cases k h with rfl | rfl
    · exact ⟨fun _ h₁ => by simp [hi] at h₁, fun _ _ => rfl, fun hne => absurd hchip hne⟩
    · exact kept (hother ▸ handleKept_refl _)
  | _ => exact kept (exec_handlesKept (by simp) (by simp) e h)

/-! ### The registers the bus controller writes (42_bus_controller.md R107) -/

/-- No write frame among the events names a direction or a pull-up register. -/
def NoDirectionWrites (evs : List Event) : Prop := evs.any writesDirectionOrPullup = false

/-- A latch is no direction and no pull-up register. -/
theorem noDirectionWrites_olat (h : Handle) (a : ChipAddr) (p : Port) (v : Byte) (ok : Bool) :
    NoDirectionWrites (wEvents h (frameW a (regIndex .olat p) v) ok) := by
  cases p <;> rfl

theorem NoDirectionWrites.append {x y : List Event} (hx : NoDirectionWrites x) (hy : NoDirectionWrites y) :
    NoDirectionWrites (x ++ y) := by
  rw [NoDirectionWrites, List.any_append, hx, hy]
  rfl

theorem noDirectionWrites_writeRegister (h : Handle) (p : Port) (v : Byte) (s : State) :
    Appends NoDirectionWrites s (after (writeRegister h (regIndex .olat p) v s)) := by
  rcases e : writeRegister h (regIndex .olat p) v s with ⟨_, t⟩ | ⟨c, t⟩
  · exact ⟨_, (writeRegister_ok e).2.2.1, noDirectionWrites_olat ..⟩
  · rcases writeRegister_error e with ⟨-, -, rfl⟩ | ⟨-, -, -, ht, -⟩
    · exact ⟨[], by simp, rfl⟩
    · exact ⟨_, ht, noDirectionWrites_olat ..⟩

theorem noDirectionWrites_readRegister (h : Handle) (i : Byte) (s : State) :
    Appends NoDirectionWrites s (after (readRegister h i s)) := by
  rcases e : readRegister h i s with ⟨_, t⟩ | ⟨c, t⟩
  · exact ⟨_, (readRegister_ok e).2.2.1, rfl⟩
  · rcases readRegister_error e with ⟨-, -, rfl⟩ | ⟨-, -, -, ht, -⟩
    · exact ⟨[], by simp, rfl⟩
    · exact ⟨_, ht, rfl⟩

/-- The bus controller's units write latches only. -/
theorem noDirectionWrites_units : Units (fun i => ∃ p, i = regIndex .olat p) NotCsHigh (Appends NoDirectionWrites) where
  refl _ := ⟨[], by simp, rfl⟩
  trans := by
    rintro s t u ⟨x, hx, qx⟩ ⟨y, hy, qy⟩
    exact ⟨x ++ y, by rw [hy, hx, List.append_assoc], qx.append qy⟩
  write h i v s hi := by
    obtain ⟨p, rfl⟩ := hi
    exact noDirectionWrites_writeRegister h p v s
  read h i s := noDirectionWrites_readRegister h i s
  log h p sc a b s := ⟨_, logMismatch_trace .., by split <;> rfl⟩
  ctrlEvent _ _ _ _ := ⟨_, rfl, rfl⟩
  setCtrl _ _ _ _ := ⟨[], by simp, rfl⟩
  phase _ _ := ⟨[], by simp, rfl⟩
  delay _ _ := ⟨_, rfl, rfl⟩

/-- Settles O25: a bus operation is made of units that write latches only. -/
theorem busOperationsNeverChangeDirectionOrPullup : Obligations.BusOperationsNeverChangeDirectionOrPullup := by
  intro i s t hi e
  obtain ⟨-, -, rfl⟩ := exec_eq_next e
  rw [finish_trace]
  exact noDirectionWrites_units.busBody (fun p => ⟨p, rfl⟩) (fun _ _ _ _ _ ht => ⟨[], by simp [ht], rfl⟩)
    (fun _ _ => ⟨_, rfl, rfl⟩) hi s.params { s with busy := true }

end Sys2Proof.Machine
end

section
/-!
PROOF. What every step keeps of the trace (30_encoding.md R74, R77; 10_state.md R34, R42), of the control lines (R33, R34) and of
the phase (R36).
-/

namespace Sys2Proof.Machine

variable {α β : Type} {i : Instr} {s t : State} {h k : Handle} {c : Cause} {L : List Piece} {evs : List Event}

/-! ### Frames (30_encoding.md R74, R77) -/

theorem frameFormed_wEvents (h : Handle) (a : ChipAddr) (r v : Byte) (ok : Bool) :
    (wEvents h (frameW a r v) ok).all frameFormed = true := by
  obtain ⟨hframe, -, hread⟩ := opW_fields a
  simp [wEvents, frameW, frameFormed, hframe, hread]

theorem frameFormed_rEvents (h : Handle) (a : ChipAddr) (r : Byte) (answer : Option Byte) :
    (rEvents h (frameR a r) answer).all frameFormed = true := by
  obtain ⟨hframe, -, hread⟩ := opR_fields a
  cases answer <;> simp [rEvents, frameR, frameFormed, hframe, hread]

theorem frameFormed_traceProp : TraceProp fun evs => evs.all frameFormed = true where
  nil := rfl
  append hx hy := by rw [List.all_append, hx, hy]; rfl
  w h a r v ok := frameFormed_wEvents h a r v ok
  r h a r' answer := frameFormed_rEvents h a r' answer
  ctrl _ _ _ := rfl
  delay _ := rfl
  diag _ := rfl
  config _ _ := rfl

/-- Settles O39: a step appends formed frames. -/
theorem stepKeepsEveryFrameWellFormed : Obligations.StepKeepsEveryFrameWellFormed := by
  intro s t hs e
  obtain ⟨evs, ht, hevs⟩ := frameFormed_traceProp.step e
  rw [ht, List.all_append, hs, hevs]
  rfl

/-! ### The trace grows and the parameters stay (10_state.md R42) -/

theorem trivial_traceProp : TraceProp fun _ => True := by constructor <;> simp

theorem params_units : ExecUnits NotCsHigh fun s t => t.params = s.params := by
  refine rel_units (fun _ => rfl) (fun x y => y.trans x) (fun _ _ _ o _ _ => o.params) (fun _ _ hp _ _ _ => hp) ?_
    fun h s => destroyHandle_params s h
  intro h a tp cs x s _
  rcases initHandle_spec h a tp cs x s with ⟨-, e⟩ | ⟨-, t, i, ⟨-, -, ⟨e, -⟩ | ⟨e, -⟩ | ⟨e, -⟩⟩ | ⟨-, -, e, -⟩⟩ <;> rw [e]
  · rfl
  all_goals exact i.params

/-- Settles O48: what a step appends stands behind the trace before, and every unit keeps the parameters. -/
theorem stepOnlyExtendsTheTrace : Obligations.StepOnlyExtendsTheTrace := by
  intro s t e
  obtain ⟨evs, ht, -⟩ := trivial_traceProp.step e
  exact ⟨⟨evs, ht.symm⟩, params_units.step (fun _ _ => rfl) e⟩

/-! ### The cartridge chip select (10_state.md R34) -/

theorem csInactive_traceProp : TraceProp fun evs => evs.all csInactive = true where
  nil := rfl
  append hx hy := by rw [List.all_append, hx, hy]; rfl
  w _ _ _ _ _ := rfl
  r _ _ _ _ := rfl
  ctrl line lvl hne := by cases line <;> cases lvl <;> simp_all [csInactive]
  delay _ := rfl
  diag _ := rfl
  config _ _ := rfl

/-- Driving the lines without CS high never makes CS high. -/
theorem cs_set_ne_high (c : CtrlLines) (line : Line) (lvl : LineLevel) (hl : NotCsHigh line lvl) (hc : c.cs ≠ .high) :
    (c.set line lvl).cs ≠ .high := by
  cases line with
  | CS => exact fun hhigh => hl ⟨rfl, hhigh⟩
  | RD | WR => exact hc

theorem csNotHigh_units : ExecUnits NotCsHigh fun s t => s.ctrl.cs ≠ .high → t.ctrl.cs ≠ .high :=
  ctrl_units notCsHigh_lines (P := fun c => c.cs ≠ .high) cs_set_ne_high fun a v s =>
    (ctrl_busUnits (P := fun c => c.cs ≠ .high) cs_set_ne_high).byteWrite (fun _ => trivial) notCsHigh_lines
      (by simp [NotCsHigh]) a v s

/-- A line that an expansion drives has its event in the expansion's events. -/
theorem ctrl_mem_of_expands {line : Line} {lvl : Level} (hx : Expands s L evs) (hmem : .ctrlSet line lvl ∈ L) :
    .ctrl line lvl ∈ evs := by
  induction L generalizing evs with
  | nil => cases hmem
  | cons p ps ih =>
    obtain ⟨x, y, rfl, hd, hy⟩ := hx
    rcases List.mem_cons.mp hmem with rfl | hmem
    · refine List.mem_append_left _ ?_
      rw [Piece.Done] at hd
      cases hr : routeOf s.params.ctrlMap line with
      | direct =>
        rw [hr] at hd
        simp [hd]
      | expPin h p n =>
        rw [hr] at hd
        obtain ⟨rest, rfl, -⟩ := hd
        simp
    · exact List.mem_append_right _ (ih hy hmem)

/-- Settles O40: no unit drives CS high, and the address set of a transfer that succeeds drives it low. -/
theorem stepNeverActivatesTheCartridgeChipSelect : Obligations.StepNeverActivatesTheCartridgeChipSelect := by
  refine ⟨fun s t ⟨hs, hcs⟩ e => ⟨?trace, csNotHigh_units.step (fun _ _ => id) e hcs⟩, ?transfers⟩
  case trace =>
    obtain ⟨evs, ht, hevs⟩ := csInactive_traceProp.step e
    rw [ht, List.all_append, hs, hevs]
    rfl
  case transfers =>
    rintro i s t hi e hok
    obtain ⟨-, -, rfl⟩ := exec_eq_next e
    rcases hi with ⟨a, rfl⟩ | ⟨a, v, rfl⟩
    · cases e : byteRead a { s with busy := true } with
      | error c u => exact absurd (by rw [bodyOf, bind_error e]; rfl) (hok c)
      | ok d u =>
        obtain ⟨-, evs, ht, hx, -⟩ := (byteRead_samples a _).ok e
        rw [bodyOf, bind_ok e]
        exact ⟨evs, ht, ctrl_mem_of_expands hx (by simp [readPieces, addressPieces])⟩
    · cases e : byteWrite a v { s with busy := true } with
      | error c u => exact absurd (by rw [bodyOf, bind_error e]; rfl) (hok c)
      | ok d u =>
        obtain ⟨-, evs, ht, hx, -⟩ := (byteWrite_follows a v _).ok e
        rw [bodyOf, bind_ok e]
        exact ⟨evs, ht, ctrl_mem_of_expands hx (by simp [writePieces, addressPieces])⟩

/-! ### The write strobe (42_bus_controller.md R104) -/

/-- Every level but an active write strobe. -/
def NotWrHigh (line : Line) (lvl : LineLevel) : Prop := ¬ (line = .WR ∧ lvl = .high)

theorem notWrHigh_lines : BusLines NotWrHigh := by constructor <;> simp [NotWrHigh]

/-- Driving the lines without WR high never makes WR high. -/
theorem wr_set_ne_high (c : CtrlLines) (line : Line) (lvl : LineLevel) (hl : NotWrHigh line lvl) (hc : c.wr ≠ .high) :
    (c.set line lvl).wr ≠ .high := by
  cases line with
  | WR => exact fun hhigh => hl ⟨rfl, hhigh⟩
  | RD | CS => exact hc

/-- A failure in two runs of pieces is one in the first, or one in the second behind the first. -/
theorem cutShort_append {M : List Piece} {l l' : CtrlLines} (h : CutShort s (L ++ M) c evs l l') :
    CutShort s L c evs l l' ∨ ∃ x y, evs = x ++ y ∧ Expands s L x ∧ CutShort s M c y (linesThrough L l) l' := by
  induction L generalizing evs l with
  | nil => exact .inr ⟨[], evs, rfl, rfl, h⟩
  | cons p ps ih =>
    rcases h with h | ⟨x, y, rfl, hd, hy⟩
    · exact .inl (.inl h)
    · rcases ih hy with hy | ⟨x', y', rfl, hx', hy⟩
      · exact .inl (.inr ⟨x, y, rfl, hd, hy⟩)
      · exact .inr ⟨x ++ x', y', by rw [List.append_assoc], ⟨x, x', rfl, hd, hx'⟩, hy⟩

theorem linesDone_wr {p : Piece} {l : CtrlLines} (hp : p ≠ .ctrlSet .WR .high) (hl : l.wr ≠ .high) :
    (p.linesDone l).wr ≠ .high := by
  cases p with
  | ctrlSet line lvl => exact wr_set_ne_high _ _ _ (by cases line <;> cases lvl <;> simp_all [NotWrHigh, driven]) hl
  | portWrite | portRead | delay => exact hl

theorem linesCut_wr (p : Piece) {l : CtrlLines} (hl : l.wr ≠ .high) : (p.linesCut l).wr ≠ .high := by
  cases p with
  | ctrlSet line lvl => exact wr_set_ne_high _ _ _ (by simp [NotWrHigh]) hl
  | portWrite | portRead | delay => exact hl

theorem linesThrough_wr {l : CtrlLines} (hL : .ctrlSet .WR .high ∉ L) (hl : l.wr ≠ .high) :
    (linesThrough L l).wr ≠ .high := by
  induction L generalizing l with
  | nil => exact hl
  | cons p ps ih =>
    obtain ⟨hp, hps⟩ := not_or.mp (List.mem_cons.not.mp hL)
    exact ih hps (linesDone_wr (Ne.symm hp) hl)

/-- Pieces that do not drive WR high leave it inactive also where one of them fails. -/
theorem cutShort_wr {l l' : CtrlLines} (hL : .ctrlSet .WR .high ∉ L) (hl : l.wr ≠ .high)
    (h : CutShort s L c evs l l') : l'.wr ≠ .high := by
  induction L generalizing evs l with
  | nil => exact h.elim
  | cons p ps ih =>
    obtain ⟨hp, hps⟩ := not_or.mp (List.mem_cons.not.mp hL)
    rcases h with ⟨-, rfl⟩ | ⟨x, y, -, -, hy⟩
    · exact linesCut_wr p hl
    · exact ih hps (linesDone_wr (Ne.symm hp) hl) hy

/-- The pulse at the end of a WRITE_BYTE leaves WR low, or `Unknown` where one of its two pieces fails. -/
theorem cutShort_pulse {l l' : CtrlLines} (h : CutShort s [.ctrlSet .WR .high, .ctrlSet .WR .low] c evs l l') :
    l'.wr = .unknown := by
  rcases h with ⟨-, rfl⟩ | ⟨_, _, -, -, ⟨-, rfl⟩ | ⟨_, _, -, -, h⟩⟩
  · rfl
  · rfl
  · exact h.elim

theorem byteWrite_wr (a : Addr) (v : Byte) (s : State) (hs : s.ctrl.wr ≠ .high) :
    (after (byteWrite a v s)).ctrl.wr ≠ .high := by
  have hfollows := byteWrite_follows a v s
  have hpieces : writePieces s.params a v = (addressPieces a ++ [.portWrite .hD s.params.dataPort v,
      .portWrite .hD (otherPort s.params.dataPort) 0x00#8]) ++ [.ctrlSet .WR .high, .ctrlSet .WR .low] := by
    simp [writePieces]
  rw [hpieces] at hfollows
  cases e : byteWrite a v s with
  | ok u t =>
    obtain ⟨-, -, -, -, hctrl⟩ := hfollows.ok e
    rw [after_ok, hctrl, linesThrough_append]
    exact nofun
  | error c t =>
    obtain ⟨-, evs, -, hcut⟩ := hfollows.error e
    rcases cutShort_append hcut with hcut | ⟨x, y, -, -, hcut⟩
    · exact cutShort_wr (by simp [addressPieces]) hs hcut
    · rw [after_error, cutShort_pulse hcut]
      exact nofun

theorem wrNotHigh_units : ExecUnits NotWrHigh fun s t => s.ctrl.wr ≠ .high → t.ctrl.wr ≠ .high :=
  ctrl_units notWrHigh_lines (P := fun c => c.wr ≠ .high) wr_set_ne_high byteWrite_wr

/-- Settles O47: only WRITE_BYTE drives WR high, and its next piece drives it low. -/
theorem stepReleasesTheWriteStrobe : Obligations.StepReleasesTheWriteStrobe := by
  rintro s t ⟨hdirect, hwr⟩ e
  exact ⟨by rw [(stepOnlyExtendsTheTrace s t e).2, hdirect], wrNotHigh_units.step (fun _ _ => id) e hwr⟩

/-! ### The phase (10_state.md R36) -/

/-- Run in sequence, two operations that leave all but `h` alone do so together. -/
theorem OnlyHandle.bind {x : Op α} {f : α → Op β} (hx : OnlyHandle h s (after (x s)))
    (hf : ∀ a t, OnlyHandle h t (after (f a t))) : OnlyHandle h s (after ((x >>= f) s)) := by
  rw [bind_apply]
  cases e : x s with
  | ok a t =>
    rw [e] at hx
    exact hx.trans (hf a t)
  | error c t =>
    rw [e] at hx
    exact hx

theorem softVerify_only (h : Handle) (p : Port) (sc : Scope) (v : Byte) (s : State) :
    OnlyHandle h s (after (softVerify h p sc v s)) := by
  have hread := readRegister_only h (regIndex .gpio p) s
  unfold softVerify
  split <;> rename_i e <;> rw [e] at hread
  · exact hread.trans (logMismatch_only ..)
  · split <;> exact hread

theorem completes_only {x : Op α} (hx : OnlyHandle h s (after (x s))) : OnlyHandle h s (after (completes x s)) := by
  unfold completes
  split <;> rename_i e <;> rwa [e] at hx

/-- No operation but a bus operation changes the phase. -/
theorem body_phase (hi : isBusOperation i = false) (p : Params) (s : State) :
    (after (bodyOf p i s)).phase = s.phase := by
  cases i <;> cases hi
  case wrFrame h a r v => exact ((transactW_only h _ s).bind fun _ _ => .refl ..).phase
  case rdFrame h a r => exact ((transactR_only h _ s).bind fun _ _ => .refl ..).phase
  case init h c tp cs =>
    rw [bodyOf]
    rcases initHandle_spec h (c.setWidth 3) tp cs ((lastWritten (initWrites p) p.verifyReg).getD 0#8) s with
      ⟨-, e⟩ | ⟨-, t, i, ⟨-, -, ⟨e, -⟩ | ⟨e, -⟩ | ⟨e, -⟩⟩ | ⟨-, -, e, -⟩⟩
    · rw [bind_error e, after_error]
    iterate 3 rw [bind_error e]; exact i.phase
    · rw [bind_ok e]
      exact i.phase
  case destroy h => exact destroyHandle_phase s h
  case writeReg h i v => exact ((writeRegister_only h i v s).bind fun _ _ => .refl ..).phase
  case readReg h i out =>
    cases out with
    | absent => rfl
    | present =>
      have hread := (readRegister_only h i s).phase
      rw [bodyOf, if_neg (by decide), bind_apply]
      split <;> rename_i e <;> rwa [e] at hread
  case setPortMode h p m =>
    exact (OnlyHandle.bind (x := setMode h p m) ((writeRegister_only ..).bind fun _ _ => writeRegister_only ..)
      fun _ _ => .refl ..).phase
  case writePin h pin p v =>
    exact (OnlyHandle.bind (x := pinWrite h _ p _) ((readRegister_only ..).bind fun _ _ =>
      (writeRegister_only ..).bind fun _ _ => softVerify_only ..) fun _ _ => .refl ..).phase
  case writePort h p v =>
    exact (OnlyHandle.bind (x := portWrite h p v) ((writeRegister_only ..).bind fun _ _ => softVerify_only ..)
      fun _ _ => .refl ..).phase
  case readPin h pin p => exact (OnlyHandle.bind (readRegister_only ..) fun _ _ => .refl ..).phase
  case readPort h p => exact (OnlyHandle.bind (readRegister_only ..) fun _ _ => .refl ..).phase
  case isConnected h =>
    exact (OnlyHandle.bind (x := completes (readRegister h s.params.probeReg)) (completes_only (readRegister_only ..))
      fun _ _ => .refl ..).phase

/-- A bus operation that begins `Idle` ends so. -/
theorem busBody_phase (hi : isBusOperation i = true) (p : Params) (s : State) (hs : s.phase = .idle) :
    (after (bodyOf p i s)).phase = .idle := by
  cases i <;> cases hi
  case readByte a =>
    have hp := byteRead_phase a s
    rw [bodyOf, bind_apply]
    split <;> rename_i e <;> rwa [e] at hp
  case writeByte a v =>
    have hp := byteWrite_phase a v s
    rw [bodyOf, bind_apply]
    split <;> rename_i e <;> rwa [e] at hp
  case readBytes a n buf =>
    cases buf with
    | absent => exact hs
    | present =>
      have hp := (readRun_pieces a n s).2.1 hs
      rw [bodyOf, if_neg (by decide), bind_apply, bytesRead]
      cases (readRun a n s).failed <;> exact hp
  case readInfo info =>
    cases info with
    | absent => exact hs
    | present =>
      have hp := (readRun_pieces 0x0000#16 headerBlock s).2.1 hs
      rw [bodyOf, if_neg (by decide), bind_apply, infoRead]
      cases (readRun 0x0000#16 headerBlock s).failed <;> exact hp

theorem exec_quiet (hs : s.phase = .idle) (e : exec i s = .next t) : Quiet t := by
  obtain ⟨-, -, rfl⟩ := exec_eq_next e
  refine ⟨finish_busy _, ?_⟩
  rw [finish_phase]
  cases hi : isBusOperation i with
  | true => exact busBody_phase hi _ _ hs
  | false => rw [body_phase hi]; exact hs

/-- Settles O45: a transfer ends `Idle`, every other operation leaves the phase, and each ends with nothing in progress. -/
theorem stepEndsIdle : Obligations.StepEndsIdle := by
  intro s t hs e
  rcases step_cases e with ⟨-, rfl⟩ | ⟨c, rest, i, left, -, -, e⟩
  · exact hs
  · exact exec_quiet (s := { s with calls := rest }) hs.2 e

end Sys2Proof.Machine
end

section
/-!
PROOF. What every step keeps of the handles and the memories (10_state.md R19, R21, R46), the chip-select lines along the trace
(40_register_driver.md R86), and that construction meets these invariants (10_state.md R45).
-/

namespace Sys2Proof.Machine

variable {s t : State} {h k : Handle} {evs : List Event}

/-! ### Chip-select lines and initialized handles -/

/-- Settles O41: a register access and INIT leave the line high, DESTROY leaves it undriven. -/
theorem stepLeavesEveryChipDeselected : Obligations.StepLeavesEveryChipDeselected := by
  intro s t hs e
  have hunits := handle_units (Q := fun x => x.cslvl ≠ .low) (fun _ _ _ hl _ => by simp [hl])
    (fun _ ⟨_, _, _, hl⟩ => by simp [hl]) (fun _ _ => nofun)
  exact hunits.step (fun s cs hs k => by simpa using hs k) e hs

/-- Settles O43: a register access keeps a ready handle ready, INIT makes it so, DESTROY leaves it uninitialized. -/
theorem stepKeepsInitializedHandlesReady : Obligations.StepKeepsInitializedHandlesReady := by
  intro s t hs e
  have kept : ∀ x y, HandleKept x y → y.cslvl = .high → HandleReady x → HandleReady y := by
    rintro x y ⟨-, htransport, hcs, hinit, hcscfg⟩ hl hx hy
    obtain ⟨h₁, h₂, h₃, -⟩ := hx (hinit ▸ hy)
    exact ⟨htransport.trans h₁, hcs ▸ h₂, hcscfg.trans h₃, hl⟩
  have hunits := handle_units (Q := HandleReady) kept (fun _ hx _ => hx) (fun _ _ => nofun)
  exact hunits.step (fun s cs hs k => by simpa using hs k) e hs

/-! ### The chip-select fields and the trace (10_state.md R19, R42) -/

/-- The level and the configuration that events leave of a handle's line. -/
def csAfter (h : Handle) (evs : List Event) (x : LineLevel × CsState) : LineLevel × CsState :=
  (evs.foldl (csLevelAfter h) x.1, evs.foldl (csStateAfter h) x.2)

theorem csAfter_append (h : Handle) (x y : List Event) (l : LineLevel × CsState) :
    csAfter h (x ++ y) l = csAfter h y (csAfter h x l) := by simp [csAfter]

/-- The line's fields are what the appended events make of them, and its reference stays there. -/
def LinesFollow (s t : State) : Prop :=
  ∃ evs, t.trace = s.trace ++ evs ∧ ∀ h, ((s.handle h).cs.isSome = true → (t.handle h).cs.isSome = true) ∧
    ((t.handle h).cslvl, (t.handle h).cscfg) = csAfter h evs ((s.handle h).cslvl, (s.handle h).cscfg)

/-- Fields that were in step with the trace are so behind such events. -/
theorem LinesFollow.keeps (hf : LinesFollow s t) (hs : ChipSelectsFollowTrace s) : ChipSelectsFollowTrace t := by
  obtain ⟨evs, ht, hf⟩ := hf
  intro h
  obtain ⟨hcs, hlvl, hcfg⟩ := hs h
  obtain ⟨hcs', hfields⟩ := hf h
  obtain ⟨hlvl', hcfg'⟩ := Prod.ext_iff.mp hfields
  rw [ht, List.foldl_append, List.foldl_append, ← hlvl, ← hcfg]
  exact ⟨hcs' hcs, hlvl', hcfg'⟩

/-- A transaction leaves its own handle's line high and touches no configuration. -/
theorem csAfter_transaction (hT : Transaction h evs) (k : Handle) (l : LineLevel × CsState) :
    csAfter k evs l = (if h = k then .high else l.1, l.2) := by
  cases hT <;> by_cases hk : h = k <;>
    simp [csAfter, wEvents, rEvents, csLevelAfter, csStateAfter, driven, hk]

theorem csAfter_single (hS : Single evs) (k : Handle) (l : LineLevel × CsState) : csAfter k evs l = l := by
  cases hS <;> rfl

theorem linesFollow_only (o : OnlyHandle h s t) (hl : (t.handle h).cslvl = .high) (ht : Appends (Transaction h) s t) :
    LinesFollow s t := by
  obtain ⟨evs, ht, hT⟩ := ht
  obtain ⟨-, -, hcs, -, hcscfg⟩ := o.handle
  refine ⟨evs, ht, fun k => ?_⟩
  rw [csAfter_transaction hT]
  rcases otherHandle_cases h k with rfl | rfl
  · exact ⟨fun hs => hcs ▸ hs, by rw [if_pos rfl, hl, hcscfg]⟩
  · exact ⟨fun hs => by rwa [o.other], by rw [if_neg (by cases h <;> simp [otherHandle]), o.other]⟩

theorem linesFollow_same (hA : t.hA = s.hA) (hD : t.hD = s.hD) (ht : Appends Single s t) : LinesFollow s t := by
  obtain ⟨evs, ht, hS⟩ := ht
  exact ⟨evs, ht, fun k => by rw [State.handle_congr hA hD, csAfter_single hS]; exact ⟨id, rfl⟩⟩

theorem csAfter_sentEvents (h k : Handle) (a : ChipAddr) (ws : List (Byte × Byte)) (l : LineLevel × CsState)
    (hl : h = k → l.1 = .high) : csAfter k (sentEvents h a ws) l = l := by
  induction ws with
  | nil => rfl
  | cons w ws ih =>
    rw [sentEvents_cons, csAfter_append, csAfter_transaction (.w ..)]
    by_cases hk : h = k
    · rw [if_pos hk, ← hl hk, ih]
    · rw [if_neg hk, ih]

/-- INIT configures its line as an output held high; the transactions behind leave it so. -/
theorem linesFollow_initialized {a : ChipAddr} {ws : List (Byte × Byte)} (i : Initialized h a s t) (hT : Transaction h evs)
    (ht : t.trace = s.trace ++ [.csConfig h .outputHigh] ++ sentEvents h a ws ++ evs) : LinesFollow s t := by
  refine ⟨[.csConfig h .outputHigh] ++ sentEvents h a ws ++ evs, by simp [ht], fun k => ?_⟩
  rw [csAfter_append, csAfter_append, csAfter_transaction hT]
  rcases otherHandle_cases h k with rfl | rfl
  · rw [csAfter_sentEvents _ _ _ _ _ fun _ => by simp [csAfter, csLevelAfter], i.cslvl, i.cscfg, i.cs]
    simp [csAfter, csStateAfter]
  · have hne : h ≠ otherHandle h := by cases h <;> simp [otherHandle]
    rw [csAfter_sentEvents _ _ _ _ _ fun he => absurd he hne, i.other]
    simp [csAfter, csLevelAfter, csStateAfter, hne]

theorem linesFollow_init (h : Handle) (a : ChipAddr) (tp cs : Presence) (x : Byte) (s : State) :
    LinesFollow s (after (initHandle h a tp cs x s)) := by
  rcases initHandle_spec h a tp cs x s with ⟨-, e⟩ |
    ⟨-, t, i, ⟨-, -, ⟨e, before, w, behind, -, ht⟩ | ⟨e, ht⟩ | ⟨e, b, -, ht⟩⟩ | ⟨-, -, e, ht⟩⟩ <;> rw [e]
  · exact linesFollow_same rfl rfl ⟨[], by simp, .nil⟩
  · exact linesFollow_initialized i (.w ..) ht
  · exact linesFollow_initialized i (.r ..) ht
  · exact linesFollow_initialized i (.r ..) ht
  · exact linesFollow_initialized i (.r ..) ht

/-- DESTROY releases a line that is there. -/
theorem linesFollow_destroy (hcs : (s.handle h).cs.isSome = true) : LinesFollow s (destroyHandle h s) := by
  refine ⟨[.csConfig h .released], by rw [destroyHandle_trace, if_pos hcs], fun k => ?_⟩
  rcases otherHandle_cases h k with rfl | rfl
  · simp [csAfter, csLevelAfter, csStateAfter]
  · have hne : h ≠ otherHandle h := by cases h <;> simp [otherHandle]
    simp [csAfter, csLevelAfter, csStateAfter, hne]

/-- Settles O46: every unit's events are what it does to the lines. -/
theorem stepKeepsChipSelectsInStepWithTheTrace : Obligations.StepKeepsChipSelectsInStepWithTheTrace := by
  intro s t hs e
  have hunits := rel_units (R := fun s t => ChipSelectsFollowTrace s → ChipSelectsFollowTrace t) (fun _ => id)
    (fun f g => g ∘ f) (fun _ _ _ o hl ht => (linesFollow_only o hl ht).keeps)
    (fun _ _ _ hA hD ht => (linesFollow_same hA hD ht).keeps)
    (fun h a tp cs x s _ => (linesFollow_init h a tp cs x s).keeps)
    (fun h s hs => (linesFollow_destroy (hs h).1).keeps hs)
  exact hunits.step (fun _ _ => (linesFollow_same rfl rfl ⟨[], by simp, .nil⟩).keeps) e hs

/-! ### One chip-select line at a time (70_reset_and_hazards.md R141) -/

/-- A line is low only while its handle is the one in the transaction. -/
def LowOnlyInTransaction (b : BusState) (level : Handle → LineLevel) : Prop :=
  ∀ h, level h = .low → b = .selected h ∨ b = .sent h

theorem LowOnlyInTransaction.not_both {b : BusState} {level : Handle → LineLevel} (hb : LowOnlyInTransaction b level) :
    ¬ (level .hA = .low ∧ level .hD = .low) := by
  rintro ⟨hA, hD⟩
  rcases hb _ hA with rfl | rfl <;> rcases hb _ hD with h | h <;> cases h

/-- Such a step selects the one line it drives low, and deselects the one that was low. -/
theorem LowOnlyInTransaction.busStep {b b' : BusState} {ev : Event} {level : Handle → LineLevel}
    (hb : LowOnlyInTransaction b level) (e : busStep b ev = some b') :
    LowOnlyInTransaction b' fun h => csLevelAfter h (level h) ev := by
  intro k hk
  have hk' := hb k
  unfold Sys2Proof.busStep at e
  split at e
  case h_1 => simp_all [csLevelAfter]
  case h_2 h cfg => cases cfg <;> by_cases hh : h = k <;> simp_all [csLevelAfter]
  case h_6 h => by_cases hh : h = k <;> simp_all [csLevelAfter]
  case h_7 h h' _ _ => by_cases hh : h = h' <;> simp_all [csLevelAfter]
  case h_8 h h' _ _ _ => by_cases hh : h = h' <;> simp_all [csLevelAfter]
  case h_9 h h' => by_cases hh : h = h' <;> by_cases hk : h' = k <;> simp_all [csLevelAfter, driven]
  all_goals simp_all [csLevelAfter]

theorem LowOnlyInTransaction.busRun {b b' : BusState} {level : Handle → LineLevel} (hb : LowOnlyInTransaction b level)
    (e : busRun b evs = some b') : LowOnlyInTransaction b' fun h => evs.foldl (csLevelAfter h) (level h) := by
  induction evs generalizing b level with
  | nil =>
    cases e
    exact hb
  | cons ev evs ih =>
    obtain ⟨c, hc, e⟩ := Option.bind_eq_some_iff.mp e
    exact ih (hb.busStep hc) e

/-- Settles O42: every beginning of a disciplined trace is a run of the discipline. -/
theorem atMostOneChipSelectIsLow : Obligations.AtMostOneChipSelectIsLow := by
  rintro s t hs e seen ⟨behind, ht⟩
  have hrun : Disciplined t.trace := stepKeepsTheTransactionDiscipline s t hs e
  rw [Disciplined, ← ht, busRun_append] at hrun
  obtain ⟨b, hseen, -⟩ := Option.bind_eq_some_iff.mp hrun
  have hstart : LowOnlyInTransaction .free fun _ => .unknown := fun _ => nofun
  exact (hstart.busRun hseen).not_both

/-! ### Memories (10_state.md R37) -/

/-- What stands behind the transport keeps the cartridge's ROM. -/
def RomKept (m m' : EnvModel) : Prop :=
  match m, m' with
  | .free, .free => True
  | .ideal e, .ideal e' => e'.rom = e.rom
  | .free, .ideal _ | .ideal _, .free => False

theorem RomKept.refl (m : EnvModel) : RomKept m m := by cases m <;> trivial

theorem romKept_takeFrame (m : EnvModel) (h : Handle) (bytes : List Byte) : RomKept m (m.takeFrame h bytes) := by
  unfold EnvModel.takeFrame
  split
  · exact setReg_rom ..
  · exact .refl _

theorem romKept_after (e : Env) (h : Handle) (bytes : List Byte) (took : Bool) :
    RomKept e.model (e.after h bytes took).model := by
  cases took
  · exact .refl _
  · exact romKept_takeFrame ..

theorem romKept_setCtrl (line : Line) (lvl : LineLevel) (s : State) : RomKept s.env.model (s.setCtrl line lvl).env.model := by
  unfold State.setCtrl
  cases hm : s.env.model with
  | free => simp [RomKept, hm]
  | ideal e => dsimp only; split <;> simp [RomKept, hm, IdealEnv.recordWrite]

/-- Canonical memories stay so where the buffer and the ROM stay. -/
theorem memoriesCanonical_of_kept (hbuf : t.buf = s.buf) (hrom : RomKept s.env.model t.env.model)
    (hs : MemoriesCanonical s) : MemoriesCanonical t := by
  obtain ⟨hb, hm⟩ := hs
  refine ⟨hbuf ▸ hb, ?_⟩
  cases h₁ : s.env.model <;> cases h₂ : t.env.model <;> rw [h₁] at hm hrom <;> rw [h₂] at hrom
  · trivial
  · trivial
  · exact hrom.elim
  · exact (congrArg Memory.wf hrom).mpr hm

theorem memoriesCanonical_of_eq (hbuf : t.buf = s.buf) (henv : t.env = s.env) (hs : MemoriesCanonical s) :
    MemoriesCanonical t :=
  memoriesCanonical_of_kept hbuf (henv ▸ .refl _) hs

theorem memoriesCanonical_afterW (h : Handle) (bytes : List Byte) (s : State) (hs : MemoriesCanonical s) :
    MemoriesCanonical (s.afterW h bytes) :=
  memoriesCanonical_of_kept (afterW_only ..).buf (by simpa [State.afterW] using romKept_after s.env h bytes _) hs

theorem memoriesCanonical_afterR (h : Handle) (bytes : List Byte) (s : State) (hs : MemoriesCanonical s) :
    MemoriesCanonical (s.afterR h bytes) :=
  memoriesCanonical_of_kept (afterR_only ..).buf (by simpa [State.afterR] using romKept_after s.env h bytes _) hs

theorem memoriesCanonical_transactW (h : Handle) (bytes : List Byte) (s : State) (hs : MemoriesCanonical s) :
    MemoriesCanonical (after (transactW h bytes s)) := by
  rw [transactW_apply]
  split <;> exact memoriesCanonical_afterW h bytes s hs

theorem memoriesCanonical_transactR (h : Handle) (bytes : List Byte) (s : State) (hs : MemoriesCanonical s) :
    MemoriesCanonical (after (transactR h bytes s)) := by
  rw [transactR_apply]
  split <;> exact memoriesCanonical_afterR h bytes s hs

theorem memoriesCanonical_writeRegister (h : Handle) (i v : Byte) (s : State) (hs : MemoriesCanonical s) :
    MemoriesCanonical (after (writeRegister h i v s)) := by
  cases hi : (s.handle h).init
  · rwa [writeRegister_uninitialized hi]
  · rw [writeRegister_apply hi]
    split
    · exact memoriesCanonical_of_eq (State.setCache_buf ..) (State.setCache_env ..) (memoriesCanonical_afterW h _ s hs)
    · exact memoriesCanonical_afterW h _ s hs

theorem memoriesCanonical_readRegister (h : Handle) (i : Byte) (s : State) (hs : MemoriesCanonical s) :
    MemoriesCanonical (after (readRegister h i s)) := by
  cases hi : (s.handle h).init
  · rwa [readRegister_uninitialized hi]
  · rw [readRegister_apply hi]
    split <;> exact memoriesCanonical_afterR h _ s hs

theorem memoriesCanonical_busUnits :
    Units (fun _ => True) NotCsHigh (fun s t => MemoriesCanonical s → MemoriesCanonical t) where
  refl _ := id
  trans f g := g ∘ f
  write h i v s _ := memoriesCanonical_writeRegister h i v s
  read h i s := memoriesCanonical_readRegister h i s
  log _ _ _ _ _ _ := memoriesCanonical_of_eq (by simp) (by simp)
  ctrlEvent _ _ _ _ := id
  setCtrl line lvl s _ := memoriesCanonical_of_kept (by simp) (romKept_setCtrl line lvl s)
  phase _ _ := id
  delay _ _ := id

theorem memoriesCanonical_sendWrites (h : Handle) (a : ChipAddr) (ws : List (Byte × Byte)) (s : State)
    (hs : MemoriesCanonical s) : MemoriesCanonical (after (sendWrites h a ws s)) := by
  induction ws generalizing s with
  | nil => exact hs
  | cons w ws ih =>
    exact memoriesCanonical_busUnits.bind (memoriesCanonical_transactW h _ s) (fun _ t => ih t) hs

theorem memoriesCanonical_initHandle (h : Handle) (a : ChipAddr) (tp cs : Presence) (x : Byte) (s : State)
    (hs : MemoriesCanonical s) : MemoriesCanonical (after (initHandle h a tp cs x s)) := by
  have U := memoriesCanonical_busUnits
  unfold initHandle
  split
  · exact hs
  rw [update_bind, getParams_bind]
  refine U.bind (memoriesCanonical_sendWrites h a _ _) (fun _ t => U.bind (memoriesCanonical_transactR h _ t) fun b u => ?_)
    (memoriesCanonical_of_eq (adoptArguments_buf ..) (adoptArguments_env ..) hs)
  split
  · exact memoriesCanonical_of_eq (markInitialized_buf ..) (markInitialized_env ..)
  · exact id

theorem memoriesCanonical_units : ExecUnits NotCsHigh fun s t => MemoriesCanonical s → MemoriesCanonical t where
  toUnits := memoriesCanonical_busUnits
  lines := notCsHigh_lines
  write_byte := memoriesCanonical_busUnits.byteWrite (fun _ => trivial) notCsHigh_lines (by simp [NotCsHigh])
  frameW h _ _ _ s := memoriesCanonical_transactW h _ s
  frameR h _ _ s := memoriesCanonical_transactR h _ s
  init h a tp cs x s _ := memoriesCanonical_initHandle h a tp cs x s
  destroy h s := memoriesCanonical_of_eq (destroyHandle_buf s h) (destroyHandle_env s h)
  start _ := id
  stop _ _ := id
  storeOut _ _ := id
  storeBuf n got _ s hs := ⟨bufferAfter_wf hs.1 n got s.draws, hs.2⟩
  storeInfo _ _ _ := id
  logHeader _ _ := id

/-- Settles O44: the ROM stays, and the buffer's writes keep its form. -/
theorem stepKeepsMemoriesCanonical : Obligations.StepKeepsMemoriesCanonical := fun _ _ hs e =>
  memoriesCanonical_units.step (fun _ _ => id) e hs

/-! ### Construction (10_state.md R45) -/

/-- Settles O36: construction sets each field as asked, and the defaults are those of the table. -/
theorem constructionState : Obligations.ConstructionState := by
  refine ⟨fun p => ⟨fun h => ?handles, rfl, rfl, rfl, rfl, rfl⟩, ⟨_, _, rfl⟩, rfl, rfl, rfl, rfl, rfl, rfl, rfl, rfl, rfl,
    ?lines, rfl, rfl⟩
  case handles => cases h <;> exact ⟨rfl, rfl, rfl⟩
  case lines => exact Nat.zero_ne_one

/-- Settles O37: the trace and the buffer are empty, no line is driven and no handle initialized. -/
theorem resetMeetsTheInvariants : Obligations.ResetMeetsTheInvariants := by
  refine ⟨rfl, rfl, ⟨rfl, nofun⟩, fun h => ?_, fun h => ?_, ⟨Memory.wf_nil, trivial⟩, ⟨rfl, rfl⟩, fun h => ?_, nofun⟩ <;> cases h
  iterate 2 exact nofun
  iterate 2 exact nofun
  iterate 2 exact ⟨rfl, rfl, rfl⟩

end Sys2Proof.Machine
end

section
/-!
PROOF. The bus controller with every line `Direct` (42_bus_controller.md R101 to R105, 70_reset_and_hazards.md R144): where a
transfer fails, and what its events are up to there.
-/

namespace Sys2Proof.Machine

variable {s t u w : State} {a : Addr} {v : Byte} {c : Cause} {L : List Piece} {evs : List Event}

/-! ### READ_BYTE -/

/-- A READ_BYTE fails in its address set or at its sample. -/
theorem byteRead_error_cases (hm : s.params.ctrlMap = .direct) (e : byteRead a s = .error c t) :
    (∃ u, addressSet a s = .error c u ∧ t = { u with phase := .idle }) ∨
    ∃ u w, addressSet a s = .ok () u ∧ portRead .hD u.params.dataPort u.strobed = .error c w ∧
      t = { w with phase := .idle } := by
  rw [byteRead_apply hm] at e
  split at e
  · rename_i u h₁
    cases e
    exact .inl ⟨u, h₁, rfl⟩
  · rename_i u h₁
    split at e
    · rename_i w h₂
      cases e
      exact .inr ⟨u, w, h₁, h₂, rfl⟩
    · cases e

/-- A sample that fails behind its address set: RD stays low, and on an uninitialized `hD` nothing is sent. -/
theorem sample_error (hm : s.params.ctrlMap = .direct) (h₁ : addressSet a s = .ok () u)
    (h₂ : portRead .hD u.params.dataPort u.strobed = .error c w) :
    BusKept s w ∧ w.ctrl = ⟨.low, .low, .low⟩ ∧
      w.hA.cache = setReg22 (setReg22 s.hA.cache 0x14#8 (addrLow a)) 0x15#8 (addrHigh a) ∧
      w.hD.cache = s.hD.cache ∧ ∃ g g',
      let strobe := addressSetEvents s.hA.chipAddr a g g' ++ [.delay s.params.tAS, .ctrl .RD .low, .delay s.params.tSS]
      ((s.hD.init = false ∧ c = .notInitialized ∧ w.hD = s.hD ∧ w.trace = s.trace ++ strobe) ∨
       (s.hD.init = true ∧ c = .txRxFail ∧ w.trace = s.trace ++ (strobe ++
          rEvents .hD (frameR s.hD.chipAddr (regIndex .gpio s.params.dataPort)) none))) := by
  obtain ⟨-, k, hD, hc, -, hA, g, g', ht⟩ := addressSet_ok hm h₁
  rcases readRegister_error h₂ with ⟨hi, rfl, rfl⟩ | ⟨hi, rfl, o, ht₂, -, hk⟩
  · simp only [State.handle, strobed_hD, hD] at hi
    refine ⟨k.trans (strobed_kept u), by simp [hc, CtrlLines.set], by simp [hA], by simp [hD], g, g',
      .inl ⟨hi, rfl, by simp [hD], ?_⟩⟩
    simp [ht, k.params]
  · have hother := o.other
    simp only [State.handle, otherHandle, strobed_hA, strobed_hD, hD] at hi ht₂ hk hother
    refine ⟨(k.trans (strobed_kept u)).trans o.bus, by simp [o.ctrl, hc, CtrlLines.set], by simp [hother, hA], hk, g, g',
      .inr ⟨hi, rfl, ?_⟩⟩
    simp [ht₂, ht, k.params]

/-- Settles O21: the sample succeeds, the sample fails, or the address set does. -/
theorem readByteSequencesAddressStrobeAndSample : Obligations.ReadByteSequencesAddressStrobeAndSample := by
  intro a s hb hm hiA hiD
  have hbody := exec_next (i := .readByte a) hb rfl
  rw [bodyOf] at hbody
  cases e : byteRead a { s with busy := true } with
  | ok d t =>
    obtain ⟨-, -, k, hp, hkD, hctrl, hkA, g, g', ht⟩ := byteRead_ok (s := { s with busy := true }) hm e
    rw [bind_ok e] at hbody
    obtain ⟨⟨hsession, -, hA, hD⟩, hdata⟩ := finish_busFrame (r := .ok (.okByte d) t) k hp
    exact ⟨_, _, hbody, ht, hp, hsession, hdata, hA, hD, hkD, .inl ⟨g, g', d, rfl, rfl, hctrl, hkA⟩⟩
  | error c t =>
    rw [bind_error e] at hbody
    rcases byteRead_error_cases (s := { s with busy := true }) hm e with ⟨u, h₁, rfl⟩ | ⟨u, w, h₁, h₂, rfl⟩
    · obtain ⟨k, hD', hctrl, hcause, hcells, -⟩ := addressSet_error (s := { s with busy := true }) hm hiA h₁
      obtain ⟨evs, ht, hev, hcut⟩ := addressSet_cut (s := { s with busy := true }) hm hiA h₁
      rw [cutShort_with_busy] at hcut
      obtain ⟨⟨hsession, -, hA, hD⟩, hdata⟩ := finish_busFrame (s := s) (r := .error c _) (k.trans (idle_kept u)) rfl
      exact ⟨_, _, hbody, ht, rfl, hsession, hdata, hA, hD, congrArg HandleState.cache hD',
        .inr (.inr ⟨c, rfl, hcut, hev, hctrl, hcause, hcells⟩)⟩
    · obtain ⟨k, hctrl, hkA, hkD, g, g', ⟨hu, -⟩ | ⟨-, rfl, ht⟩⟩ :=
        sample_error (s := { s with busy := true }) hm h₁ h₂
      · simp [hiD] at hu
      obtain ⟨⟨hsession, -, hA, hD⟩, hdata⟩ := finish_busFrame (s := s) (r := .error .txRxFail _) (k.trans (idle_kept w)) rfl
      exact ⟨_, _, hbody, ht, rfl, hsession, hdata, hA, hD, hkD, .inr (.inl ⟨g, g', rfl, rfl, hctrl, hkA⟩)⟩

/-! ### WRITE_BYTE -/

/-- The two writes of a WRITE_BYTE to the data expander (42_bus_controller.md R104). -/
def dataWrites (p : Port) (v : Byte) : Op Unit := do
  portWrite .hD p v
  portWrite .hD (otherPort p) 0x00#8

/-- The pieces of `dataWrites`. -/
def dataPieces (p : Port) (v : Byte) : List Piece := [.portWrite .hD p v, .portWrite .hD (otherPort p) 0x00#8]

theorem dataWrites_follows (p : Port) (v : Byte) (s : State) : Follows (dataWrites p v) s (dataPieces p v) :=
  (portWrite_follows ..).bind fun _ _ _ _ => portWrite_follows ..

theorem dataWrites_uninitialized (hi : s.hD.init = false) (p : Port) (v : Byte) :
    dataWrites p v s = .error .notInitialized s :=
  bind_error (portWrite_uninitialized (h := .hD) hi v)

/-- A WRITE_BYTE fails in its address set or at its data writes. -/
theorem byteWrite_error_cases (hm : s.params.ctrlMap = .direct) (e : byteWrite a v s = .error c t) :
    (∃ u, addressSet a s = .error c u ∧ t = { u with phase := .idle }) ∨
    ∃ u w, addressSet a s = .ok () u ∧ dataWrites s.params.dataPort v { u with phase := .writeActive } = .error c w ∧
      t = { w with phase := .idle } := by
  rw [byteWrite_apply hm] at e
  split at e
  · rename_i u h₁
    cases e
    exact .inl ⟨u, h₁, rfl⟩
  · rename_i u h₁
    have hp : u.params.dataPort = s.params.dataPort := by rw [(addressSet_ok hm h₁).2.1.params]
    split at e
    · rename_i w h₂
      cases e
      exact .inr ⟨u, w, h₁, by rw [← hp]; exact bind_error h₂, rfl⟩
    · rename_i w h₂
      split at e
      · rename_i x h₃
        cases e
        exact .inr ⟨u, x, h₁, by rw [← hp]; exact (bind_ok h₂).trans h₃, rfl⟩
      · cases e

/-- Port writes that fail touch no control line. -/
theorem cutShort_portWrites {l l' : CtrlLines} (hL : ∀ p ∈ L, ∃ h q v, p = .portWrite h q v)
    (hcut : CutShort s L c evs l l') : evs.any isCtrl = false ∧ l' = l := by
  induction L generalizing evs l with
  | nil => exact hcut.elim
  | cons p ps ih =>
    obtain ⟨⟨h, q, v, rfl⟩, hps⟩ := List.forall_mem_cons.mp hL
    rcases hcut with ⟨hcut, rfl⟩ | ⟨x, y, rfl, ⟨-, g, -, rfl⟩, hy⟩
    · rcases hcut with ⟨-, -, rfl⟩ | ⟨-, ⟨-, rfl⟩ | ⟨-, -, rfl⟩⟩
      · exact ⟨rfl, rfl⟩
      · exact ⟨by simp [wEvents, isCtrl], rfl⟩
      · exact ⟨portWriteEvents_isCtrl .., rfl⟩
    · obtain ⟨hev, rfl⟩ := ih hps hy
      exact ⟨by rw [List.any_append, portWriteEvents_isCtrl, hev]; rfl, rfl⟩

/-- Data writes that fail on an initialized `hD`: at the first or at the second. -/
theorem dataWrites_error {p : Port} (hi : s.hD.init = true) (e : dataWrites p v s = .error c t) :
    OnlyHandle .hD s t ∧ (c = .txFail ∨ (c = .txRxFail ∧ s.params.verifyReadFail = .fail)) ∧
      (∀ k (hk : k < 22), k ≠ 0x14 → k ≠ 0x15 → t.hD.cache[k] = s.hD.cache[k]) ∧
      ∃ evs, t.trace = s.trace ++ evs ∧ evs.any isCtrl = false ∧ CutShort s (dataPieces p v) c evs s.ctrl t.ctrl := by
  obtain ⟨-, evs, ht, hcut⟩ := (dataWrites_follows p v s).error e
  have hev := (cutShort_portWrites (by simp [dataPieces]) hcut).1
  rcases bind_eq_error e with h₁ | ⟨_, u, h₁, h₂⟩
  · obtain ⟨o, hcause, hcells, -⟩ := portWrite_failed (h := .hD) hi h₁
    exact ⟨o, hcause, hcells, evs, ht, hev, hcut⟩
  · obtain ⟨hi₁, o, -, hk, -⟩ := portWrite_ok h₁
    obtain ⟨o', hcause, hcells, -⟩ := portWrite_failed (h := .hD) (by rw [o.init]; exact hi₁) h₂
    refine ⟨o.trans o', by rwa [o.params] at hcause, fun k hk' n₁ n₂ => (hcells k hk' n₁ n₂).trans ?_, evs, ht, hev, hcut⟩
    rw [hk]
    exact setReg22_olat_other _ _ _ _ _ n₁ n₂

/-- Settles O22: the transfer succeeds, a data write fails behind the address set, or the address set does. -/
theorem writeByteSequencesAddressDataAndPulse : Obligations.WriteByteSequencesAddressDataAndPulse := by
  intro a v s hb hm hiA hiD
  have hbody := exec_next (i := .writeByte a v) hb rfl
  rw [bodyOf] at hbody
  cases e : byteWrite a v { s with busy := true } with
  | ok _ t =>
    obtain ⟨k, hp, hctrl, hkA, hkD, g, g', g₁, g₂, ht⟩ := byteWrite_ok (s := { s with busy := true }) hm e
    rw [bind_ok e] at hbody
    obtain ⟨⟨hsession, -, hA, hD⟩, hdata⟩ := finish_busFrame (r := .ok .ok t) k hp
    exact ⟨_, _, hbody, ht, hp, hsession, hdata, hA, hD, .inl ⟨g, g', g₁, g₂, rfl, rfl, hctrl, hkA, hkD⟩⟩
  | error c t =>
    rw [bind_error e] at hbody
    rcases byteWrite_error_cases (s := { s with busy := true }) hm e with ⟨u, h₁, rfl⟩ | ⟨u, w, h₁, h₂, rfl⟩
    · obtain ⟨k, hD', hctrl, hcause, hcells, -⟩ := addressSet_error (s := { s with busy := true }) hm hiA h₁
      obtain ⟨evs, ht, hev, hcut⟩ := addressSet_cut (s := { s with busy := true }) hm hiA h₁
      rw [cutShort_with_busy] at hcut
      obtain ⟨⟨hsession, -, hA, hD⟩, hdata⟩ := finish_busFrame (s := s) (r := .error c _) (k.trans (idle_kept u)) rfl
      exact ⟨_, _, hbody, ht, rfl, hsession, hdata, hA, hD,
        .inr (.inr ⟨c, rfl, hcut, hev, hctrl, congrArg HandleState.cache hD', hcause, hcells⟩)⟩
    · obtain ⟨-, k, hD', hctrl, -, hkA, g, g', ht⟩ := addressSet_ok (s := { s with busy := true }) hm h₁
      have k' := k.trans (phase_kept .writeActive u)
      obtain ⟨o, hcause, hcells, evs, ht₂, hev, hcut⟩ := dataWrites_error (by simp [hD', hiD]) h₂
      have hother : w.hA = u.hA := o.other
      rw [cutShort_congr k', cutShort_with_busy, show State.ctrl { u with phase := .writeActive } = u.ctrl from rfl, hctrl] at hcut
      rw [k'.params] at hcause
      obtain ⟨⟨hsession, -, hA, hD⟩, hdata⟩ :=
        finish_busFrame (s := s) (r := .error c _) ((k'.trans o.bus).trans (idle_kept w)) rfl
      refine ⟨_, _, hbody, ?_, rfl, hsession, hdata, hA, hD,
        .inr (.inl ⟨g, g', evs, c, rfl, rfl, hcut, hev, hcause, o.ctrl.trans hctrl, hother ▸ hkA, ?_⟩)⟩
      · simp [ht₂, ht]
      · simpa [hD'] using hcells

end Sys2Proof.Machine
end

section
/-!
PROOF. READ_BYTES and READ_INFO with every line `Direct` (42_bus_controller.md R105, 43_header_parser.md R109, R119), both one run
of byte reads; and the transactions of every transfer (30_encoding.md R82, 70_reset_and_hazards.md R153).
-/

namespace Sys2Proof.Machine

variable {s t : State} {a : Addr} {v d : Byte} {n : Nat}

/-! ### READ_BYTES -/

/-- The state a READ_BYTES ends in, whether it succeeds or fails (42_bus_controller.md R105). -/
def State.filled (a : Addr) (n : Nat) (s : State) : State :=
  { (readRun a n s).state with
    buf := bufferAfter (readRun a n s).state.buf n (readRun a n s).got (readRun a n s).state.draws
    draws := (readRun a n s).state.draws + (n - (readRun a n s).got.length) }

theorem bytesRead_ok (hf : (readRun a n s).failed = none) : bytesRead a n s = .ok () (s.filled a n) := by
  simp only [bytesRead, hf]
  rfl

theorem bytesRead_error {c : Cause} (hf : (readRun a n s).failed = some c) :
    bytesRead a n s = .error c (s.filled a n) := by
  simp only [bytesRead, hf]
  rfl

/-- A READ_BYTES run as a caller operation ends in the filled state, with the run's failure as its result. -/
theorem exec_readBytes (hb : s.busy = false) (hn : n < 2 ^ s.params.lenWidth) :
    exec (.readBytes a n .present) s = .next { State.filled a n { s with busy := true } with
      result := some ((readRun a n { s with busy := true }).failed.elim .ok .fail), busy := false } := by
  have hr : refusalOf s (.readBytes a n .present) = none := refusalOf_eq_none_iff.mpr hn
  rw [exec_next hb hr, bodyOf, if_neg (by decide)]
  cases hf : (readRun a n { s with busy := true }).failed with
  | none => rw [bind_ok (bytesRead_ok hf)]; rfl
  | some c => rw [bind_error (bytesRead_error hf)]; rfl

/-- A READ_BYTES of no bytes changes nothing. -/
theorem filled_zero (a : Addr) (s : State) : s.filled a 0 = s := rfl

/-- The buffer of a READ_BYTES: the bytes received in order, and nothing at or above the length touched. -/
theorem read_filled (hw : s.buf.wf) (hbuf : (readRun a n s).state.buf = s.buf) (hl : (readRun a n s).got.length ≤ n) :
    (∀ k, k < (readRun a n s).got.length → (s.filled a n).buf.read k = (readRun a n s).got.getD k 0#8) ∧
      ∀ k, n ≤ k → (s.filled a n).buf.read k = s.buf.read k := by
  simp only [State.filled, hbuf, read_bufferAfter hw n _ _ _ hl]
  exact ⟨fun k hk => if_pos hk, fun k hk => by rw [if_neg (by omega), if_neg (by omega)]⟩

/-- Settles O23: the run's bytes are the data bytes of its events, and the buffer holds them. -/
theorem readBytesFillsTheBufferUpToTheFirstFailure : Obligations.ReadBytesFillsTheBufferUpToTheFirstFailure := by
  intro a n s hb hm hiA hiD hw hn
  obtain ⟨k, -, -, ⟨evs, ht, hgot⟩, hend⟩ := readRun_spec (s := { s with busy := true }) hm hiA hiD a n
  have hl : (readRun a n { s with busy := true }).got.length ≤ n := by
    rcases hend with ⟨-, hl, -⟩ | ⟨hl, -⟩ <;> omega
  obtain ⟨hread, habove⟩ := read_filled (s := { s with busy := true }) hw k.buf hl
  refine ⟨_, evs, exec_readBytes hb hn, ht, ?_⟩
  dsimp only at hgot ⊢
  rw [hgot]
  refine ⟨hread, habove, ?result, ?zero, k.out, k.info, ⟨k.params, k.calls, rfl⟩, k.hA, k.hD, k.cacheD, k.cacheA⟩
  case result =>
    rcases hend with ⟨hf, hl, -⟩ | ⟨hl, hf | hf⟩ <;> rw [hf]
    · exact .inl ⟨rfl, hl⟩
    · exact .inr ⟨hl, .inl rfl⟩
    · exact .inr ⟨hl, .inr rfl⟩
  case zero =>
    rintro rfl
    rw [filled_zero, ← hb]
    rfl

/-! ### READ_INFO -/

/-- The state of a READ_INFO whose bulk read succeeds. -/
def State.parsed (s : State) : State :=
  let r := readRun 0x0000#16 headerBlock s
  { r.state with
    info := parseHeader r.state.params.titleCap r.got r.state.draws
    draws := r.state.draws + parseDraws }

theorem infoRead_ok (hf : (readRun 0x0000#16 headerBlock s).failed = none) : infoRead s = .ok () s.parsed := by
  simp only [infoRead, hf]
  rfl

theorem infoRead_error {c : Cause} (hf : (readRun 0x0000#16 headerBlock s).failed = some c) :
    infoRead s = .error c ((readRun 0x0000#16 headerBlock s).state.emit (.diag (.headerReadFailed c))) := by
  simp only [infoRead, hf]
  rfl

/-- A READ_INFO whose bulk read succeeds, run as a caller operation. -/
theorem exec_readInfo_ok (hb : s.busy = false) (hf : (readRun 0x0000#16 headerBlock { s with busy := true }).failed = none) :
    exec (.readInfo .present) s = .next (finish (.ok .ok (State.parsed { s with busy := true }))) := by
  rw [exec_next hb rfl, bodyOf, if_neg (by decide), bind_ok (infoRead_ok hf)]
  rfl

theorem exec_readInfo_error {c : Cause} (hb : s.busy = false)
    (hf : (readRun 0x0000#16 headerBlock { s with busy := true }).failed = some c) :
    exec (.readInfo .present) s = .next (finish (.error c
      ((readRun 0x0000#16 headerBlock { s with busy := true }).state.emit (.diag (.headerReadFailed c))))) := by
  rw [exec_next hb rfl, bodyOf, if_neg (by decide), bind_error (infoRead_error hf)]

/-- Settles O27: the record is parsed from the run's bytes, or the run's failure is reported and the record stays. -/
theorem readInfoParsesTheBytesItReceived : Obligations.ReadInfoParsesTheBytesItReceived := by
  intro s hb hm hiA hiD
  obtain ⟨k, -, hphase, ⟨evs, ht, hgot⟩, hend⟩ :=
    readRun_spec (s := { s with busy := true }) hm hiA hiD 0x0000#16 headerBlock
  have hphase := hphase (by decide)
  have hbuf : ∀ i, (readRun 0x0000#16 headerBlock { s with busy := true }).state.buf.read i = s.buf.read i :=
    fun i => by rw [k.buf]
  dsimp only at hgot
  rcases hend with ⟨hf, hl, hctrl⟩ | ⟨hl, hf⟩
  · refine ⟨_, evs, exec_readInfo_ok hb hf, ht, k.out, hbuf, ⟨k.params, k.calls, rfl⟩, hphase, k.hA, k.hD,
      k.cacheD, k.cacheA, ?_⟩
    dsimp only
    rw [hgot]
    have hparsed := parseHeader_parsed s.params.titleCap (readRun 0x0000#16 headerBlock { s with busy := true }).got
      (readRun 0x0000#16 headerBlock { s with busy := true }).state.draws
    have hinfo : (finish (.ok .ok (State.parsed { s with busy := true }))).info = parseHeader s.params.titleCap
        (readRun 0x0000#16 headerBlock { s with busy := true }).got
        (readRun 0x0000#16 headerBlock { s with busy := true }).state.draws := by
      rw [finish_info, after_ok, State.parsed, k.params]
    rw [← hinfo] at hparsed
    exact .inl ⟨rfl, hl, hctrl (by decide), hparsed⟩
  · have hcause : ∃ c, (readRun 0x0000#16 headerBlock { s with busy := true }).failed = some c := by
      rcases hf with hf | hf <;> exact ⟨_, hf⟩
    obtain ⟨c, hf⟩ := hcause
    refine ⟨_, evs ++ [.diag (.headerReadFailed c)], exec_readInfo_error hb hf, ?_, k.out, hbuf, ⟨k.params, k.calls, rfl⟩,
      hphase, k.hA, k.hD, k.cacheD, k.cacheA, .inr ⟨c, rfl, ?_, k.info, by simp⟩⟩
    · rw [finish_trace, after_error, State.emit_trace, ht, List.append_assoc]
    · rw [List.filterMap_append, hgot, show List.filterMap _ [Event.diag (.headerReadFailed c)] = [] from rfl, List.append_nil]
      exact hl

/-! ### Transactions -/

@[simp] theorem transactions_append (x y : List Event) : transactions (x ++ y) = transactions x + transactions y :=
  List.countP_append

@[simp] theorem transactions_wEvents (h : Handle) (bytes : List Byte) (ok : Bool) : transactions (wEvents h bytes ok) = 1 :=
  rfl

@[simp] theorem transactions_rEvents (h : Handle) (bytes : List Byte) (answer : Option Byte) :
    transactions (rEvents h bytes answer) = 1 := rfl

@[simp] theorem transactions_verifyEvents (h : Handle) (chip : ChipAddr) (p : Port) (sc : Scope) (x : Byte)
    (g : Option Byte) : transactions (verifyEvents h chip p sc x g) = 1 := by
  unfold verifyEvents
  rw [transactions_append, transactions_rEvents]
  cases g with
  | none => rfl
  | some b => dsimp only; split <;> rfl

@[simp] theorem transactions_portWriteEvents (h : Handle) (chip : ChipAddr) (p : Port) (v : Byte) (g : Option Byte) :
    transactions (portWriteEvents h chip p v g) = 2 := by simp [portWriteEvents]

@[simp] theorem transactions_addressSetEvents (chip : ChipAddr) (a : Addr) (g g' : Option Byte) :
    transactions (addressSetEvents chip a g g') = 4 := by
  simp only [addressSetEvents, transactions_append, transactions_portWriteEvents]
  rfl

theorem byteRead_transactions (hm : s.params.ctrlMap = .direct) (e : byteRead a s = .ok d t) :
    transactions t.trace = transactions s.trace + 5 := by
  obtain ⟨-, -, -, -, -, -, -, g, g', ht⟩ := byteRead_ok hm e
  rw [ht]
  simp only [transactions_append, transactions_addressSetEvents, transactions_rEvents]
  rfl

theorem byteWrite_transactions {u : Unit} (hm : s.params.ctrlMap = .direct) (e : byteWrite a v s = .ok u t) :
    transactions t.trace = transactions s.trace + 8 := by
  obtain ⟨-, -, -, -, -, g, g', g₁, g₂, ht⟩ := byteWrite_ok hm e
  rw [ht]
  simp only [transactions_append, transactions_addressSetEvents, transactions_portWriteEvents]
  rfl

theorem readRun_transactions (hm : s.params.ctrlMap = .direct) (hf : (readRun a n s).failed = none) :
    transactions (readRun a n s).state.trace = transactions s.trace + 5 * n := by
  induction n generalizing a s with
  | zero => rfl
  | succ n ih =>
    rw [readRun] at hf ⊢
    cases e : byteRead a s with
    | error c t => rw [e] at hf; cases hf
    | ok d t =>
      rw [e] at hf
      have hm' : t.params.ctrlMap = .direct := by rw [(byteRead_runKept_ok hm e).params]; exact hm
      dsimp only at hf ⊢
      rw [ih hm' hf, byteRead_transactions hm e]
      omega

/-- Settles O26: each piece's transactions added up, and a run's by its length. -/
theorem transactionCountsOfTheTransfers : Obligations.TransactionCountsOfTheTransfers := by
  intro s t hm
  refine ⟨fun a d e hok => ?readByte, fun a v e hok => ?writeByte, fun a n e hok => ?readBytes, fun e hok => ?readInfo⟩
  all_goals obtain ⟨hb, hr, ht⟩ := exec_eq_next e
  case readByte =>
    rw [bodyOf] at ht
    cases e : byteRead a { s with busy := true } with
    | ok d u =>
      rw [ht, bind_ok e, pure_apply, finish_trace]
      exact byteRead_transactions (s := { s with busy := true }) hm e
    | error c u => rw [ht, bind_error e] at hok; cases hok
  case writeByte =>
    rw [bodyOf] at ht
    cases e : byteWrite a v { s with busy := true } with
    | ok _ u =>
      rw [ht, bind_ok e, pure_apply, finish_trace]
      exact byteWrite_transactions (s := { s with busy := true }) hm e
    | error c u => rw [ht, bind_error e] at hok; cases hok
  case readBytes =>
    rw [exec_readBytes hb (refusalOf_eq_none_iff.mp hr)] at e
    cases e
    cases hf : (readRun a n { s with busy := true }).failed with
    | none => exact readRun_transactions (s := { s with busy := true }) hm hf
    | some c => rw [hf] at hok; cases hok
  case readInfo =>
    cases hf : (readRun 0x0000#16 headerBlock { s with busy := true }).failed with
    | none =>
      rw [exec_readInfo_ok hb hf] at e
      cases e
      exact readRun_transactions (s := { s with busy := true }) hm hf
    | some c =>
      rw [exec_readInfo_error hb hf] at e
      cases e
      cases hok

end Sys2Proof.Machine
end

section
/-!
PROOF. The bus operations wherever CTRL_MAP places the lines (42_bus_controller.md R100, 30_encoding.md R82), the early failures on
absent arguments and uninitialized handles (60_exceptions.md R127, 70_reset_and_hazards.md R137), and the checksum's range
(43_header_parser.md R118).
-/

namespace Sys2Proof.Machine

variable {s t u : State} {a : Addr} {v : Byte} {n : Nat} {c : Cause} {h : Handle}

/-! ### Expansions -/

/-- Settles O24: each bus operation follows its pieces, and a run of byte reads theirs one after the other. -/
theorem linesFollowTheirEventsWhereverTheyAreDriven : Obligations.LinesFollowTheirEventsWhereverTheyAreDriven := by
  rintro s ⟨hb, hphase⟩
  refine ⟨fun a => ?readByte, fun a v => ?writeByte, fun a n hn hw => ?readBytes, ?readInfo⟩
  case readByte =>
    have hp := byteRead_phase a { s with busy := true }
    have hs := byteRead_samples a { s with busy := true }
    have hbody := exec_next (i := .readByte a) hb rfl
    rw [bodyOf] at hbody
    cases e : byteRead a { s with busy := true } with
    | ok d t =>
      obtain ⟨k, evs, ht, hx, hctrl⟩ := hs.ok e
      rw [expands_with_busy] at hx
      rw [e] at hp
      rw [bind_ok e] at hbody
      obtain ⟨hframe, hdata⟩ := finish_busFrame (r := .ok (.okByte d) t) k hp
      exact ⟨_, evs, hbody, ht, hframe, hdata, d, .inl ⟨rfl, hx, hctrl⟩⟩
    | error c t =>
      obtain ⟨k, evs, ht, d, hcut⟩ := hs.error e
      rw [cutShort_with_busy] at hcut
      rw [e] at hp
      rw [bind_error e] at hbody
      obtain ⟨hframe, hdata⟩ := finish_busFrame (r := .error c t) k hp
      exact ⟨_, evs, hbody, ht, hframe, hdata, d, .inr ⟨c, rfl, hcut⟩⟩
  case writeByte =>
    have hp := byteWrite_phase a v { s with busy := true }
    have hs := byteWrite_follows a v { s with busy := true }
    have hbody := exec_next (i := .writeByte a v) hb rfl
    rw [bodyOf] at hbody
    cases e : byteWrite a v { s with busy := true } with
    | ok _ t =>
      obtain ⟨k, evs, ht, hx, hctrl⟩ := hs.ok e
      rw [expands_with_busy] at hx
      rw [e] at hp
      rw [bind_ok e] at hbody
      obtain ⟨hframe, hdata⟩ := finish_busFrame (r := .ok .ok t) k hp
      exact ⟨_, evs, hbody, ht, hframe, hdata, .inl ⟨rfl, hx, hctrl⟩⟩
    | error c t =>
      obtain ⟨k, evs, ht, hcut⟩ := hs.error e
      rw [cutShort_with_busy] at hcut
      rw [e] at hp
      rw [bind_error e] at hbody
      obtain ⟨hframe, hdata⟩ := finish_busFrame (r := .error c t) k hp
      exact ⟨_, evs, hbody, ht, hframe, hdata, .inr ⟨c, rfl, hcut⟩⟩
  case readBytes =>
    obtain ⟨k, hp, x, hx, hend⟩ := readRun_pieces a n { s with busy := true }
    rw [expands_with_busy] at hx
    have hl : (readRun a n { s with busy := true }).got.length ≤ n := by
      cases hf : (readRun a n { s with busy := true }).failed <;> rw [hf] at hend
      · exact hend.1.le
      · exact hend.1.le
    obtain ⟨hread, habove⟩ := read_filled (s := { s with busy := true }) hw k.buf hl
    refine ⟨_, _, x, exec_readBytes hb hn, ⟨⟨k.params, k.calls, rfl⟩, hp hphase, k.hA, k.hD⟩, k.out, k.info, hx,
      hread, habove, ?_⟩
    cases hf : (readRun a n { s with busy := true }).failed with
    | none =>
      rw [hf] at hend
      exact .inl ⟨rfl, hend⟩
    | some c =>
      rw [hf] at hend
      obtain ⟨hl, y, d, ht, hcut⟩ := hend
      rw [cutShort_with_busy] at hcut
      exact .inr ⟨c, y, d, rfl, hl, ht, hcut⟩
  case readInfo =>
    obtain ⟨k, hp, x, hx, hend⟩ := readRun_pieces 0x0000#16 headerBlock { s with busy := true }
    rw [expands_with_busy] at hx
    cases hf : (readRun 0x0000#16 headerBlock { s with busy := true }).failed with
    | none =>
      rw [hf] at hend
      obtain ⟨hl, ht, hctrl⟩ := hend
      refine ⟨_, _, x, exec_readInfo_ok hb hf, ⟨⟨k.params, k.calls, rfl⟩, hp hphase, k.hA, k.hD⟩, k.out,
        fun i => by rw [finish_buf, after_ok, State.parsed, k.buf], hx, .inl ⟨rfl, hl, ht, hctrl, ?_⟩⟩
      rw [finish_info, after_ok, State.parsed, k.params]
      exact parseHeader_parsed ..
    | some c =>
      rw [hf] at hend
      obtain ⟨hl, y, d, ht, hcut⟩ := hend
      rw [cutShort_with_busy, BitVec.zero_add] at hcut
      refine ⟨_, _, x, exec_readInfo_error hb hf, ⟨⟨k.params, k.calls, rfl⟩, hp hphase, k.hA, k.hD⟩, k.out,
        fun i => by rw [finish_buf, after_error, State.emit_buf, k.buf], hx, .inr ⟨c, y, d, rfl, hl, k.info, ?_, hcut⟩⟩
      rw [finish_trace, after_error, State.emit_trace, ht]

/-! ### Absent arguments -/

/-- Settles O34: each body looks at its reference arguments first. -/
theorem absentArgumentsTouchNothing : Obligations.AbsentArgumentsTouchNothing := by
  intro s hb
  refine ⟨fun h i => ?_, fun a n hn => ?_, ?_, fun h chip tp cs hr habsent => ?_⟩
  · exact exec_unchanged (r := .error .argAbsent _) hb rfl rfl rfl
  · exact exec_unchanged (r := .error .argAbsent _) hb (refusalOf_eq_none_iff.mpr hn) rfl rfl
  · exact exec_unchanged (r := .error .argAbsent _) hb rfl rfl rfl
  · refine exec_unchanged (r := .error .argAbsent _) hb (refusalOf_eq_none_iff.mpr hr) (bind_error ?_) rfl
    rw [initHandle, if_pos habsent, raise_apply]

/-! ### Uninitialized handles -/

/-- On an uninitialized `hA` the address set fails behind its change of phase. -/
theorem addressSet_uninitialized (hi : s.hA.init = false) (a : Addr) :
    addressSet a s = .error .notInitialized { s with phase := .addressSet } :=
  (update_bind ..).trans (bind_error (portWrite_uninitialized (h := .hA) (s := { s with phase := .addressSet }) hi _))

/-- A transfer that fails so leaves an idle state as it was. -/
theorem transfer_uninitialized {α : Type} {body : Unit → Op α} (hi : s.hA.init = false) (hp : s.phase = .idle) (a : Addr) :
    transfer (addressSet a >>= body) s = .error .notInitialized s := by
  simp only [transfer, bind_error (addressSet_uninitialized hi a), ← hp]

theorem byteRead_uninitialized (hi : s.hA.init = false) (hp : s.phase = .idle) (a : Addr) :
    byteRead a s = .error .notInitialized s := transfer_uninitialized hi hp a

theorem byteWrite_uninitialized (hi : s.hA.init = false) (hp : s.phase = .idle) (a : Addr) (v : Byte) :
    byteWrite a v s = .error .notInitialized s := transfer_uninitialized hi hp a

theorem readRun_uninitialized (hi : s.hA.init = false) (hp : s.phase = .idle) (a : Addr) (hn : 0 < n) :
    readRun a n s = ⟨[], some .notInitialized, s⟩ := by
  obtain ⟨n, rfl⟩ := Nat.exists_eq_add_one.mpr hn
  rw [readRun, byteRead_uninitialized hi hp]

theorem filled_uninitialized (hi : s.hA.init = false) (hp : s.phase = .idle) (a : Addr) (hn : 0 < n) :
    s.filled a n = { s with buf := bufferAfter s.buf n [] s.draws, draws := s.draws + n } := by
  rw [State.filled, readRun_uninitialized hi hp a hn]
  rfl

/-- Such a run leaves READ_BYTES the free values of its buffer, and READ_INFO its diagnostic. -/
theorem exec_readBytes_uninitialized (hb : s.busy = false) (hi : s.hA.init = false) (hp : s.phase = .idle) (a : Addr)
    (hpos : 0 < n) (hn : n < 2 ^ s.params.lenWidth) (hw : s.buf.wf) :
    ∃ t, exec (.readBytes a n .present) s = .next t ∧ t.result = some (.fail .notInitialized) ∧ t.trace = s.trace ∧
      t.hA = s.hA ∧ t.hD = s.hD ∧ t.env = s.env ∧ LinesKept s t ∧ SessionKept s t ∧ t.out = s.out ∧ t.info = s.info ∧
      ∀ k, n ≤ k → t.buf.read k = s.buf.read k := by
  have hrun := readRun_uninitialized (s := { s with busy := true }) hi hp a hpos
  have habove := (read_filled (s := { s with busy := true }) (a := a) (n := n) hw (by rw [hrun]) (by simp [hrun])).2
  have hfilled := filled_uninitialized (s := { s with busy := true }) hi hp a hpos
  refine ⟨_, exec_readBytes hb hn, ?_⟩
  rw [hfilled] at habove ⊢
  rw [hrun]
  exact ⟨rfl, rfl, rfl, rfl, rfl, ⟨rfl, rfl⟩, ⟨rfl, rfl, rfl⟩, rfl, rfl, habove⟩

theorem exec_readInfo_uninitialized (hb : s.busy = false) (hi : s.hA.init = false) (hp : s.phase = .idle) :
    exec (.readInfo .present) s = .next { s with
      result := some (.fail .notInitialized)
      trace := s.trace ++ [.diag (.headerReadFailed .notInitialized)] } := by
  have hrun := readRun_uninitialized (s := { s with busy := true }) (n := headerBlock) hi hp 0x0000#16 (by decide)
  rw [exec_readInfo_error hb (by rw [hrun]), hrun]
  simp [finish, State.emit, ← hb]

/-- Behind its address set a WRITE_BYTE fails on an uninitialized `hD` before any data write. -/
theorem byteWrite_hD_uninitialized (hm : s.params.ctrlMap = .direct) (hi : s.hD.init = false)
    (h₁ : addressSet a s = .ok () u) (v : Byte) :
    byteWrite a v s = .error .notInitialized { u with phase := .idle } := by
  have hi' : u.hD.init = false := by rw [(addressSet_ok hm h₁).2.2.1, hi]
  rw [byteWrite_apply hm, h₁]
  dsimp only
  rw [portWrite_uninitialized (h := .hD) (s := { u with phase := .writeActive }) hi']

/-- The causes of an address set that fails on an initialized `hA`. -/
theorem cause_ne_notInitialized {v : VerifyReadFail} (hc : c = .txFail ∨ (c = .txRxFail ∧ v = .fail)) :
    c ≠ .notInitialized := by
  rcases hc with rfl | ⟨rfl, -⟩ <;> exact nofun

/-- What a transfer leaves that fails in its address set, `hA` initialized. -/
theorem finish_addressSet_error (hm : s.params.ctrlMap = .direct) (hi : s.hA.init = true)
    (e : addressSet a { s with busy := true } = .error c u) :
    let t := finish (.error c { u with phase := .idle })
    BusFrame s t ∧ CallerDataKept s t ∧ t.hD = s.hD ∧ t.ctrl = s.ctrl ∧ c ≠ .notInitialized ∧
      ∃ evs, t.trace = s.trace ++ evs ∧ CutShort s (addressPieces a) c evs s.ctrl t.ctrl := by
  obtain ⟨k, hD, hctrl, hcause, -⟩ := addressSet_error (s := { s with busy := true }) hm hi e
  obtain ⟨evs, ht, -, hcut⟩ := addressSet_cut (s := { s with busy := true }) hm hi e
  rw [cutShort_with_busy] at hcut
  obtain ⟨hframe, hdata⟩ := finish_busFrame (s := s) (r := .error c _) (k.trans (idle_kept u)) rfl
  exact ⟨hframe, hdata, hD, hctrl, cause_ne_notInitialized hcause, evs, ht, hcut⟩

/-- Settles O33: the check of the flag comes first wherever a handle is reached; `hD` is reached behind the address set. -/
theorem uninitializedHandlesFailWithoutAnEvent : Obligations.UninitializedHandlesFailWithoutAnEvent := by
  refine ⟨fun h s hb hi => ?first, fun a s ⟨hb, hphase⟩ hm hiA hiD => ⟨?readByte, fun v => ?writeByte⟩⟩
  case first =>
    have hi' : (State.handle { s with busy := true } h).init = false := by simpa using hi
    have unchanged : ∀ {i}, refusalOf s i = none →
        bodyOf s.params i { s with busy := true } = .error .notInitialized { s with busy := true } →
        exec i s = .next { s with result := some (.fail .notInitialized) } := fun hr e => exec_unchanged hb hr e rfl
    refine ⟨fun i v => unchanged rfl ?_, fun i => unchanged rfl ?_, fun p m => unchanged rfl ?_,
      fun pin p v hpin hv => unchanged (refusalOf_eq_none_iff.mpr ⟨hpin, hv⟩) ?_, fun p v => unchanged rfl ?_,
      fun pin p hpin => unchanged (refusalOf_eq_none_iff.mpr hpin) ?_, fun p => unchanged rfl ?_, ?bus⟩
    · exact bind_error (writeRegister_uninitialized hi' i v)
    · exact bind_error (readRegister_uninitialized hi' i)
    · exact bind_error (setMode_uninitialized hi')
    · exact bind_error (pinWrite_uninitialized hi' _ _)
    · exact bind_error (portWrite_uninitialized hi' v)
    · exact bind_error (readRegister_uninitialized hi' _)
    · exact bind_error (readRegister_uninitialized hi' _)
    case bus =>
      rintro rfl hp
      refine ⟨fun a => unchanged rfl ?_, fun a v => unchanged rfl ?_, fun a n hpos hn hw => ?_,
        exec_readInfo_uninitialized hb hi hp⟩
      · exact bind_error (byteRead_uninitialized (s := { s with busy := true }) hi hp a)
      · exact bind_error (byteWrite_uninitialized (s := { s with busy := true }) hi hp a v)
      · exact exec_readBytes_uninitialized hb hi hp a hpos hn hw
  case readByte =>
    have hbody := exec_next (i := .readByte a) hb rfl
    rw [bodyOf] at hbody
    cases e : byteRead a { s with busy := true } with
    | ok d t =>
      have hi := (byteRead_ok (s := { s with busy := true }) hm e).2.1
      simp [hiD] at hi
    | error c t =>
      rw [bind_error e] at hbody
      rcases byteRead_error_cases (s := { s with busy := true }) hm e with ⟨u, h₁, rfl⟩ | ⟨u, w, h₁, h₂, rfl⟩
      · obtain ⟨hframe, hdata, hD, hctrl, hne, evs, ht, hcut⟩ := finish_addressSet_error hm hiA h₁
        exact ⟨_, evs, hbody, ht, hframe, hdata, hD, .inr ⟨c, rfl, hne, hctrl, hcut⟩⟩
      · obtain ⟨k, hctrl, -, -, g, g', ⟨-, rfl, hD, ht⟩ | ⟨hi, -⟩⟩ :=
          sample_error (s := { s with busy := true }) hm h₁ h₂
        · obtain ⟨hframe, hdata⟩ := finish_busFrame (s := s) (r := .error .notInitialized _) (k.trans (idle_kept w)) rfl
          exact ⟨_, _, hbody, ht, hframe, hdata, hD, .inl ⟨g, g', rfl, rfl, hctrl⟩⟩
        · simp [hiD] at hi
  case writeByte =>
    have hbody := exec_next (i := .writeByte a v) hb rfl
    rw [bodyOf] at hbody
    cases h₁ : addressSet a { s with busy := true } with
    | ok _ u =>
      rw [bind_error (byteWrite_hD_uninitialized (s := { s with busy := true }) hm hiD h₁ v)] at hbody
      obtain ⟨-, k, hD, hctrl, -, -, g, g', ht⟩ := addressSet_ok (s := { s with busy := true }) hm h₁
      obtain ⟨hframe, hdata⟩ := finish_busFrame (s := s) (r := .error .notInitialized _) (k.trans (idle_kept u)) rfl
      exact ⟨_, _, hbody, ht, hframe, hdata, hD, .inl ⟨g, g', rfl, rfl, hctrl⟩⟩
    | error c u =>
      have e : byteWrite a v { s with busy := true } = .error c { u with phase := .idle } := by
        rw [byteWrite_apply (s := { s with busy := true }) hm, h₁]
      rw [bind_error e] at hbody
      obtain ⟨hframe, hdata, hD, hctrl, hne, evs, ht, hcut⟩ := finish_addressSet_error hm hiA h₁
      exact ⟨_, evs, hbody, ht, hframe, hdata, hD, .inr ⟨c, rfl, hne, hctrl, hcut⟩⟩

/-! ### The checksum (43_header_parser.md R118) -/

/-- Settles O32: the sum runs over the offsets 0x134 to 0x14C. -/
theorem checksumSumsExactlyItsRange : Obligations.ChecksumSumsExactlyItsRange := by
  have hsum : ∀ f : Nat → Nat, ((List.range 25).map fun i => f (0x134 + i)).sum = ∑ o ∈ Finset.Icc 0x134 0x14C, f o := by
    intro f
    rw [← Finset.Ico_succ_right_eq_Icc, Finset.sum_Ico_eq_sum_range]
    rfl
  refine ⟨fun H => ?_, fun H H' hagree => ?_⟩
  · rw [checksum, BitVec.toNat_ofNat, hsum fun o => (headerByte H o).toNat]
  · rw [checksum, checksum]
    refine congrArg (fun l : List Nat => BitVec.ofNat 8 l.sum) (List.map_congr_left fun i hi => ?_)
    have hi := List.mem_range.mp hi
    rw [hagree _ (by omega) (by omega)]

end Sys2Proof.Machine
end

section
/-!
PROOF. The operations in the ideal environment (20_memory.md R54): every transport call succeeds, so each operation runs to its
end, and what the chips and the cartridge hold is what the operation's writes put there.
-/

namespace Sys2Proof.Machine

variable {s t : State} {e : IdealEnv} {h : Handle} {a : ChipAddr} {r v : Byte}

/-! ### Registers -/

/-- Settles O51: an output pin reads its latch, an input pin what drives it from outside. -/
theorem idealGpioBitByBit : Obligations.IdealGpioBitByBit := by
  intro e data rd h p n hn
  rw [readReg_gpio, IdealEnv.gpio, IdealEnv.external, BitVec.getLsbD_or, BitVec.getLsbD_and, BitVec.getLsbD_and,
    BitVec.getLsbD_not]
  cases hdir : (getReg22 (e.regs h) (regIndex .iodir p)).getLsbD n
  · simp [hn]
  · by_cases hdrive : h = .hD ∧ p = data ∧ rd = .low <;> simp [hdrive]

/-- A register other than the GPIO-state ones reads back what was written to it. -/
theorem readReg_setReg (e : IdealEnv) (data : Port) (rd : LineLevel) (h : Handle) {r : Byte} (v : Byte) (hr : r.toNat < 22)
    (hA : r ≠ regIndex .gpio .A) (hB : r ≠ regIndex .gpio .B) : (e.setReg h r v).readReg data rd h r = v := by
  rw [IdealEnv.readReg, if_neg hA, if_neg hB, regs_setReg, if_pos rfl, getReg22_setReg22, if_pos ⟨rfl, hr⟩]

theorem exec_wrFrame_ideal (hb : s.busy = false) (he : s.env = idealEnv e) (h : Handle) (a : ChipAddr) (r v : Byte) :
    ∃ t, exec (.wrFrame h a r v) s = .next t ∧ t.result = some .ok ∧ t.env = idealEnv (e.setReg h r v) := by
  refine ⟨_, exec_next hb rfl, ?_⟩
  rw [bodyOf, bind_ok (ideal_transactW (s := { s with busy := true }) he h a r v)]
  exact ⟨rfl, ideal_afterW (s := { s with busy := true }) he h a r v⟩

theorem exec_rdFrame_ideal (hb : s.busy = false) (he : s.env = idealEnv e) (h : Handle) (a : ChipAddr) (r : Byte) :
    ∃ t, exec (.rdFrame h a r) s = .next t ∧ t.env = s.env ∧
      t.result = some (.okByte (e.readReg s.params.dataPort s.ctrl.rd h r)) := by
  refine ⟨_, exec_next hb rfl, ?_⟩
  rw [bodyOf, bind_ok (ideal_transactR (s := { s with busy := true }) he h a r)]
  exact ⟨(ideal_afterR (s := { s with busy := true }) he h a r).trans he.symm, rfl⟩

theorem exec_writeReg_ideal (hb : s.busy = false) (he : s.env = idealEnv e) (hi : (s.handle h).init = true) (r v : Byte) :
    ∃ t, exec (.writeReg h r v) s = .next t ∧ t.result = some .ok ∧ t.env = idealEnv (e.setReg h r v) ∧
      t.busy = false ∧ (t.handle h).init = true := by
  obtain ⟨t, ht, o, henv⟩ := ideal_writeRegister (s := { s with busy := true }) (h := h) he (by simpa using hi) r v
  refine ⟨_, exec_next hb rfl, ?_⟩
  rw [bodyOf, bind_ok ht]
  exact ⟨rfl, henv, rfl, by simpa [hi] using o.init⟩

theorem exec_readReg_ideal (hb : s.busy = false) (he : s.env = idealEnv e) (hi : (s.handle h).init = true) (r : Byte) :
    ∃ t, exec (.readReg h r .present) s = .next t ∧ t.env = s.env ∧
      t.out = e.readReg s.params.dataPort s.ctrl.rd h r ∧
      t.result = some (.okByte (e.readReg s.params.dataPort s.ctrl.rd h r)) := by
  obtain ⟨t, ht, -, henv⟩ := ideal_readRegister (s := { s with busy := true }) (h := h) he (by simpa using hi) r
  refine ⟨_, exec_next hb rfl, ?_⟩
  rw [readRegBody_ok ht, he]
  exact ⟨henv, rfl, rfl⟩

/-- Settles O52: each of the four is one transaction, which succeeds. -/
theorem idealRegisterAccess : Obligations.IdealRegisterAccess := by
  intro h r v s e hb he
  refine ⟨fun a => exec_wrFrame_ideal hb he h a r v, fun a => exec_rdFrame_ideal hb he h a r,
    fun hi => ⟨?_, exec_readReg_ideal hb he hi r⟩⟩
  obtain ⟨t, ht, hres, henv, -⟩ := exec_writeReg_ideal hb he hi r v
  exact ⟨t, ht, hres, henv⟩

/-- Settles O53: the write leaves the register holding the value, and the read answers it. -/
theorem idealStoreThenLoadReturnsTheValue : Obligations.IdealStoreThenLoadReturnsTheValue := by
  intro h r v s t e hb he hi hr hA hB ht
  obtain ⟨t', ht', -, henv, hb', hi'⟩ := exec_writeReg_ideal hb he hi r v
  cases ht.symm.trans ht'
  obtain ⟨u, hu, -, hout, hres⟩ := exec_readReg_ideal hb' henv hi' r
  rw [readReg_setReg _ _ _ _ _ hr hA hB] at hout hres
  exact ⟨u, hu, hres, hout⟩

/-! ### Ports -/

/-- Settles O54: the writes of each operation succeed one after the other. -/
theorem idealPortWrites : Obligations.IdealPortWrites := by
  intro h p s e hb he hi
  have hi' : (State.handle { s with busy := true } h).init = true := by simpa using hi
  refine ⟨fun m => ?mode, fun v => ?port, fun pin value hpin hvalue => ?pin⟩
  case mode =>
    obtain ⟨t, h₁, o, ht⟩ := ideal_writeRegister (s := { s with busy := true }) he hi' (regIndex .iodir p) (modeDirection m)
    obtain ⟨u, h₂, -, hu⟩ := ideal_writeRegister ht (o.init.trans hi') (regIndex .gppu p) (modePullup m)
    have hmode : setMode h p m { s with busy := true } = .ok () u := (bind_ok h₁).trans h₂
    refine ⟨_, exec_next hb rfl, ?_⟩
    rw [bodyOf, bind_ok hmode]
    exact ⟨rfl, hu⟩
  case port =>
    obtain ⟨t, ht, -, henv⟩ := ideal_portWrite (s := { s with busy := true }) he hi' p v
    refine ⟨_, exec_next hb rfl, ?_⟩
    rw [bodyOf, bind_ok ht]
    exact ⟨rfl, henv⟩
  case pin =>
    obtain ⟨t, ht, -, henv⟩ := ideal_pinWrite (s := { s with busy := true }) he hi' (pin.setWidth 3) p (value == 1#8)
    refine ⟨_, exec_next hb (refusalOf_eq_none_iff.mpr ⟨hpin, hvalue⟩), ?_⟩
    rw [bodyOf, bind_ok ht]
    exact ⟨rfl, henv⟩

/-- Settles O55: the read of the GPIO register, or of PROBE_REG, succeeds. -/
theorem idealPortReads : Obligations.IdealPortReads := by
  intro h p s e hb he hi
  have hi' : (State.handle { s with busy := true } h).init = true := by simpa using hi
  obtain ⟨t, ht, -, henv⟩ := ideal_readRegister (s := { s with busy := true }) he hi' (regIndex .gpio p)
  rw [readReg_gpio] at ht
  refine ⟨fun pin hpin => ?pin, ?port, ?probe⟩
  case pin =>
    refine ⟨_, exec_next hb (refusalOf_eq_none_iff.mpr hpin), ?_⟩
    rw [bodyOf, portRead, bind_ok ht, he, pinBit_setWidth hpin]
    exact ⟨rfl, henv⟩
  case port =>
    refine ⟨_, exec_next hb rfl, ?_⟩
    rw [bodyOf, portRead, bind_ok ht, he]
    exact ⟨rfl, henv⟩
  case probe =>
    obtain ⟨u, hu, -, henv⟩ := ideal_readRegister (s := { s with busy := true }) he hi' s.params.probeReg
    refine ⟨_, exec_next hb rfl, ?_⟩
    rw [isConnectedBody (b := true) (t := u) (by rw [completes, hu]), he]
    exact ⟨rfl, henv⟩

/-! ### INIT -/

/-- The environment behind a list of register writes to the chip of `h`. -/
def IdealEnv.written (e : IdealEnv) (h : Handle) (ws : List (Byte × Byte)) : IdealEnv :=
  ws.foldl (fun e w => e.setReg h w.1 w.2) e

theorem ideal_sendWrites (he : s.env = idealEnv e) (h : Handle) (a : ChipAddr) (ws : List (Byte × Byte)) :
    ∃ t, sendWrites h a ws s = .ok () t ∧ OnlyHandle h s t ∧ t.env = idealEnv (e.written h ws) := by
  induction ws generalizing s e with
  | nil => exact ⟨s, rfl, .refl .., he⟩
  | cons w ws ih =>
    obtain ⟨t, ht, o, henv⟩ := ih (ideal_afterW he h a w.1 w.2)
    exact ⟨t, (bind_ok (ideal_transactW he h a w.1 w.2)).trans ht, (afterW_only ..).trans o, henv⟩

/-- INIT succeeds where the chip reads back the expected value. -/
theorem ideal_initHandle (he : s.env = idealEnv e) (h : Handle) (a : ChipAddr) {x : Byte}
    (hx : (e.written h (initWrites s.params)).readReg s.params.dataPort s.ctrl.rd h s.params.verifyReg = x) :
    ∃ t, initHandle h a .present .present x s = .ok () t ∧ t.env = idealEnv (e.written h (initWrites s.params)) := by
  obtain ⟨t, ht, o, henv⟩ := ideal_sendWrites (s := adoptArguments h a s) (by simpa using he) h a (initWrites s.params)
  have hread := ideal_transactR henv h a s.params.verifyReg
  rw [o.params, o.ctrl, adoptArguments_params, adoptArguments_ctrl, hx] at hread
  refine ⟨markInitialized h (t.afterR h (frameR a s.params.verifyReg)), ?_, ?_⟩
  · rw [initHandle, if_neg (by decide), update_bind, getParams_bind, adoptArguments_params, bind_ok ht, bind_ok hread,
      if_pos rfl, update_apply]
  · rw [markInitialized_env, ideal_afterR henv]

theorem written_other (e : IdealEnv) (h : Handle) (ws : List (Byte × Byte)) :
    (e.written h ws).regs (otherHandle h) = e.regs (otherHandle h) ∧ (e.written h ws).rom = e.rom ∧
      (e.written h ws).writes = e.writes := by
  induction ws generalizing e with
  | nil => exact ⟨rfl, rfl, rfl⟩
  | cons w ws ih =>
    obtain ⟨hregs, hrom, hwrites⟩ := ih (e.setReg h w.1 w.2)
    refine ⟨hregs.trans ?_, hrom.trans (setReg_rom ..), hwrites.trans (setReg_writes ..)⟩
    rw [regs_setReg, if_neg (by cases h <;> simp [otherHandle])]

/-- With the default parameters INIT writes 0x08 to register 0x0A, and 0x00 to both directions and both latches. -/
theorem regs_written_standard (e : IdealEnv) (h : Handle) (v : VerifyReadFail) (m : CtrlMap) (k : Nat) (hk : k < 22) :
    ((e.written h (initWrites (Params.standard v m))).regs h)[k] =
      if k = 0x0A then 0x08#8 else if k = 0x00 ∨ k = 0x01 ∨ k = 0x14 ∨ k = 0x15 then 0x00#8 else (e.regs h)[k] := by
  simp only [IdealEnv.written, initWrites, Params.standard, regIndex, RegKind.base, List.foldl_cons, List.foldl_nil,
    regs_setReg, if_true, setReg22_get]
  have hindices : (0x00#8).toNat = 0x00 ∧ (0x00#8 + 1#8).toNat = 0x01 ∧ (0x0A#8).toNat = 0x0A ∧ (0x14#8).toNat = 0x14 ∧
      (0x14#8 + 1#8).toNat = 0x15 := by decide
  obtain ⟨h₀, h₁, h₂, h₃, h₄⟩ := hindices
  rw [h₀, h₁, h₂, h₃, h₄]
  by_cases hcfg : k = 0x0A
  · subst hcfg
    rfl
  · by_cases hport : k = 0x00 ∨ k = 0x01 ∨ k = 0x14 ∨ k = 0x15
    · rw [if_neg hcfg, if_pos hport]
      rcases hport with rfl | rfl | rfl | rfl <;> rfl
    · obtain ⟨n₀, n₁, n₂, n₃⟩ := by simpa only [not_or] using hport
      simp [hcfg, n₀, n₁, n₂, n₃]

/-- Settles O56: register 0x00 reads back the 0x00 that INIT wrote to it. -/
theorem idealInitSucceeds : Obligations.IdealInitSucceeds := by
  intro h chip s e v m hb he hp hchip hi
  have hlast : lastWritten (initWrites s.params) s.params.verifyReg = some 0x00#8 := by rw [hp]; rfl
  have hr : refusalOf s (.init h chip .present .present) = none :=
    initRefusal_eq_none_iff.mpr ⟨hchip, hi, lastWritten_isSome_iff.mp (by rw [hlast]; rfl)⟩
  have hx : (e.written h (initWrites s.params)).readReg s.params.dataPort s.ctrl.rd h s.params.verifyReg = 0x00#8 := by
    have hv : s.params.verifyReg = 0x00#8 := by rw [hp]; rfl
    rw [hv, IdealEnv.readReg, if_neg (by decide), if_neg (by decide), hp]
    exact regs_written_standard e h v m 0x00 (by decide)
  obtain ⟨t, ht, henv⟩ := ideal_initHandle (s := { s with busy := true }) he h (chip.setWidth 3) hx
  obtain ⟨hother, hrom, hwrites⟩ := written_other e h (initWrites s.params)
  refine ⟨_, e.written h (initWrites s.params), exec_next hb hr, ?_⟩
  rw [bodyOf, hlast, Option.getD_some, bind_ok ht]
  rcases initHandle_spec h (chip.setWidth 3) .present .present 0x00#8 { s with busy := true } with ⟨-, e'⟩ |
    ⟨-, u, k, ⟨-, -, ⟨e', -⟩ | ⟨e', -⟩ | ⟨e', -⟩⟩ | ⟨hinit, hcache, e', -⟩⟩ <;> cases ht.symm.trans e'
  refine ⟨rfl, by simpa using hinit, by simpa [clearedCache] using hcache, by simpa using k.chipAddr,
    by simpa using k.cscfg, by simpa using k.cslvl, henv, hother, hrom, hwrites, fun k hk => ?_⟩
  simp only [hp]
  exact regs_written_standard e h v m k hk

/-! ### Transfers -/

/-- Settles O57: the address set, the strobe and the sample succeed, and the sample is the cartridge's byte. -/
theorem idealReadByteReturnsTheRomByte : Obligations.IdealReadByteReturnsTheRomByte := by
  intro a s e hb he hm hiA hiD hd
  obtain ⟨t, e', ht, -⟩ := ideal_byteRead (s := { s with busy := true }) hm he hiA hiD hd a
  obtain ⟨-, -, -, -, -, hctrl, -⟩ := byteRead_ok (s := { s with busy := true }) hm ht
  refine ⟨_, exec_next hb rfl, ?_⟩
  rw [bodyOf, bind_ok ht]
  exact ⟨rfl, hctrl⟩

/-- Settles O58: the run succeeds with the cartridge's bytes, which are what the buffer holds. -/
theorem idealReadBytesWrapsAround : Obligations.IdealReadBytesWrapsAround := by
  intro a n s e hb he hm hiA hiD hw hn hd
  obtain ⟨hf, hgot⟩ := ideal_readRun (s := { s with busy := true }) hm he hiA hiD hd a n
  obtain ⟨k, -⟩ := readRun_spec (s := { s with busy := true }) hm hiA hiD a n
  have hl : (readRun a n { s with busy := true }).got.length = n := by simp [hgot]
  obtain ⟨hread, habove⟩ := read_filled (s := { s with busy := true }) hw k.buf hl.le
  refine ⟨_, exec_readBytes hb hn, by rw [hf]; rfl, fun i hi => ?_, habove⟩
  rw [hread i (by omega), hgot]
  simp [hi]

/-- The header that a READ_INFO reads is the ROM's first 0x180 bytes. -/
theorem ideal_header (hm : s.params.ctrlMap = .direct) (he : s.env = idealEnv e) (hiA : s.hA.init = true)
    (hiD : s.hD.init = true) (hd : getReg22 e.regsD (regIndex .iodir s.params.dataPort) = 0xFF#8) :
    (readRun 0x0000#16 headerBlock s).failed = none ∧
      (readRun 0x0000#16 headerBlock s).got = (List.range 0x180).map e.rom.read := by
  obtain ⟨hf, hgot⟩ := ideal_readRun hm he hiA hiD hd 0x0000#16 headerBlock
  refine ⟨hf, hgot.trans (List.map_congr_left fun i hi => ?_)⟩
  have hi : i < 384 := List.mem_range.mp hi
  rw [show (0x0000#16).toNat = 0 from rfl, Nat.zero_add, Nat.mod_eq_of_lt (by omega)]

theorem headerByte_map_range (f : Nat → Byte) {n o : Nat} (ho : o < n) : headerByte ((List.range n).map f) o = f o := by
  simp [headerByte, ho]

/-- Settles O59: the record is parsed from the ROM's bytes, and its sizes and banks are those of the codes. -/
theorem idealReadInfoParsesTheRom : Obligations.IdealReadInfoParsesTheRom := by
  intro s e hb he hm hiA hiD hd
  obtain ⟨hf, hgot⟩ := ideal_header (s := { s with busy := true }) hm he hiA hiD hd
  refine ⟨_, exec_readInfo_ok hb hf, rfl, ?_⟩
  have hbyte : ∀ o, o < 0x180 → headerByte ((List.range 0x180).map e.rom.read) o = e.rom.read o :=
    fun o ho => headerByte_map_range _ ho
  obtain ⟨k, -⟩ := readRun_spec (s := { s with busy := true }) hm hiA hiD 0x0000#16 headerBlock
  have hinfo : (finish (.ok .ok (State.parsed { s with busy := true }))).info = parseHeader s.params.titleCap
      ((List.range 0x180).map e.rom.read) (readRun 0x0000#16 headerBlock { s with busy := true }).state.draws := by
    rw [finish_info, after_ok, State.parsed, k.params, hgot]
  have hparsed := parseHeader_parsed s.params.titleCap ((List.range 0x180).map e.rom.read)
    (readRun 0x0000#16 headerBlock { s with busy := true }).state.draws
  rw [← hinfo, ParsedFrom, hbyte 0x146 (by decide), hbyte 0x147 (by decide), hbyte 0x148 (by decide),
    hbyte 0x149 (by decide)] at hparsed
  obtain ⟨title, cartType, battery, super, romSize', romBanks', ramSize', ramBanks', checksum'⟩ := hparsed
  refine ⟨title, cartType, battery, super, fun hc => ?_, romBanks' ▸ romBanks_toNat _, ramSize',
    ramBanks' ▸ ramBanks_toNat _, ?_⟩
  · rw [romSize' hc, ← romSize_toNat hc 0, romSize, if_pos hc]
  · rw [checksum', checksumSumsExactlyItsRange.1]
    refine congrArg (· % 256) (Finset.sum_congr rfl fun o ho => congrArg BitVec.toNat (hbyte o ?_))
    exact (Finset.mem_Icc.mp ho).2.trans_lt (by decide)

@[simp] theorem recordWrite_regsD (e : IdealEnv) (p : Port) : (e.recordWrite p).regsD = e.regsD := rfl

theorem busAddr_setReg_hD (e : IdealEnv) (r v : Byte) : (e.setReg .hD r v).busAddr = e.busAddr := rfl

theorem getReg22_olat_data (r : Vector Byte 22) (p : Port) (v w : Byte) :
    getReg22 (setReg22 (setReg22 r (regIndex .olat p) v) (regIndex .olat (otherPort p)) w) (regIndex .olat p) = v := by
  have hne : regIndex .olat p ≠ regIndex .olat (otherPort p) := by cases p <;> decide
  have hlatch : (regIndex .olat p).toNat < 22 := by cases p <;> decide
  rw [getReg22_setReg22, if_neg (fun h => hne h.1), getReg22_setReg22, if_pos ⟨rfl, hlatch⟩]

/-- Settles O60: the pulse of WR records the one write, of the byte in the data latch to the address in the latches. -/
theorem idealWriteByteIsRecordedOnce : Obligations.IdealWriteByteIsRecordedOnce := by
  intro a v s e hb he hm hiA hiD hw
  obtain ⟨t, ht, henv⟩ := ideal_byteWrite (s := { s with busy := true }) hm he hiA hiD hw a v
  obtain ⟨-, -, hctrl, -⟩ := byteWrite_ok (s := { s with busy := true }) hm ht
  have hrun : exec (.writeByte a v) s = .next (finish (.ok .ok t)) := by
    rw [exec_next hb rfl, bodyOf, bind_ok ht]
    rfl
  have hlatch : (regIndex .olat (otherPort s.params.dataPort)).toNat < 22 := by cases s.params.dataPort <;> decide
  refine ⟨_, _, hrun, rfl, hctrl, henv, ?_, ?_, ?_, ?_⟩
  · rw [IdealEnv.recordWrite, busAddr_setReg_hD, busAddr_setReg_hD, busAddr_latched, setReg_hD_regsD, setReg_hD_regsD,
      getReg22_olat_data]
    simp [IdealEnv.latched]
  · simp [IdealEnv.recordWrite, IdealEnv.latched]
  · exact getReg22_olat_data ..
  · rw [recordWrite_regsD, setReg_hD_regsD, getReg22_setReg22, if_pos ⟨rfl, hlatch⟩]

end Sys2Proof.Machine
end

section
/-!
PROOF. Nothing is retried (60_exceptions.md R125): with VERIFY_READ_FAIL = `Fail` a failed transport call ends the operation's
work, so what stands behind it in the trace is the end of its transaction and, for READ_INFO, a diagnostic.
-/

namespace Sys2Proof.Machine

variable {α β : Type} {s t : State} {h : Handle} {x y evs : List Event} {L : List Piece} {c : Cause}

/-! ### Events -/

/-- No transport call stands behind one that failed. -/
def NoneAfterFailed (evs : List Event) : Prop :=
  evs.Pairwise fun e e' => isFailedTransport e = true → isTransport e' = false

theorem NoneAfterFailed.behind (hn : NoneAfterFailed evs) {before behind : List Event} {e : Event}
    (hevs : evs = before ++ e :: behind) (he : isFailedTransport e = true) : behind.any isTransport = false := by
  subst hevs
  have hbehind := (List.pairwise_cons.mp (List.pairwise_append.mp hn).2.1).1
  exact List.any_eq_false.mpr fun e' he' => by simp [hbehind e' he' he]

/-- Events none of which failed may stand in front of any. -/
theorem NoneAfterFailed.append_left (hx : x.any isFailedTransport = false) (hy : NoneAfterFailed y) :
    NoneAfterFailed (x ++ y) := by
  have hx := List.any_eq_false.mp hx
  exact List.pairwise_append.mpr ⟨List.pairwise_of_forall_mem_list fun e he _ _ hf => absurd hf (hx e he), hy,
    fun e he _ _ hf => absurd hf (hx e he)⟩

/-- Events that call no transport may stand behind any. -/
theorem NoneAfterFailed.append_right (hx : NoneAfterFailed x) (hy : y.any isTransport = false) : NoneAfterFailed (x ++ y) := by
  have hy : ∀ e ∈ y, isTransport e = false := fun e he => by simpa using List.any_eq_false.mp hy e he
  exact List.pairwise_append.mpr ⟨hx, List.pairwise_of_forall_mem_list fun _ _ e' he' _ => hy e' he',
    fun _ _ e' he' _ => hy e' he'⟩

theorem noneAfterFailed_of_noneFailed (hx : x.any isFailedTransport = false) : NoneAfterFailed x := by
  simpa using NoneAfterFailed.append_left hx (y := []) List.Pairwise.nil

theorem noneAfterFailed_wEvents (h : Handle) (bytes : List Byte) (ok : Bool) : NoneAfterFailed (wEvents h bytes ok) := by
  simp [NoneAfterFailed, wEvents, isFailedTransport, isTransport]

theorem noneAfterFailed_rEvents (h : Handle) (bytes : List Byte) (answer : Option Byte) :
    NoneAfterFailed (rEvents h bytes answer) := by
  simp [NoneAfterFailed, rEvents, isFailedTransport, isTransport]

@[simp] theorem noneFailed_wEvents (h : Handle) (bytes : List Byte) : (wEvents h bytes true).any isFailedTransport = false := rfl

@[simp] theorem noneFailed_rEvents (h : Handle) (bytes : List Byte) (b : Byte) :
    (rEvents h bytes (some b)).any isFailedTransport = false := rfl

@[simp] theorem noneFailed_sentEvents (h : Handle) (a : ChipAddr) (ws : List (Byte × Byte)) :
    (sentEvents h a ws).any isFailedTransport = false := by
  induction ws with
  | nil => rfl
  | cons w ws ih => rw [sentEvents_cons, List.any_append, ih, noneFailed_wEvents]; rfl

@[simp] theorem noneFailed_verifyEvents (h : Handle) (chip : ChipAddr) (p : Port) (sc : Scope) (v g : Byte) :
    (verifyEvents h chip p sc v (some g)).any isFailedTransport = false := by
  rw [verifyEvents, List.any_append, noneFailed_rEvents]
  split <;> rfl

theorem noneAfterFailed_verifyEvents (h : Handle) (chip : ChipAddr) (p : Port) (sc : Scope) (v : Byte) (g : Option Byte) :
    NoneAfterFailed (verifyEvents h chip p sc v g) := by
  cases g with
  | none => exact (noneAfterFailed_rEvents ..).append_right rfl
  | some g => exact noneAfterFailed_of_noneFailed (noneFailed_verifyEvents ..)

/-! ### Pieces of a bus operation -/

/-- A verification read that the operation went on behind was answered. -/
theorem answered_of_fail {g : Option Byte} (hv : s.params.verifyReadFail = .fail)
    (hg : g = none → s.params.verifyReadFail = .soft) :
    ∃ b, g = some b := by
  cases g with
  | none => rw [hv] at hg; cases hg rfl
  | some b => exact ⟨b, rfl⟩

theorem noneFailed_of_pinWriteDone {p : Port} {n : Pin} {b : Bool} (hv : s.params.verifyReadFail = .fail)
    (hd : PinWriteDone s h p n b evs) : evs.any isFailedTransport = false := by
  obtain ⟨-, cur, g, hg, rfl⟩ := hd
  obtain ⟨g, rfl⟩ := answered_of_fail hv hg
  simp [pinWriteEvents]

theorem noneAfterFailed_of_pinWriteCut {p : Port} {n : Pin} {b : Bool} (hc : PinWriteCut s h p n b c evs) :
    NoneAfterFailed evs := by
  rcases hc with ⟨-, -, rfl⟩ | ⟨-, ⟨-, rfl⟩ | ⟨cur, -, rfl⟩ | ⟨cur, -, -, rfl⟩⟩
  · exact List.Pairwise.nil
  · exact noneAfterFailed_rEvents ..
  · exact .append_left rfl (noneAfterFailed_wEvents ..)
  · exact .append_left rfl (noneAfterFailed_verifyEvents ..)

/-- In a piece that succeeds no transport call failed. -/
theorem noneFailed_of_done {p : Piece} (hv : s.params.verifyReadFail = .fail) (hd : p.Done s evs) :
    evs.any isFailedTransport = false := by
  cases p with
  | portWrite h p v =>
    obtain ⟨-, g, hg, rfl⟩ := hd
    obtain ⟨g, rfl⟩ := answered_of_fail hv hg
    simp [portWriteEvents]
  | portRead h p d =>
    obtain ⟨-, rfl⟩ := hd
    rfl
  | ctrlSet line lvl =>
    simp only [Piece.Done] at hd
    split at hd
    · rw [hd]; rfl
    · obtain ⟨rest, rfl, hd⟩ := hd
      exact (noneFailed_of_pinWriteDone hv hd :)
  | delay k => rw [show evs = [.delay k] from hd]; rfl

/-- A piece that fails ends with the transport call that failed. -/
theorem noneAfterFailed_of_cut {p : Piece} (hc : p.Cut s c evs) : NoneAfterFailed evs := by
  cases p with
  | portWrite h p v =>
    rcases hc with ⟨-, -, rfl⟩ | ⟨-, ⟨-, rfl⟩ | ⟨-, -, rfl⟩⟩
    · exact List.Pairwise.nil
    · exact noneAfterFailed_wEvents ..
    · exact .append_left rfl (noneAfterFailed_verifyEvents ..)
  | portRead h p d =>
    rcases hc with ⟨-, -, rfl⟩ | ⟨-, -, rfl⟩
    · exact List.Pairwise.nil
    · exact noneAfterFailed_rEvents ..
  | ctrlSet line lvl =>
    simp only [Piece.Cut] at hc
    split at hc
    · exact hc.elim
    · obtain ⟨rest, rfl, hc⟩ := hc
      exact .append_left (x := [_]) rfl (noneAfterFailed_of_pinWriteCut hc)
  | delay k => exact hc.elim

theorem noneFailed_of_expands (hv : s.params.verifyReadFail = .fail) (hx : Expands s L evs) :
    evs.any isFailedTransport = false := by
  induction L generalizing evs with
  | nil => rw [show evs = [] from hx]; rfl
  | cons p L ih =>
    obtain ⟨x, y, rfl, hd, hy⟩ := hx
    rw [List.any_append, noneFailed_of_done hv hd, ih hy]
    rfl

theorem noneAfterFailed_of_cutShort {l l' : CtrlLines} (hv : s.params.verifyReadFail = .fail) (hx : CutShort s L c evs l l') :
    NoneAfterFailed evs := by
  induction L generalizing evs l with
  | nil => exact hx.elim
  | cons p L ih =>
    rcases hx with ⟨hc, -⟩ | ⟨x, y, rfl, hd, hy⟩
    · exact noneAfterFailed_of_cut hc
    · exact .append_left (noneFailed_of_done hv hd) (ih hy)

/-! ### Operations -/

/-- The trace grows by events in which no transport call stands behind a failed one. -/
def AppendsNoneAfterFailed (s t : State) : Prop := ∃ evs, t.trace = s.trace ++ evs ∧ NoneAfterFailed evs

theorem AppendsNoneAfterFailed.refl (s : State) : AppendsNoneAfterFailed s s :=
  ⟨[], (List.append_nil _).symm, List.Pairwise.nil⟩

/-- An operation that succeeds had no failed transport call; one that fails, none behind a failed one. -/
def StopsAtFailure (s : State) : EStateM.Result Cause State α → Prop
  | .ok _ t => ∃ evs, t.trace = s.trace ++ evs ∧ evs.any isFailedTransport = false
  | .error _ t => AppendsNoneAfterFailed s t

theorem StopsAtFailure.bind {x : Op α} {f : α → Op β} (hx : StopsAtFailure s (x s))
    (hf : ∀ a t, x s = .ok a t → StopsAtFailure t (f a t)) : StopsAtFailure s ((x >>= f) s) := by
  rw [bind_apply]
  rcases e : x s with ⟨a, t⟩ | ⟨c, t⟩
  · rw [e] at hx
    obtain ⟨xs, ht, hxs⟩ := hx
    have hfa := hf a t e
    dsimp only
    rcases e' : f a t with ⟨b, u⟩ | ⟨c, u⟩ <;> rw [e'] at hfa
    · obtain ⟨ys, hu, hys⟩ := hfa
      exact ⟨xs ++ ys, by rw [hu, ht, List.append_assoc], by rw [List.any_append, hxs, hys]; rfl⟩
    · obtain ⟨ys, hu, hys⟩ := hfa
      exact ⟨xs ++ ys, by rw [hu, ht, List.append_assoc], .append_left hxs hys⟩
  · rw [e] at hx
    exact hx

theorem StopsAtFailure.after {r : EStateM.Result Cause State α} (hr : StopsAtFailure s r) :
    AppendsNoneAfterFailed s (after r) := by
  rcases r with ⟨a, t⟩ | ⟨c, t⟩
  · obtain ⟨evs, ht, hevs⟩ := hr
    exact ⟨evs, ht, noneAfterFailed_of_noneFailed hevs⟩
  · exact hr

/-- What follows an operation without touching the trace does not matter. -/
theorem AppendsNoneAfterFailed.then {x : Op α} {f : α → Op β} (hx : AppendsNoneAfterFailed s (after (x s)))
    (hf : ∀ a t, (after (f a t)).trace = t.trace) : AppendsNoneAfterFailed s (after ((x >>= f) s)) := by
  rw [bind_apply]
  rcases e : x s with ⟨a, t⟩ | ⟨c, t⟩ <;> rw [e] at hx
  · obtain ⟨evs, ht, hevs⟩ := hx
    exact ⟨evs, (hf a t).trans ht, hevs⟩
  · exact hx

theorem after_completes (x : Op α) (s : State) : after (completes x s) = after (x s) := by
  unfold completes
  split <;> rename_i e <;> rw [e] <;> rfl

theorem writeRegister_stops (h : Handle) (i v : Byte) (s : State) : StopsAtFailure s (writeRegister h i v s) := by
  rcases e : writeRegister h i v s with ⟨_, t⟩ | ⟨c, t⟩
  · obtain ⟨-, -, ht, -⟩ := writeRegister_ok e
    exact ⟨_, ht, rfl⟩
  · rcases writeRegister_error e with ⟨-, -, rfl⟩ | ⟨-, -, -, ht, -⟩
    · exact .refl _
    · exact ⟨_, ht, noneAfterFailed_wEvents ..⟩

theorem readRegister_stops (h : Handle) (i : Byte) (s : State) : StopsAtFailure s (readRegister h i s) := by
  rcases e : readRegister h i s with ⟨b, t⟩ | ⟨c, t⟩
  · obtain ⟨-, -, ht, -⟩ := readRegister_ok e
    exact ⟨_, ht, rfl⟩
  · rcases readRegister_error e with ⟨-, -, rfl⟩ | ⟨-, -, -, ht, -⟩
    · exact .refl _
    · exact ⟨_, ht, noneAfterFailed_rEvents ..⟩

theorem Follows.stops {x : Op α} (hv : s.params.verifyReadFail = .fail) (hf : Follows x s L) : StopsAtFailure s (x s) := by
  rcases e : x s with ⟨a, t⟩ | ⟨c, t⟩
  · obtain ⟨-, evs, ht, hx, -⟩ := hf.ok e
    exact ⟨evs, ht, noneFailed_of_expands hv hx⟩
  · obtain ⟨-, evs, ht, hc⟩ := hf.error e
    exact ⟨evs, ht, noneAfterFailed_of_cutShort hv hc⟩

theorem Samples.stops {x : Op Byte} {N : Byte → List Piece} (hv : s.params.verifyReadFail = .fail) (hs : Samples x s N) :
    StopsAtFailure s (x s) := by
  rcases e : x s with ⟨d, t⟩ | ⟨c, t⟩
  · obtain ⟨-, evs, ht, hx, -⟩ := hs.ok e
    exact ⟨evs, ht, noneFailed_of_expands hv hx⟩
  · obtain ⟨-, evs, ht, d, hc⟩ := hs.error e
    exact ⟨evs, ht, noneAfterFailed_of_cutShort hv hc⟩

theorem pinWrite_stops (hv : s.params.verifyReadFail = .fail) (h : Handle) (n : Pin) (p : Port) (b : Bool) :
    StopsAtFailure s (pinWrite h n p b s) := by
  have hcases := pinWrite_cases h n p b s
  rcases e : pinWrite h n p b s with ⟨_, t⟩ | ⟨c, t⟩ <;> rw [e] at hcases <;> obtain ⟨-, -, evs, ht, hevs⟩ := hcases
  · exact ⟨evs, ht, noneFailed_of_pinWriteDone hv hevs⟩
  · exact ⟨evs, ht, noneAfterFailed_of_pinWriteCut hevs⟩

theorem initHandle_stops (h : Handle) (a : ChipAddr) (tp cs : Presence) (v : Byte) (s : State) :
    StopsAtFailure s (initHandle h a tp cs v s) := by
  rcases initHandle_spec h a tp cs v s with
    ⟨-, e⟩ | ⟨-, t, -, ⟨-, -, ⟨e, before, w, -, -, ht⟩ | ⟨e, ht⟩ | ⟨e, b, -, ht⟩⟩ | ⟨-, -, e, ht⟩⟩ <;> rw [e]
  · exact .refl _
  all_goals rw [List.append_assoc, List.append_assoc] at ht
  · exact ⟨_, ht, .append_left rfl (.append_left (noneFailed_sentEvents ..) (noneAfterFailed_wEvents ..))⟩
  · exact ⟨_, ht, .append_left rfl (.append_left (noneFailed_sentEvents ..) (noneAfterFailed_rEvents ..))⟩
  · exact ⟨_, ht, .append_left rfl (.append_left (noneFailed_sentEvents ..) (noneAfterFailed_rEvents ..))⟩
  · exact ⟨_, ht, by simp [isFailedTransport]⟩

theorem readRun_stops (hv : s.params.verifyReadFail = .fail) (a : Addr) (n : Nat) :
    AppendsNoneAfterFailed s (readRun a n s).state := by
  obtain ⟨-, -, x, hx, hend⟩ := readRun_pieces a n s
  have hnone := noneFailed_of_expands hv hx
  cases hf : (readRun a n s).failed <;> rw [hf] at hend
  · exact ⟨x, hend.2.1, noneAfterFailed_of_noneFailed hnone⟩
  · obtain ⟨-, y, d, ht, hc⟩ := hend
    exact ⟨x ++ y, ht, .append_left hnone (noneAfterFailed_of_cutShort hv hc)⟩

theorem bytesRead_stops (hv : s.params.verifyReadFail = .fail) (a : Addr) (n : Nat) :
    AppendsNoneAfterFailed s (after (bytesRead a n s)) := by
  cases hf : (readRun a n s).failed with
  | none => rw [bytesRead_ok hf]; exact readRun_stops hv a n
  | some c => rw [bytesRead_error hf]; exact readRun_stops hv a n

/-- The diagnostic behind a failed bulk read is no transport call. -/
theorem infoRead_stops (hv : s.params.verifyReadFail = .fail) : AppendsNoneAfterFailed s (after (infoRead s)) := by
  obtain ⟨evs, ht, hevs⟩ := readRun_stops hv 0x0000#16 headerBlock
  cases hf : (readRun 0x0000#16 headerBlock s).failed with
  | none => rw [infoRead_ok hf]; exact ⟨evs, ht, hevs⟩
  | some c =>
    rw [infoRead_error hf]
    exact ⟨evs ++ [.diag (.headerReadFailed c)], by rw [after_error, State.emit_trace, ht, List.append_assoc],
      hevs.append_right rfl⟩

theorem body_stops (i : Instr) (q : Params) (hv : s.params.verifyReadFail = .fail) :
    AppendsNoneAfterFailed s (after (bodyOf q i s)) := by
  cases i with
  | wrFrame h a r v => exact ⟨_, by rw [wrFrameBody_after, afterW_trace], noneAfterFailed_wEvents ..⟩
  | rdFrame h a r => exact ⟨_, by rw [rdFrameBody_after, afterR_trace], noneAfterFailed_rEvents ..⟩
  | init h chip tp cs => exact (initHandle_stops ..).after.then fun _ _ => rfl
  | destroy h =>
    refine ⟨_, destroyHandle_trace s h, noneAfterFailed_of_noneFailed ?_⟩
    split <;> rfl
  | writeReg h i v => exact (writeRegister_stops h i v s).after.then fun _ _ => rfl
  | readReg h i out =>
    cases out with
    | absent => exact .refl s
    | present => exact (readRegister_stops h i s).after.then fun _ _ => rfl
  | setPortMode h p m =>
    have hmode : StopsAtFailure s (setMode h p m s) :=
      (writeRegister_stops ..).bind fun _ _ _ => writeRegister_stops ..
    exact hmode.after.then fun _ _ => rfl
  | writePin h pin p v => exact (pinWrite_stops hv ..).after.then fun _ _ => rfl
  | writePort h p v => exact ((portWrite_follows h p v s).stops hv).after.then fun _ _ => rfl
  | readPin h pin p => exact (readRegister_stops ..).after.then fun _ _ => rfl
  | readPort h p => exact (readRegister_stops ..).after.then fun _ _ => rfl
  | isConnected h =>
    rw [bodyOf, getParams_bind]
    refine AppendsNoneAfterFailed.then ?_ fun _ _ => rfl
    rw [after_completes]
    exact (readRegister_stops ..).after
  | readByte a => exact ((byteRead_samples a s).stops hv).after.then fun _ _ => rfl
  | writeByte a v => exact ((byteWrite_follows a v s).stops hv).after.then fun _ _ => rfl
  | readBytes a n buf =>
    cases buf with
    | absent => exact .refl s
    | present => exact (bytesRead_stops hv a n).then fun _ _ => rfl
  | readInfo info =>
    cases info with
    | absent => exact .refl s
    | present => exact (infoRead_stops hv).then fun _ _ => rfl

/-- Settles O35: every body stops at a failed transport call. -/
theorem noTransportCallFollowsAFailedOne : Obligations.NoTransportCallFollowsAFailedOne := by
  intro i s t hv e
  obtain ⟨-, -, rfl⟩ := exec_eq_next e
  obtain ⟨evs, ht, hevs⟩ := body_stops (s := { s with busy := true }) i s.params hv
  exact ⟨evs, (finish_trace _).trans ht, fun _ _ _ => hevs.behind⟩

end Sys2Proof.Machine
end
